-- ==== Sys2Proof/Word.lean ====
section
/-! DEFINITION. The word types of the HCE: bytes of the streams, 32-bit window registers, 64-bit counters (spec 00_scope.md R6, R9). -/

namespace Sys2Proof

/-- `u8`: one stream byte (R9). -/
abbrev Byte := BitVec 8

/-- `u32`: one register of the host window, a command word, a symbol frequency (R6 `REG_W`, `FREQ_W`). -/
abbrev Word := BitVec 32

/-- `u64`: byte counters, sizes and node frequencies (R6 `SIZE_W`, `NODE_FREQ_W`). -/
abbrev U64 := BitVec 64

end Sys2Proof
end

