-- ==== Sys2Proof/Syntax.lean ====
section
/-! DEFINITION. The command set of the HCE: one constructor per row of spec/opcode_table.json (spec 00_scope.md R2, 30_encoding.md R151). -/

namespace Sys2Proof

/-- A decoded command word. The HCE has no other instructions (R2). A command has no operand field: its operands are the
two streams (R150). `invalid` keeps the word it was decoded from, because `CMD` keeps it (R518). -/
inductive Instr where
  /-- `CMP.RLE` (R512). -/
  | cmpRle
  /-- `DCMP.RLE` (R513). -/
  | dcmpRle
  /-- `CMP.HUF` (R514). -/
  | cmpHuf
  /-- `DCMP.HUF` (R517). -/
  | dcmpHuf
  /-- `INVALID` (R518): any word that is none of the four command words. -/
  | invalid (w : Word)
  deriving DecidableEq, Repr

end Sys2Proof
end

