-- ==== Sys2Proof/WellFormed.lean ====
section
/-! DEFINITION. Which `Instr` terms stand for a command word (spec 30_encoding.md R151, R152). -/

namespace Sys2Proof

/-- The four words that stand for a command (R151). -/
def commandWords : List Word := [0x00000000#32, 0x00000001#32, 0x00000100#32, 0x00000101#32]

/-- `invalid w` is well formed when `w` is none of the four command words (R152); the four commands always are. -/
def Instr.wf : Instr → Bool
  | .cmpRle => true
  | .dcmpRle => true
  | .cmpHuf => true
  | .dcmpHuf => true
  | .invalid w => !commandWords.contains w

end Sys2Proof
end

