-- ==== Sys2Proof/Decode.lean ====
section
/-! DEFINITION. Decoding and encoding of the command word `CMDW` (spec 30_encoding.md R150 to R153), and the opcode table's rows. -/

namespace Sys2Proof

/-- Field `DIR`, bit 0 (R150): 0 compress, 1 decompress. -/
def fieldDir (w : Word) : BitVec 1 := w.extractLsb' 0 1

/-- Field `RSV0`, bits 7:1 (R150): must be 0. -/
def fieldRsv0 (w : Word) : BitVec 7 := w.extractLsb' 1 7

/-- Field `ALG`, bits 15:8 (R150): 0x00 RLE, 0x01 Huffman. -/
def fieldAlg (w : Word) : BitVec 8 := w.extractLsb' 8 8

/-- Field `RSV1`, bits 31:16 (R150): must be 0. -/
def fieldRsv1 (w : Word) : BitVec 16 := w.extractLsb' 16 16

/-- `decode : u32 -> Command` of R151. Total: every word decodes to exactly one command, and a word that is no command
is `invalid` (R152). It reads only the word itself (R153). -/
def decode (w : Word) : Instr :=
  if fieldRsv1 w ≠ 0 ∨ fieldRsv0 w ≠ 0 then .invalid w
  else if fieldAlg w = 0x00 then (if fieldDir w = 0 then .cmpRle else .dcmpRle)
  else if fieldAlg w = 0x01 then (if fieldDir w = 0 then .cmpHuf else .dcmpHuf)
  else .invalid w

/-- The word with the fields `DIR` and `ALG` and both reserved fields 0 (R150). -/
def commandWord (alg : BitVec 8) (dir : BitVec 1) : Word := (0#16 ++ alg ++ 0#7 ++ dir).setWidth 32

/-- The word of a command, by R151's table; an `invalid` keeps its word. -/
def encode : Instr → Word
  | .cmpRle => commandWord 0x00 0
  | .dcmpRle => commandWord 0x00 1
  | .cmpHuf => commandWord 0x01 0
  | .dcmpHuf => commandWord 0x01 1
  | .invalid w => w

/-- Why a written value is not handed to `decode`. -/
inductive DecodeError where
  /-- It has more than 32 bits: a command is exactly one 32-bit word (R153). -/
  | notOneWord
  deriving DecidableEq, Repr

/-- A bit string of `nbits` bits with value `w`, read as a command word: every bit of the 32 above `nbits` is 0. -/
def decodeBits (nbits w : Nat) : Except DecodeError Instr :=
  if nbits ≤ 32 ∧ w < 2 ^ nbits then .ok (decode (BitVec.ofNat 32 w)) else .error .notOneWord

/-- The instruction read from a row's bits, as spec/opcode_table.json numbers them. The HCE's one word is accessed whole
(R110, R114), so bit k of the table is bit k of the word. -/
def decodeTableWord (nbits w : Nat) : Option Instr :=
  match decodeBits nbits w with
  | .ok i => some i
  | .error _ => none

/-- One row of the opcode table: the words `w` with `w &&& mask = value` (R151). -/
structure OpRow where
  mask  : Word
  value : Word
  deriving DecidableEq, Repr

/-- A word lies in a row. -/
def OpRow.holds (r : OpRow) (w : Word) : Bool := w &&& r.mask == r.value

/-- The row of spec/opcode_table.json that stands for a constructor. `INVALID`'s row has mask 0: a decoder tries it last. -/
def opRow : Instr → OpRow
  | .cmpRle => ⟨0xFFFFFFFF#32, 0x00000000#32⟩
  | .dcmpRle => ⟨0xFFFFFFFF#32, 0x00000001#32⟩
  | .cmpHuf => ⟨0xFFFFFFFF#32, 0x00000100#32⟩
  | .dcmpHuf => ⟨0xFFFFFFFF#32, 0x00000101#32⟩
  | .invalid _ => ⟨0#32, 0#32⟩

end Sys2Proof
end

