-- ==== Sys2Proof/Config.lean ====
section
/-! DEFINITION. The implementation parameters of the HCE (spec 00_scope.md R6). `MAGIC` and `HCE_BASE` are OPEN there: they are constants without a body, so a claim about them holds for every value. -/

namespace Sys2Proof.Config

/-- `MAGIC` (R6, R7): the four bytes of the container tag, fixed at build time. OPEN in the spec, so uninterpreted. -/
opaque magic : Vector Byte 4

/-- `HCE_BASE` (R6, R111): the platform's address of the 64-byte register window. OPEN in the spec, so uninterpreted. -/
opaque hceBase : Nat

/-- `ALPHABET` (R6). -/
abbrev alphabet : Nat := 256

/-- `HEAP_CAP` (R6, R255). -/
abbrev heapCap : Nat := 256

/-- `NODE_CAP` (R6, R336). -/
abbrev nodeCap : Nat := 511

/-- `MAX_CODE_LEN` (R6, R340). -/
abbrev maxCodeLen : Nat := 255

/-- `RUN_CAP` (R6, R201). -/
abbrev runCap : Byte := 255

/-- `HDR_LEN` (R6, R160). -/
abbrev hdrLen : Nat := 13

/-- `ENTRY_LEN` (R6, R162). -/
abbrev entryLen : Nat := 5

/-- Size of the register window in bytes (R31, R111). -/
abbrev windowLen : Nat := 64

end Sys2Proof.Config
end

