-- ==== Sys2Proof/Machine/State.lean ====
section
/-! DEFINITION. The state of the HCE as plain data (spec 10_state.md, 20_memory.md section 2), the reasons a step can stop, and the state after reset (R52, R700). -/

namespace Sys2Proof.Machine

/-- An index into `NODE` (R40, R46). -/
abbrev NodeId := Fin 511

/-- A node handle (R40): an index 0..510, or the distinguished value `NONE`, which hardware codes as 511. -/
abbrev Handle := Option NodeId

/-- `NODE[h].kind` (R46). -/
inductive NodeKind where
  | leaf
  | internal
  deriving DecidableEq, Repr

/-- One entry of the node arena `NODE` (R46). -/
structure Node where
  kind  : NodeKind
  sym   : Byte
  freq  : U64
  left  : Handle
  right : Handle
  deriving DecidableEq, Repr

/-- The node arena and the heap over it: `NODE`, `NNODES`, `HEAP`, `HSIZE`, `ROOT` (R39, R46, R47). -/
structure Arena where
  /-- `NODE[0..510]`. -/
  node   : Vector Node 511
  /-- `NNODES`, 0..511: the number of allocated nodes. -/
  nnodes : Nat
  /-- `HEAP[0..255]`. -/
  heap   : Vector NodeId 256
  /-- `HSIZE`, 0..256: the number of valid heap entries. -/
  hsize  : Nat
  /-- `ROOT`. -/
  root   : Handle
  deriving DecidableEq, Repr

/-- One entry of `CODE` (R48): the code is `c_0 .. c_(len-1)` with `c_j = val[len-1-j]`, and `len = 0` means no code. -/
structure CodeEntry where
  len : BitVec 8
  val : BitVec 255
  deriving DecidableEq, Repr

/-- The fields of `STATUS` (R33). Its other bits read 0 and hold nothing. -/
structure Status where
  busy : Bool
  done : Bool
  err  : BitVec 8
  deriving DecidableEq, Repr

/-- Why an RLE run is being written (R201, R202). -/
inductive RunClose where
  /-- The byte `b`, which differs from `RUNVAL`, was read. -/
  | differs (b : Byte)
  /-- `RUNCNT` reached 255. -/
  | cap
  /-- The input ended. -/
  | atEof
  deriving DecidableEq, Repr

/-- Where `RleEncodeStream` (R201) stands: the transaction the engine has issued and waits on. -/
inductive EncAt where
  /-- `InRead` of the loop. -/
  | read
  /-- `OutWrite(RUNCNT)`. -/
  | count (why : RunClose)
  /-- `OutWrite(RUNVAL)`. -/
  | value (why : RunClose)
  deriving DecidableEq, Repr

/-- Where `RleDecodeStream` (R210) stands. -/
inductive DecAt where
  /-- `InRead` of a count byte. -/
  | count
  /-- `InRead` of the value byte after the count byte `c`. -/
  | value (c : Byte)
  /-- `OutWrite(v)`, with `left` further writes of `v` after this one. -/
  | emit (v : Byte) (left : Nat)
  deriving DecidableEq, Repr

/-- Where the loop of `Pass2` (R516) stands. -/
inductive PackAt where
  /-- `InRead` of the loop. -/
  | read
  /-- `OutWrite(ACC)` of `PackBit` (R461), with the bits of the symbol's code that are still to be packed after it. -/
  | flush (bits : List Bool)
  deriving DecidableEq, Repr

/-- Where `UnpackBody` (R470) stands. -/
inductive BodyAt where
  /-- `InRead` of the loop. -/
  | read
  /-- `OutWrite(NODE[CUR].sym)`; the `left` low bits of `byte` are not yet examined. -/
  | emit (byte : Byte) (left : Nat)
  deriving DecidableEq, Repr

/-- `PHASE` (R51): its twelve values. A value carries the position inside its phase (the transaction in flight, R106) and
the local variables of the phase's pseudocode. -/
inductive Phase where
  /-- `IDLE`: no command running. -/
  | idle
  /-- `RLE_ENC`. -/
  | rleEnc (p : EncAt)
  /-- `RLE_DEC`. -/
  | rleDec (p : DecAt)
  /-- `HUF_PASS1`: `InRead` of `FreqPass` in flight. -/
  | hufPass1
  /-- `HUF_HDR_W`: `OutWrite(b)` in flight, then the header bytes `rest`. -/
  | hufHdrW (b : Byte) (rest : List Byte)
  /-- `HUF_TAB_W`: `OutWrite(b)` in flight, then the table bytes `rest`. -/
  | hufTabW (b : Byte) (rest : List Byte)
  /-- `HUF_REWIND`: `InRewind` in flight. -/
  | hufRewind
  /-- `HUF_PASS2`. -/
  | hufPass2 (p : PackAt)
  /-- `HUF_FLUSH`: the final `OutWrite` of `PackFlush` in flight. -/
  | hufFlush
  /-- `HUF_HDR_R`: `InRead` in flight, the header bytes `got` having been read. -/
  | hufHdrR (got : List Byte)
  /-- `HUF_TAB_R`: `InRead` in flight, `left` entries (the current one counted) still to be read, `got` read of the current one. -/
  | hufTabR (left : Nat) (got : List Byte)
  /-- `HUF_BODY`. -/
  | hufBody (p : BodyAt)
  deriving DecidableEq, Repr

/-- The host's answer to one stream transaction (R101 to R103). -/
inductive Answer where
  /-- The honest answer: `Byte(S[p])` or `Eof` to an `InRead`, `Ok` to an `InRewind` or `OutWrite`. -/
  | ok
  /-- `Ok` to an `InRewind`, after which the stream delivers `bytes` (a host that breaks duty (c) of R104, which R105 partly
  checks). To any other transaction it is the honest answer. -/
  | okChanged (bytes : List Byte)
  /-- `Err`, a host draw. The read position after it (R101, R102) and whether the byte of an `OutWrite` was appended (R103)
  are the host's. -/
  | err (pos : Nat) (kept : Bool)
  deriving DecidableEq, Repr

/-- How the host names a place of the register window. -/
inductive Place where
  /-- The byte offset from the window base (R110). -/
  | offset (o : Nat)
  /-- An address of the host's own address space, in which the window stands at `HCE_BASE` (R111). -/
  | platform (a : Nat)
  deriving DecidableEq, Repr

/-- One thing the world outside the engine does (R30, R110, R154, R700, R703). -/
inductive HostOp where
  /-- `MemRead(place, size)`; the value is appended to `reads`. -/
  | memRead (place : Place) (size : Nat)
  /-- `MemWrite(place, size, v)`. -/
  | memWrite (place : Place) (size : Nat) (v : Word)
  /-- `POLL` (R154): one `MemRead` of an offset; the line stays until bits `hi:lo` of the word read are `v`. -/
  | poll (o hi lo : Nat) (v : Nat)
  /-- `IN = bytes`, at position 0. -/
  | bindIn (bytes : List Byte)
  /-- `OUT = bytes`. -/
  | bindOut (bytes : List Byte)
  /-- `REWIND IN`: `IN` at position 0 again. -/
  | rewindIn
  /-- `REWIND OUT`: the bytes of `O` become `IN`, at position 0. -/
  | rewindOut
  /-- The reset input (R700). Of a transaction in flight, `pos` and `kept` say where the read position is left and whether
  the byte was appended. -/
  | reset (pos : Nat) (kept : Bool)
  deriving DecidableEq, Repr

/-- The two agents (R30). -/
inductive Agent where
  | engine
  | host
  deriving DecidableEq, Repr

/-- Everything the spec gives the machine, and the host's side of its two streams and its register window. -/
structure State where
  /-- `CMD` (R32). -/
  cmd      : Word
  /-- `STATUS` (R33). -/
  status   : Status
  /-- `IN_COUNT` (R34). -/
  inCount  : U64
  /-- `OUT_COUNT` (R35). -/
  outCount : U64
  /-- `ORIG_SIZE` (R36). -/
  origSize : U64
  /-- `NSYM` (R37). -/
  nsym     : BitVec 9
  /-- `TOTAL` (R39). -/
  total    : U64
  /-- `N` (R39). -/
  n        : BitVec 9
  /-- `NSRAW` (R39). -/
  nsRaw    : Byte
  /-- `REMAIN` (R39). -/
  remain   : U64
  /-- `ACC` (R39). -/
  acc      : Byte
  /-- `BITCNT` (R39), 0..8. -/
  bitCnt   : Nat
  /-- `CUR` (R39). -/
  cur      : Handle
  /-- `DECODED` (R39). -/
  decoded  : U64
  /-- `RUNVAL` (R39). -/
  runVal   : Byte
  /-- `RUNCNT` (R39). -/
  runCnt   : Byte
  /-- `RUNVALID` (R39). -/
  runValid : Bool
  /-- `FREQ` (R45). -/
  freq     : Vector Word 256
  /-- `NODE`, `NNODES`, `HEAP`, `HSIZE`, `ROOT` (R39, R46, R47). -/
  arena    : Arena
  /-- `CODE` (R48). -/
  code     : Vector CodeEntry 256
  /-- `PHASE` (R51). -/
  phase    : Phase
  /-- `S` of the input stream (R101). -/
  input    : List Byte
  /-- `p` of the input stream (R101). -/
  inPos    : Nat
  /-- `O` of the output stream (R103). -/
  output   : List Byte
  /-- The host's answers to the next transactions, oldest first. -/
  answers  : List Answer
  /-- After `answers`: the host answers honestly for ever (`true`) or never again (`false`, R106). -/
  serves   : Bool
  /-- What the host does next. -/
  program  : List HostOp
  /-- Which agent moves in the next steps (R122). -/
  turns    : List Agent
  /-- The values the host has read, oldest first. -/
  reads    : List Word
  deriving DecidableEq, Repr

/-- Why the machine stops with a fault. None of them is an error of the spec: those are `STATUS` codes (R600), and a command
that ends with one ends in a next state (R604). -/
inductive Fault where
  /-- `HeapInvariant` (R255, D41, S14): a heap insert at 256 entries, an extract at 0, or an allocation at 511 nodes. Raised
  where `BuildTree` runs. Safe: no command can reach it. -/
  | heapInvariant
  /-- The engine waits for an answer that the host never gives, and the host does nothing more (R106, S12: stuck). Raised by
  `exec` of a running command and by `step`. Safe: the hardware has no step there either. -/
  | unanswered
  /-- `exec` of a command in a phase of another command. Raised by each meaning. Safe: no rule starts a command there (R32,
  R510, R710), and `step` never asks for it. -/
  | otherCommand
  deriving DecidableEq, Repr

/-- Why the machine gives no meaning. -/
inductive Refusal where
  /-- An instruction that has no meaning in this model yet. Safe. -/
  | notModelled (mnemonic : String)
  /-- A window access that is not an aligned 32-bit word at 0x00 to 0x3C (R110, S1: a model refuses it). Raised by the host's
  accesses. Safe. -/
  | badAccess
  /-- A host address outside the register window (R111, S1). Raised by the host's accesses. Safe. -/
  | outsideWindow
  /-- The host binds or rewinds a stream while a command runs (R104 duty (a), R711, S11: outside the model). Raised by the
  host's stream operations. Safe. -/
  | streamBusy
  deriving DecidableEq, Repr

/-- What a step or a meaning answers. -/
abbrev Result := Host.Outcome State Fault Refusal

/-- A node that no rule has written yet. -/
def Node.blank : Node := ⟨.leaf, 0, 0, none, none⟩

/-- The arena and heap after reset. R52 leaves them unspecified; DESIGN CHOICE all zero (log 1). -/
def Arena.reset : Arena where
  node := Vector.replicate 511 Node.blank
  nnodes := 0
  heap := Vector.replicate 256 0
  hsize := 0
  root := none

/-- The machine right after reset (R52, R700): the registers of the window 0, `PHASE` `IDLE`. The datapath registers and the
tables, which R52 leaves unspecified, are zero (DESIGN CHOICE, log 1); the streams are empty (log 2); the host has nothing
to do and answers honestly (logs 3 and 4). -/
def State.reset : State where
  cmd := 0
  status := ⟨false, false, 0⟩
  inCount := 0
  outCount := 0
  origSize := 0
  nsym := 0
  total := 0
  n := 0
  nsRaw := 0
  remain := 0
  acc := 0
  bitCnt := 0
  cur := none
  decoded := 0
  runVal := 0
  runCnt := 0
  runValid := false
  freq := Vector.replicate 256 0
  arena := Arena.reset
  code := Vector.replicate 256 ⟨0, 0⟩
  phase := .idle
  input := []
  inPos := 0
  output := []
  answers := []
  serves := true
  program := []
  turns := []
  reads := []

end Sys2Proof.Machine
end

