-- ==== Sys2Proof/Machine/Flags.lean ====
section
/-! DEFINITION. The status word: the layout of `STATUS` (spec 10_state.md R33) and the status codes (60_exceptions.md R600). -/

namespace Sys2Proof.Machine

/-- The error kinds (R600). -/
inductive Error where
  | invalidAlgorithm
  | corruptHeader
  | corruptFrequencyTable
  | truncatedBody
  | ioFailure
  | corruptFormat
  | corruptBody
  | frequencyOverflow
  | inputMismatch
  deriving DecidableEq, Repr

/-- `code(E)`: the status code of an error (R600). -/
def errorCode : Error → BitVec 8
  | .invalidAlgorithm => 1
  | .corruptHeader => 2
  | .corruptFrequencyTable => 3
  | .truncatedBody => 4
  | .ioFailure => 5
  | .corruptFormat => 6
  | .corruptBody => 7
  | .frequencyOverflow => 8
  | .inputMismatch => 9

/-- `STATUS` as the 32-bit word a host reads: `BUSY` bit 0, `DONE` bit 1, `ERR` bits 15:8, every other bit 0 (R33). -/
def statusWord (t : Status) : Word :=
  (0#16 ++ t.err ++ 0#6 ++ BitVec.ofBool t.done ++ BitVec.ofBool t.busy).setWidth 32

/-- `STATUS` at a command's start: `BUSY` 1, `DONE` 0, `ERR` 0 (R510). -/
def statusStarted : Status := ⟨true, false, 0⟩

/-- `STATUS` after `finish`: `BUSY` 0, `DONE` 1, `ERR` 0 (R605). -/
def statusFinished : Status := ⟨false, true, 0⟩

/-- `STATUS` after `raise E`: `BUSY` 0, `DONE` 1, `ERR` the code of `E` (R604). -/
def statusRaised (e : Error) : Status := ⟨false, true, errorCode e⟩

end Sys2Proof.Machine
end

