-- ==== Sys2Proof/Machine/Operands.lean ====
section
/-! DEFINITION. The places a value stands: tables indexed by a byte, little-endian byte sequences (spec 00_scope.md R10), and the registers of the host window by offset (10_state.md R31). -/

namespace Sys2Proof.Machine

/-- Entry `b` of a 256-entry table (R45, R48). -/
def entryAt {α : Type} (t : Vector α 256) (b : Byte) : α := t[b.toNat]'b.isLt

/-- A 256-entry table with entry `b` replaced. -/
def entryPut {α : Type} (t : Vector α 256) (b : Byte) (x : α) : Vector α 256 := t.set b.toNat x b.isLt

/-- The byte values in ascending order: `s = 0, 1, .., 255` (R332, R411). -/
def allSymbols : List Byte := (List.range 256).map (BitVec.ofNat 8)

/-- `bytes_le32`, `bytes_le64` (R10): the `k` low bytes of `v`, least significant first. -/
def bytesLe {w : Nat} (k : Nat) (v : BitVec w) : List Byte := (List.range k).map fun i => v.extractLsb' (8 * i) 8

/-- `le32`, `le64` (R10): the value whose least significant byte comes first. -/
def assembleLe (w : Nat) : List Byte → BitVec w
  | [] => 0
  | b :: bs => b.setWidth w ||| (assembleLe w bs <<< 8)

/-- `v[31:0]`, a `_LO` register (R31, R114). -/
def lowHalf (v : U64) : Word := v.extractLsb' 0 32

/-- `v[63:32]`, a `_HI` register (R31, R114). -/
def highHalf (v : U64) : Word := v.extractLsb' 32 32

/-- The word a `MemRead` of offset `o` returns (R31 to R38). Reserved offsets read 0. -/
def windowRead (s : State) (o : Nat) : Word :=
  match o with
  | 0x00 => s.cmd
  | 0x04 => statusWord s.status
  | 0x08 => lowHalf s.inCount
  | 0x0C => highHalf s.inCount
  | 0x10 => lowHalf s.outCount
  | 0x14 => highHalf s.outCount
  | 0x18 => lowHalf s.origSize
  | 0x1C => highHalf s.origSize
  | 0x20 => s.nsym.setWidth 32
  | _ => 0

/-- The accesses that are defined (R110): 4 bytes, at an offset that is a multiple of 4 and at most 0x3C. -/
def accessDefined (o size : Nat) : Bool := size == 4 && o % 4 == 0 && o ≤ 0x3C

/-- The byte offset of a place, if it lies in the window of 64 bytes at `HCE_BASE` (R110, R111). -/
def placeOffset : Place → Option Nat
  | .offset o => some o
  | .platform a =>
    if Config.hceBase ≤ a ∧ a < Config.hceBase + Config.windowLen then some (a - Config.hceBase) else none

/-- Bits `hi:lo` of a word, as a number (R8). -/
def bitField (w : Word) (hi lo : Nat) : Nat := (w.toNat >>> lo) % 2 ^ (hi + 1 - lo)

end Sys2Proof.Machine
end

