-- ==== Sys2Proof/Machine/Ops.lean ====
section
/-! DEFINITION. The operations every command shares: the three stream transactions (spec 20_memory.md R101 to R103, 00_scope.md R11), `raise` and `finish` (60_exceptions.md R604, R605), the start of a command (48_commands.md R510) and reset (70_reset_and_hazards.md R700). -/

namespace Sys2Proof.Machine

/-- `raise E` (R604): the HCE's one way of taking an exception. `STATUS` records the code, `PHASE` becomes `IDLE`, and
nothing else changes: consumed input, written output and counters stand (R521). -/
def raise (e : Error) (s : State) : State := { s with status := statusRaised e, phase := .idle }

/-- `finish` (R605). There is no return from an error (R607): the next command starts from R510. -/
def finish (s : State) : State := { s with status := statusFinished, phase := .idle }

/-- The engine issues the transaction that the phase `p` waits on. -/
def issue (p : Phase) (s : State) : Result := .next { s with phase := p }

/-- What `InRead` returns (R101). -/
inductive ReadAnswer where
  | byte (b : Byte)
  | eof
  | err
  deriving DecidableEq, Repr

/-- The read position an `Err` leaves: the host's, within `0..|S|` (R101). -/
def errPosition (pos : Nat) (s : State) : State := { s with inPos := min pos s.input.length }

/-- `InRead()` (R101): `Byte(S[p])` while `p < |S|`, advancing `p` and counting in `IN_COUNT` (R34); `Eof` at the end; or
`Err`. -/
def inRead (a : Answer) (s : State) : ReadAnswer × State :=
  match a with
  | .err pos _ => (.err, errPosition pos s)
  | _ =>
    match s.input[s.inPos]? with
    | some b => (.byte b, { s with inPos := s.inPos + 1, inCount := s.inCount + 1 })
    | none => (.eof, s)

/-- `InRewind()` (R102): `Ok` puts the position at 0, or `Err`. A host that breaks duty (c) of R104 delivers other bytes from
then on (R105). -/
def inRewind (a : Answer) (s : State) : Bool × State :=
  match a with
  | .ok => (true, { s with inPos := 0 })
  | .okChanged bytes => (true, { s with input := bytes, inPos := 0 })
  | .err pos _ => (false, errPosition pos s)

/-- `OutWrite(b)` (R103): `Ok` appends `b` and counts in `OUT_COUNT` (R35), or `Err`, after which the host alone says whether
`b` was appended; an `Err` does not count. -/
def outWrite (a : Answer) (b : Byte) (s : State) : Bool × State :=
  match a with
  | .err _ kept => (false, if kept then { s with output := s.output ++ [b] } else s)
  | _ => (true, { s with output := s.output ++ [b], outCount := s.outCount + 1 })

/-- `rd!(e)` (R11): `Err` raises `IOFailure`, `Eof` goes on with `onEof`, a byte with `onByte`. -/
def rd (a : Answer) (onEof : State → Result) (onByte : Byte → State → Result) (s : State) : Result :=
  match inRead a s with
  | (.err, s') => .next (raise .ioFailure s')
  | (.eof, s') => onEof s'
  | (.byte b, s') => onByte b s'

/-- `rd!(e)` with an error name (R11): `Eof` raises `e`. -/
def rdOr (a : Answer) (e : Error) (onByte : Byte → State → Result) (s : State) : Result :=
  rd a (fun s' => .next (raise e s')) onByte s

/-- `wr!(b)` (R11): `Err` raises `IOFailure`, `Ok` goes on with `k`. -/
def wr (a : Answer) (b : Byte) (k : State → Result) (s : State) : Result :=
  match outWrite a b s with
  | (false, s') => .next (raise .ioFailure s')
  | (true, s') => k s'

/-- The host's answer to the transaction in flight, if it gives one (R106): the oldest of `answers`, and after them the
honest answer if the host still serves. -/
def takeAnswer (s : State) : Option (Answer × State) :=
  match s.answers with
  | a :: rest => some (a, { s with answers := rest })
  | [] => if s.serves then some (.ok, s) else none

/-- One transaction of a running command: the host answers it and the engine goes on with `k`. Without an answer the engine
has no step (R106). -/
def transact (k : Answer → State → Result) (s : State) : Result :=
  match takeAnswer s with
  | some (a, s') => k a s'
  | none => .fault .unanswered

/-- The head of `StartCommand(v)` (R510): latch `CMD`, set `STATUS`, clear the counters, `ORIG_SIZE` and `NSYM`. `Dispatch`
follows in the same step. -/
def startCommand (v : Word) (s : State) : State :=
  { s with
    cmd := v
    status := statusStarted
    inCount := 0
    outCount := 0
    origSize := 0
    nsym := 0 }

/-- The command whose phase this is (R51); `none` in `IDLE`. -/
def phaseCommand : Phase → Option Instr
  | .idle => none
  | .rleEnc _ => some .cmpRle
  | .rleDec _ => some .dcmpRle
  | .hufPass1 => some .cmpHuf
  | .hufHdrW _ _ => some .cmpHuf
  | .hufTabW _ _ => some .cmpHuf
  | .hufRewind => some .cmpHuf
  | .hufPass2 _ => some .cmpHuf
  | .hufFlush => some .cmpHuf
  | .hufHdrR _ => some .dcmpHuf
  | .hufTabR _ _ => some .dcmpHuf
  | .hufBody _ => some .dcmpHuf

end Sys2Proof.Machine
end

