-- ==== Sys2Proof/Machine/Container.lean ====
section
/-! DEFINITION. The frequency table and the container's header and table, as bytes (spec 43_frequency.md R301 to R305; 30_encoding.md R160 to R164; 46_container.md R410 to R420). -/

namespace Sys2Proof.Machine

/-- `FreqClear()` (R301). -/
def freqClear (s : State) : State := { s with freq := Vector.replicate 256 0 }

/-- The number of distinct symbols: the entries of `FREQ` that are not 0 (R304). -/
def distinctCount (freq : Vector Word 256) : Nat := freq.toList.countP (· ≠ 0)

/-- `EndOfPass1()` (R304). -/
def endOfPass1 (s : State) : State :=
  { s with
    origSize := s.total
    n := BitVec.ofNat 9 (distinctCount s.freq)
    nsym := BitVec.ofNat 9 (distinctCount s.freq) }

/-- The 13 header bytes (R160, R410): the magic, `N mod 256` (R161), `TOTAL` little-endian (R113). -/
def headerBytes (magic : Vector Byte 4) (n : BitVec 9) (total : U64) : List Byte :=
  magic.toList ++ [n.setWidth 8] ++ bytesLe 8 total

/-- One table entry (R162): the symbol, then its frequency little-endian. -/
def entryBytes (freq : Vector Word 256) (s : Byte) : List Byte := s :: bytesLe 4 (entryAt freq s)

/-- The table bytes of `WriteTable` (R162, R411): an entry for each symbol of nonzero frequency, in ascending order. -/
def tableBytes (freq : Vector Word 256) : List Byte :=
  allSymbols.flatMap fun s => if entryAt freq s = 0 then [] else entryBytes freq s

/-- The symbol count that the raw byte stands for when `original_size` is not 0 (R161, R417). -/
def interpretedCount (ns : Byte) : BitVec 9 := if ns = 0 then 256 else ns.setWidth 9

/-- `InterpretCount()` (R417). -/
def interpretCount (s : State) : State :=
  if s.origSize = 0 then { s with n := 0, nsym := 0 }
  else { s with n := interpretedCount s.nsRaw, nsym := interpretedCount s.nsRaw }

/-- `FREQ[s] <- le32(f)` for an entry's five bytes (R418). A later entry of the same symbol replaces an earlier one (R419). -/
def loadEntry (entry : List Byte) (freq : Vector Word 256) : Vector Word 256 :=
  match entry with
  | [] => freq
  | s :: f => entryPut freq s (assembleLe 32 f)

end Sys2Proof.Machine
end

