-- ==== Sys2Proof/Machine/Heap.lean ====
section
/-! DEFINITION. The min-heap of node handles (spec 42_minheap.md R250 to R257) and the node allocator (44_tree_builder.md R331). -/

namespace Sys2Proof.Machine

/-- `parent(i) = (i - 1) div 2` (R250). -/
def heapParent (i : Nat) : Nat := (i - 1) / 2

/-- `left(i) = 2i + 1` (R250). -/
def heapLeft (i : Nat) : Nat := 2 * i + 1

/-- `right(i) = 2i + 2` (R250). -/
def heapRight (i : Nat) : Nat := 2 * i + 2

/-- `HEAP[i]`. Only indices below `HSIZE`, which is at most 256, are ever asked for (R252). -/
def heapAt (a : Arena) (i : Nat) : NodeId := a.heap[i]?.getD 0

/-- `HEAP[i] <- h`. -/
def heapPut (a : Arena) (i : Nat) (h : NodeId) : Arena := { a with heap := a.heap.setIfInBounds i h }

/-- `key(h) = NODE[h].freq` (R251). -/
def nodeKey (a : Arena) (h : NodeId) : U64 := (a.node[h]).freq

/-- `key(HEAP[i])` (R251). -/
def heapKey (a : Arena) (i : Nat) : U64 := nodeKey a (heapAt a i)

/-- `swap HEAP[i], HEAP[j]` (R253, R254). -/
def heapSwap (a : Arena) (i j : Nat) : Arena := heapPut (heapPut a i (heapAt a j)) j (heapAt a i)

/-- The climb of `HeapInsert` (R253) from index `i`: it swaps with the parent while the key is strictly less. `fuel` bounds
the number of swaps; `fuel = i` is enough, since the parent's index is less. -/
def siftUp : Nat → Nat → Arena → Arena
  | 0, _, a => a
  | fuel + 1, i, a =>
    if 0 < i ∧ heapKey a i < heapKey a (heapParent i) then
      siftUp fuel (heapParent i) (heapSwap a i (heapParent i))
    else a

/-- The child that the descent of `HeapExtractMin` (R254) compares with: the right one only if it is present and strictly
smaller (R257). -/
def smallerChild (a : Arena) (i : Nat) : Nat :=
  if heapRight i < a.hsize ∧ heapKey a (heapRight i) < heapKey a (heapLeft i) then heapRight i else heapLeft i

/-- The descent of `HeapExtractMin` (R254) from index `i`. `fuel` bounds the number of swaps; `HSIZE` is enough, since the
child's index is greater. -/
def siftDown : Nat → Nat → Arena → Arena
  | 0, _, a => a
  | fuel + 1, i, a =>
    if a.hsize ≤ heapLeft i then a
    else if heapKey a (smallerChild a i) < heapKey a i then
      siftDown fuel (smallerChild a i) (heapSwap a i (smallerChild a i))
    else a

/-- `HeapInit()` (R252). -/
def heapInit (a : Arena) : Arena := { a with hsize := 0 }

/-- `HeapInsert(h)` (R253); `none` is the overflow that R255 shows unreachable. -/
def heapInsert (h : NodeId) (a : Arena) : Option Arena :=
  if a.hsize < Config.heapCap then
    some (siftUp a.hsize a.hsize { heapPut a a.hsize h with hsize := a.hsize + 1 })
  else none

/-- What `HeapExtractMin` leaves once `HSIZE` is decremented (R254): if entries remain, the last one moves to the root and
sinks. -/
def heapRefill (a : Arena) : Arena :=
  if 0 < a.hsize then siftDown a.hsize 0 (heapPut a 0 (heapAt a a.hsize)) else a

/-- `HeapExtractMin()` (R254): the handle at the root and the heap without it; `none` is the underflow that R255 shows
unreachable. -/
def heapExtractMin (a : Arena) : Option (NodeId × Arena) :=
  if 0 < a.hsize then some (heapAt a 0, heapRefill { a with hsize := a.hsize - 1 }) else none

/-- `NodeAlloc(kind, sym, freq, left, right)` (R331); `none` is the overflow that R336 shows unreachable. -/
def nodeAlloc (x : Node) (a : Arena) : Option (NodeId × Arena) :=
  if h : a.nnodes < 511 then
    some (⟨a.nnodes, h⟩, { a with node := a.node.set a.nnodes x h, nnodes := a.nnodes + 1 })
  else none

end Sys2Proof.Machine
end

