-- ==== Sys2Proof/Machine/Tree.lean ====
section
/-! DEFINITION. The Huffman tree builder (spec 44_tree_builder.md R332 to R340) and the code table generator (45_code_table.md R380 to R384). -/

namespace Sys2Proof.Machine

/-- Step 1 of `BuildTree` (R333) for one symbol: a leaf enters the arena and the heap if `FREQ[s] > 0`. -/
def addLeaf (freq : Vector Word 256) (s : Byte) (a : Arena) : Option Arena :=
  if entryAt freq s = 0 then some a
  else
    match nodeAlloc ⟨.leaf, s, (entryAt freq s).setWidth 64, none, none⟩ a with
    | some (h, a') => heapInsert h a'
    | none => none

/-- Step 1 of `BuildTree` (R333): leaves in ascending symbol order (R332). -/
def addLeaves (freq : Vector Word 256) : List Byte → Arena → Option Arena
  | [], a => some a
  | s :: rest, a =>
    match addLeaf freq s a with
    | some a' => addLeaves freq rest a'
    | none => none

/-- The node that a merge makes of the two handles extracted (R337): the first is the left child, the frequency is the sum. -/
def mergedNode (a : Arena) (x y : NodeId) : Node := ⟨.internal, 0, nodeKey a x + nodeKey a y, some x, some y⟩

/-- One merge of step 4 (R333, R337): two extracts, a new internal node, one insert. -/
def mergeOnce (a : Arena) : Option Arena :=
  match heapExtractMin a with
  | none => none
  | some (x, a1) =>
    match heapExtractMin a1 with
    | none => none
    | some (y, a2) =>
      match nodeAlloc (mergedNode a2 x y) a2 with
      | none => none
      | some (h, a3) => heapInsert h a3

/-- `while HSIZE > 1` of step 4 (R333). Each merge makes `HSIZE` one less, so `fuel = HSIZE` is enough. -/
def mergeAll : Nat → Arena → Option Arena
  | 0, a => some a
  | fuel + 1, a =>
    if 1 < a.hsize then
      match mergeOnce a with
      | some a' => mergeAll fuel a'
      | none => none
    else some a

/-- Step 3 of `BuildTree` (R335): the only leaf, handle 0, is the left child of a synthetic root. -/
def wrapSingle (a : Arena) : Option Arena :=
  match nodeAlloc ⟨.internal, 0, nodeKey a 0, some 0, none⟩ a with
  | some (h, a') => some { a' with root := some h }
  | none => none

/-- `ROOT <- HeapExtractMin()`, the end of step 4 (R333). -/
def takeRoot (a : Arena) : Option Arena :=
  match heapExtractMin a with
  | some (h, a') => some { a' with root := some h }
  | none => none

/-- `BuildTree()` (R333) on the frequency table, in the arena `a`. `none` would be `HeapInvariant` (R255, R336). -/
def buildTree (freq : Vector Word 256) (a : Arena) : Option Arena :=
  match addLeaves freq allSymbols { heapInit a with nnodes := 0, root := none } with
  | none => none
  | some a1 =>
    if a1.nnodes = 0 then some a1
    else if a1.nnodes = 1 then wrapSingle a1
    else
      match mergeAll a1.hsize a1 with
      | some a2 => takeRoot a2
      | none => none

/-- `Walk(h, len, val)` (R381): depth first, left before right. `fuel` bounds the depth; a tree of 511 nodes is no deeper. -/
def walkCodes (node : Vector Node 511) : Nat → Handle → BitVec 8 → BitVec 255 → Vector CodeEntry 256 → Vector CodeEntry 256
  | 0, _, _, _, c => c
  | _ + 1, none, _, _, c => c
  | fuel + 1, some h, len, val, c =>
    match (node[h]).kind with
    | .leaf => entryPut c (node[h]).sym ⟨len, val⟩
    | .internal =>
      walkCodes node fuel (node[h]).right (len + 1) (val <<< 1 ||| 1)
        (walkCodes node fuel (node[h]).left (len + 1) (val <<< 1) c)

/-- `GenCodes()` (R381). -/
def genCodes (a : Arena) : Vector CodeEntry 256 :=
  walkCodes a.node (Config.nodeCap + 1) a.root 0 0 (Vector.replicate 256 ⟨0, 0⟩)

/-- The bits of a code, `c_0` first: `c_j = val[len-1-j]` (R48, R462). -/
def codeBits (c : CodeEntry) : List Bool := (List.range c.len.toNat).map fun j => c.val.getLsbD (c.len.toNat - 1 - j)

end Sys2Proof.Machine
end

