-- ==== Sys2Proof/Machine/Packer.lean ====
section
/-! DEFINITION. The bit packer's registers and the unpacker's descent (spec 47_bit_packer.md R460 to R475). -/

namespace Sys2Proof.Machine

/-- `PackInit()` (R460). -/
def packInit (s : State) : State := { s with acc := 0, bitCnt := 0 }

/-- The register part of `PackBit(bit)` (R461): `ACC <- ((ACC << 1) | bit) mod 256`, `BITCNT <- BITCNT + 1`. -/
def packShift (b : Bool) (s : State) : State :=
  { s with acc := s.acc <<< 1 ||| (BitVec.ofBool b).setWidth 8, bitCnt := s.bitCnt + 1 }

/-- `PackSymbol` (R462) on the code bits still to be packed. A `PackBit` that fills the accumulator issues its write (R461);
`done` follows the last bit. -/
def packBits (done : State → Result) : List Bool → State → Result
  | [], s => done s
  | b :: rest, s =>
    if s.bitCnt + 1 = 8 then issue (.hufPass2 (.flush rest)) (packShift b s) else packBits done rest (packShift b s)

/-- The byte of `PackFlush` (R464): `(ACC << (8 - BITCNT)) mod 256`. -/
def flushByte (s : State) : Byte := s.acc <<< (8 - s.bitCnt)

/-- The child that a bit leads to (R470): `right` on 1, `left` on 0. `NONE` has no child. -/
def childOf (a : Arena) (h : Handle) (bit : Bool) : Handle :=
  match h with
  | none => none
  | some x => if bit then (a.node[x]).right else (a.node[x]).left

/-- `NODE[CUR].sym` (R470). -/
def curSym (s : State) : Byte :=
  match s.cur with
  | none => 0
  | some x => (s.arena.node[x]).sym

/-- The bit loop of `UnpackBody` (R470) on the `k` low bits of `byte`: descend until a leaf is reached, whose write is then
issued (R474), or a child is absent, which raises `CorruptBody` (R472), or the byte is used up and the next is read. -/
def walkBits (byte : Byte) : Nat → State → Result
  | 0, s => issue (.hufBody .read) s
  | k + 1, s =>
    match childOf s.arena s.cur (byte.getLsbD k) with
    | none => .next (raise .corruptBody s)
    | some x =>
      if (s.arena.node[x]).kind = .leaf then issue (.hufBody (.emit byte k)) { s with cur := some x }
      else walkBits byte k { s with cur := some x }

/-- `UnpackBody` (R470) after a symbol's write: count it, return to the root, and stop at `ORIG_SIZE` symbols (R471). -/
def bodyWritten (byte : Byte) (left : Nat) (s : State) : Result :=
  if s.decoded + 1 = s.origSize then
    .next (finish { s with decoded := s.decoded + 1, cur := s.arena.root })
  else walkBits byte left { s with decoded := s.decoded + 1, cur := s.arena.root }

end Sys2Proof.Machine
end

