-- ==== Sys2Proof/Machine/Huffman.lean ====
section
/-! DEFINITION. The two Huffman commands (spec 48_commands.md R514 to R517; 43_frequency.md R302; 46_container.md R410 to R420; 47_bit_packer.md R460 to R475). -/

namespace Sys2Proof.Machine

/-- `for b in bytes: wr!(b)`: the first write is issued, or `done` follows if there is none. -/
def writeAll (at' : Byte → List Byte → Phase) (done : State → Result) (bytes : List Byte) (s : State) : Result :=
  match bytes with
  | [] => done s
  | b :: rest => issue (at' b rest) s

/-- `PackFlush()` and `finish`, the end of `CMP.HUF` (R464, R514, R516). Without bits left, no byte is written. -/
def packFlush (s : State) : Result := if 0 < s.bitCnt then issue .hufFlush s else .next (finish s)

/-- The head of `Pass2`'s loop (R516): read on while `REMAIN > 0`, else flush. -/
def pass2Loop (s : State) : Result := if s.remain = 0 then packFlush s else issue (.hufPass2 .read) s

/-- The end of `Pass2`'s loop body (R516): `REMAIN <- REMAIN - 1`. -/
def pass2Packed (s : State) : Result := pass2Loop { s with remain := s.remain - 1 }

/-- `Pass2` (R516) on a byte read: a byte with no code was not seen in pass 1 (R105). -/
def pass2Byte (b : Byte) (s : State) : Result :=
  if (entryAt s.code b).len = 0 then .next (raise .inputMismatch s)
  else packBits pass2Packed (codeBits (entryAt s.code b)) s

/-- One transaction of `Pass2`'s loop (R516, R461). -/
def pass2Step (p : PackAt) (a : Answer) (s : State) : Result :=
  match p with
  | .read => rdOr a .inputMismatch pass2Byte s
  | .flush rest => wr a s.acc (fun s' => packBits pass2Packed rest (packInit s')) s

/-- `Pass2()` after the rewind (R516): `PackInit()`, `REMAIN <- TOTAL`. -/
def pass2Start (s : State) : Result := pass2Loop { packInit s with remain := s.total }

/-- The rewind of `Pass2` (R516). -/
def rewindStep (a : Answer) (s : State) : Result :=
  match inRewind a s with
  | (false, s') => .next (raise .ioFailure s')
  | (true, s') => pass2Start s'

/-- `PHASE <- HUF_TAB_W; WriteTable()`, then `Pass2` (R514, R411). -/
def writeTable (s : State) : Result := writeAll .hufTabW (issue .hufRewind) (tableBytes s.freq) s

/-- After `WriteHeader` (R514, R515): an empty container is finished, else the table follows. -/
def headerWritten (s : State) : Result := if s.total = 0 then .next (finish s) else writeTable s

/-- `PHASE <- HUF_HDR_W; WriteHeader()` (R410, R514, R515). -/
def writeHeader (s : State) : Result := writeAll .hufHdrW headerWritten (headerBytes Config.magic s.n s.total) s

/-- `CMP.HUF` at the `Eof` of pass 1 (R302, R304, R514): `EndOfPass1`, then the tree and the codes unless the input was
empty (R515), then the header. -/
def pass1Eof (s : State) : Result :=
  if s.total = 0 then writeHeader (endOfPass1 s)
  else
    match buildTree s.freq s.arena with
    | none => .fault .heapInvariant
    | some a => writeHeader { endOfPass1 s with arena := a, code := genCodes a }

/-- `FreqPass` (R302) on a byte read; a count never wraps (R303). -/
def pass1Byte (b : Byte) (s : State) : Result :=
  if entryAt s.freq b = 0xFFFFFFFF#32 then .next (raise .frequencyOverflow s)
  else issue .hufPass1 { s with freq := entryPut s.freq b (entryAt s.freq b + 1), total := s.total + 1 }

/-- `CMP.HUF` (R514). From `IDLE`: `PHASE <- HUF_PASS1`, `FreqClear()`, `TOTAL <- 0`, and the first `InRead` is issued. -/
def execCmpHuf (s : State) : Result :=
  match s.phase with
  | .idle => issue .hufPass1 { freqClear s with total := 0 }
  | .hufPass1 => transact (fun a => rd a pass1Eof pass1Byte) s
  | .hufHdrW b rest => transact (fun a => wr a b (writeAll .hufHdrW headerWritten rest)) s
  | .hufTabW b rest => transact (fun a => wr a b (writeAll .hufTabW (issue .hufRewind) rest)) s
  | .hufRewind => transact rewindStep s
  | .hufPass2 p => transact (pass2Step p) s
  | .hufFlush => transact (fun a s' => wr a (flushByte s') (fun s'' => .next (finish (packInit s''))) s') s
  | _ => .fault .otherCommand

/-- `UnpackBody()` begins (R470): `CUR <- ROOT`, `DECODED <- 0`, and a body byte is read. -/
def bodyStart (s : State) : Result := issue (.hufBody .read) { s with cur := s.arena.root, decoded := 0 }

/-- After the last table entry (R418, R420, R517): an all-zero table is corrupt, else the tree is rebuilt and the body
begins. -/
def tableRead (s : State) : Result :=
  if distinctCount s.freq = 0 then .next (raise .corruptFrequencyTable s)
  else
    match buildTree s.freq s.arena with
    | none => .fault .heapInvariant
    | some a => bodyStart { s with arena := a }

/-- `ReadTable` (R418) on a byte read, the fifth byte of an entry completing it. -/
def tableByte (left : Nat) (got : List Byte) (b : Byte) (s : State) : Result :=
  if got.length + 1 < Config.entryLen then issue (.hufTabR left (got ++ [b])) s
  else if left ≤ 1 then tableRead { s with freq := loadEntry (got ++ [b]) s.freq }
  else issue (.hufTabR (left - 1) []) { s with freq := loadEntry (got ++ [b]) s.freq }

/-- `DCMP.HUF` after the header (R517): size 0 finishes; else `PHASE <- HUF_TAB_R`, `FreqClear()` and `N` entries are read. -/
def headerRead (s : State) : Result :=
  if s.origSize = 0 then .next (finish s) else issue (.hufTabR s.n.toNat []) (freqClear s)

/-- `ReadHeader` (R414) on the header byte after the bytes `got`: the magic is checked once its four bytes are in (R415), the
fifth byte goes to `NSRAW`, the thirteenth completes `ORIG_SIZE` (R416) and the count is interpreted (R417). -/
def headerByte (got : List Byte) (b : Byte) (s : State) : Result :=
  if got.length = 3 then
    if got ++ [b] = Config.magic.toList then issue (.hufHdrR (got ++ [b])) s else .next (raise .corruptHeader s)
  else if got.length = 4 then issue (.hufHdrR (got ++ [b])) { s with nsRaw := b }
  else if got.length = 12 then
    headerRead (interpretCount { s with origSize := assembleLe 64 ((got ++ [b]).drop 5) })
  else issue (.hufHdrR (got ++ [b])) s

/-- One transaction of `UnpackBody` (R470). -/
def bodyStep (p : BodyAt) (a : Answer) (s : State) : Result :=
  match p with
  | .read => rdOr a .truncatedBody (fun byte => walkBits byte 8) s
  | .emit byte left => wr a (curSym s) (bodyWritten byte left) s

/-- `DCMP.HUF` (R517). From `IDLE`: `PHASE <- HUF_HDR_R`, and the first `InRead` is issued. -/
def execDcmpHuf (s : State) : Result :=
  match s.phase with
  | .idle => issue (.hufHdrR []) s
  | .hufHdrR got => transact (fun a => rdOr a .corruptHeader (headerByte got)) s
  | .hufTabR left got => transact (fun a => rdOr a .corruptFrequencyTable (tableByte left got)) s
  | .hufBody p => transact (bodyStep p) s
  | _ => .fault .otherCommand

end Sys2Proof.Machine
end

