-- ==== Sys2Proof/Machine/Invalid.lean ====
section
/-! DEFINITION. The invalid command word (spec 48_commands.md R518). -/

namespace Sys2Proof.Machine

/-- `INVALID` (R518): `raise InvalidAlgorithm`, in the step of the command's start. `CMD` already holds the word, whichever
it is. -/
def execInvalid (_w : Word) (s : State) : Result :=
  match s.phase with
  | .idle => .next (raise .invalidAlgorithm s)
  | _ => .fault .otherCommand

end Sys2Proof.Machine
end

