-- ==== Sys2Proof/Machine/Rle.lean ====
section
/-! DEFINITION. The RLE codec and its two commands (spec 41_rle.md R200 to R213; 48_commands.md R512, R513). -/

namespace Sys2Proof.Machine

/-- The end of `RleEncodeStream`'s loop body (R201): a run at the cap is written at once (R202), otherwise the next byte is
read. -/
def encLoopEnd (s : State) : Result :=
  if s.runCnt = Config.runCap then issue (.rleEnc (.count .cap)) s else issue (.rleEnc .read) s

/-- `RUNVAL <- b; RUNCNT <- 1; RUNVALID <- 1` (R201): a run opens. -/
def openRun (b : Byte) (s : State) : State := { s with runVal := b, runCnt := 1, runValid := true }

/-- `RleEncodeStream` (R201) on a byte read. -/
def encByte (b : Byte) (s : State) : Result :=
  if s.runValid = false then encLoopEnd (openRun b s)
  else if b = s.runVal then encLoopEnd { s with runCnt := s.runCnt + 1 }
  else issue (.rleEnc (.count (.differs b))) s

/-- `RleEncodeStream` (R201) on `Eof`: the last run is written, if one is open. -/
def encEof (s : State) : Result :=
  if s.runValid then issue (.rleEnc (.count .atEof)) s else .next (finish s)

/-- `RleEncodeStream` (R201) after both bytes of a pair are written. -/
def encClosed (why : RunClose) (s : State) : Result :=
  match why with
  | .differs b => encLoopEnd { s with runVal := b, runCnt := 1 }
  | .cap => issue (.rleEnc .read) { s with runValid := false }
  | .atEof => .next (finish s)

/-- One transaction of `RleEncodeStream` (R201) and the computation after it. -/
def encStep (p : EncAt) (a : Answer) (s : State) : Result :=
  match p with
  | .read => rd a encEof encByte s
  | .count why => wr a s.runCnt (issue (.rleEnc (.value why))) s
  | .value why => wr a s.runVal (encClosed why) s

/-- `CMP.RLE` (R512). From `IDLE`: `PHASE <- RLE_ENC`, `RUNVALID <- 0`, and the first `InRead` is issued. -/
def execCmpRle (s : State) : Result :=
  match s.phase with
  | .idle => issue (.rleEnc .read) { s with runValid := false }
  | .rleEnc p => transact (encStep p) s
  | _ => .fault .otherCommand

/-- The writes `repeat c times: wr!(v)` of `RleDecodeStream` (R210), `left` of them still to come; then the next count byte
is read. -/
def decEmit (v : Byte) (left : Nat) (s : State) : Result :=
  match left with
  | 0 => issue (.rleDec .count) s
  | k + 1 => issue (.rleDec (.emit v k)) s

/-- One transaction of `RleDecodeStream` (R210) and the computation after it. A count of 0 writes nothing (R211). -/
def decStep (p : DecAt) (a : Answer) (s : State) : Result :=
  match p with
  | .count => rd a (fun s' => .next (finish s')) (fun c => issue (.rleDec (.value c))) s
  | .value c => rdOr a .corruptFormat (fun v => decEmit v c.toNat) s
  | .emit v left => wr a v (decEmit v left) s

/-- `DCMP.RLE` (R513). From `IDLE`: `PHASE <- RLE_DEC`, and the first `InRead` is issued. -/
def execDcmpRle (s : State) : Result :=
  match s.phase with
  | .idle => issue (.rleDec .count) s
  | .rleDec p => transact (decStep p) s
  | _ => .fault .otherCommand

end Sys2Proof.Machine
end

