-- ==== Sys2Proof/Machine/Dispatch.lean ====
section
/-! DEFINITION. `Dispatch` (spec 48_commands.md R511): the meaning of each command. From `PHASE = IDLE` a meaning runs the command's first statement; in a phase of the command it runs one transaction and the computation after it (R720). -/

namespace Sys2Proof.Machine

def exec (i : Instr) (s : State) : Host.Outcome State Fault Refusal :=
  match i with
  | .cmpRle => Sys2Proof.Machine.execCmpRle s
  | .dcmpRle => Sys2Proof.Machine.execDcmpRle s
  | .cmpHuf => Sys2Proof.Machine.execCmpHuf s
  | .dcmpHuf => Sys2Proof.Machine.execDcmpHuf s
  | .invalid w => Sys2Proof.Machine.execInvalid w s

end Sys2Proof.Machine
end

