-- ==== Sys2Proof/Machine/HostOps.lean ====
section
/-! DEFINITION. What the host and the reset input do (spec 20_memory.md R110, R111; 48_commands.md R510, R511; 30_encoding.md R154; 70_reset_and_hazards.md R700, R703, R710), and the host's assembly notation. -/

namespace Sys2Proof.Machine

/-- `Dispatch()` (R511): `CMD` is read once and decoded, and the rule of the command runs. -/
def dispatch (s : State) : Result := exec (decode s.cmd) s

/-- A `MemWrite` of `v` at offset `o` of the window. At `CMD` it starts a command (R510), or does nothing while one runs
(R710). Every other register is read-only or reserved: a write has no effect (R31, R38). -/
def windowWrite (o : Nat) (v : Word) (s : State) : Result :=
  match o with
  | 0x00 => if s.status.busy then .next s else dispatch (startCommand v s)
  | _ => .next s

/-- An access to a place of the window with a size (R110): refused unless it is an aligned 32-bit word in the window (S1). -/
def windowAccess (place : Place) (size : Nat) (k : Nat → Result) : Result :=
  match placeOffset place with
  | none => .refused .outsideWindow
  | some o => if accessDefined o size then k o else .refused .badAccess

/-- A change of a stream by the host: outside the model while a command runs (R104, R711, S11). -/
def streamChange (s' : State) (s : State) : Result := if s.status.busy then .refused .streamBusy else .next s'

/-- A transaction that a reset withdraws (R700, S13): where the position of `IN` is left is the host's, and so is whether the
byte of an `OutWrite` landed. -/
inductive InFlight where
  | nothing
  | read
  | rewind
  | write (b : Byte)
  deriving DecidableEq, Repr

/-- The transaction that the engine has issued and waits on (R106, R120). -/
def inFlight (s : State) : InFlight :=
  match s.phase with
  | .idle => .nothing
  | .rleEnc .read => .read
  | .rleEnc (.count _) => .write s.runCnt
  | .rleEnc (.value _) => .write s.runVal
  | .rleDec .count => .read
  | .rleDec (.value _) => .read
  | .rleDec (.emit v _) => .write v
  | .hufPass1 => .read
  | .hufHdrW b _ => .write b
  | .hufTabW b _ => .write b
  | .hufRewind => .rewind
  | .hufPass2 .read => .read
  | .hufPass2 (.flush _) => .write s.acc
  | .hufFlush => .write (flushByte s)
  | .hufHdrR _ => .read
  | .hufTabR _ _ => .read
  | .hufBody .read => .read
  | .hufBody (.emit _ _) => .write (curSym s)

/-- The streams after a withdrawn transaction (R700, S13). -/
def withdraw (pos : Nat) (kept : Bool) (s : State) : State :=
  match inFlight s with
  | .nothing => s
  | .read => errPosition pos s
  | .rewind => errPosition pos s
  | .write b => if kept then { s with output := s.output ++ [b] } else s

/-- The reset input (R700): every register and table takes its value of R52, a running command is abandoned without a status,
and the streams and the rest of the host's side stay. -/
def resetEngine (pos : Nat) (kept : Bool) (s : State) : State :=
  { State.reset with
    input := (withdraw pos kept s).input
    inPos := (withdraw pos kept s).inPos
    output := (withdraw pos kept s).output
    answers := s.answers
    serves := s.serves
    program := s.program
    turns := s.turns
    reads := s.reads }

/-- One host operation, taken off `program` (`s` no longer lists it). -/
def runHostOp (op : HostOp) (s : State) : Result :=
  match op with
  | .memRead place size => windowAccess place size fun o => .next { s with reads := s.reads ++ [windowRead s o] }
  | .memWrite place size v => windowAccess place size fun o => windowWrite o v s
  | .poll o hi lo v =>
    windowAccess (.offset o) 4 fun o' =>
      if bitField (windowRead s o') hi lo = v then .next s else .next { s with program := op :: s.program }
  | .bindIn bytes => streamChange { s with input := bytes, inPos := 0 } s
  | .bindOut bytes => streamChange { s with output := bytes } s
  | .rewindIn => streamChange { s with inPos := 0 } s
  | .rewindOut => streamChange { s with input := s.output, inPos := 0 } s
  | .reset pos kept => .next (resetEngine pos kept s)

/-- The host's turn: its next operation, if it has one. -/
def hostMove (s : State) : Result :=
  match s.program with
  | [] => .next s
  | op :: rest => runHostOp op { s with program := rest }

/-- The register names of the window (R31, R154). -/
inductive Reg where
  | cmd
  | status
  | inCountLo
  | inCountHi
  | outCountLo
  | outCountHi
  | origSizeLo
  | origSizeHi
  | nsym
  deriving DecidableEq, Repr

/-- `offset(reg)` (R31). -/
def regOffset : Reg → Nat
  | .cmd => 0x00
  | .status => 0x04
  | .inCountLo => 0x08
  | .inCountHi => 0x0C
  | .outCountLo => 0x10
  | .outCountHi => 0x14
  | .origSizeLo => 0x18
  | .origSizeHi => 0x1C
  | .nsym => 0x20

/-- A line of the host's assembly notation (R154). A field of `POLL` is named by its bits. -/
inductive HostLine where
  /-- `IN = bytes`. -/
  | setIn (bytes : List Byte)
  /-- `OUT = []`. -/
  | clearOut
  /-- `WR <reg>, <imm32>`. -/
  | wr (reg : Reg) (imm : Word)
  /-- `RD <name>, <reg>`. -/
  | rd (reg : Reg)
  /-- `POLL <reg>.<field> == <v>`. -/
  | poll (reg : Reg) (hi lo v : Nat)
  /-- `REWIND IN`. -/
  | rewindIn
  /-- `REWIND OUT`. -/
  | rewindOut
  /-- `RUN <mnemonic>`, `RUN INVALID(<imm32>)`. -/
  | run (i : Instr)
  deriving DecidableEq, Repr

/-- What a line of the notation stands for (R154). `RUN` is `WR CMD` of the command's word, then
`POLL STATUS.BUSY == 0`. -/
def expandLine : HostLine → List HostOp
  | .setIn bytes => [.bindIn bytes]
  | .clearOut => [.bindOut []]
  | .wr reg imm => [.memWrite (.offset (regOffset reg)) 4 imm]
  | .rd reg => [.memRead (.offset (regOffset reg)) 4]
  | .poll reg hi lo v => [.poll (regOffset reg) hi lo v]
  | .rewindIn => [.rewindIn]
  | .rewindOut => [.rewindOut]
  | .run i => [.memWrite (.offset (regOffset .cmd)) 4 (encode i), .poll (regOffset .status) 0 0 0]

end Sys2Proof.Machine
end

