-- ==== Sys2Proof/Machine/Turns.lean ====
section
/-! DEFINITION. Which agent moves, and one move (spec 10_state.md R30, 20_memory.md R106, R122, 70_reset_and_hazards.md R720); how a command word comes to be the next thing that runs. -/

namespace Sys2Proof.Machine

/-- The engine can step: a command runs and the host answers its transaction (R106, R720). -/
def engineReady (s : State) : Bool := s.phase != .idle && (takeAnswer s).isSome

/-- The host has something to do. -/
def hostReady (s : State) : Bool := !s.program.isEmpty

/-- The engine's turn: one transaction of the running command (R30, R720), by the meaning of that command. In `IDLE` the
engine does nothing (R617). -/
def engineMove (s : State) : Result :=
  match phaseCommand s.phase with
  | some i => exec i s
  | none => .next s

/-- The agent that moves next: the one that `turns` names, and after `turns` the engine whenever it can step (weak fairness,
R720). An agent that cannot move gives its turn to the other. -/
def nextAgent (s : State) : Agent :=
  match s.turns with
  | .host :: _ => if hostReady s then .host else .engine
  | .engine :: _ => if engineReady s then .engine else if hostReady s then .host else .engine
  | [] => if engineReady s then .engine else if hostReady s then .host else .engine

/-- One step of the machine: the turn is used up and its agent makes one move. When neither agent can move, an idle engine
stays as it is (R617), and an engine that waits for an answer is stuck (R106, S12). -/
def oneMove (s : State) : Result :=
  match nextAgent s with
  | .host => hostMove { s with turns := s.turns.tail }
  | .engine => engineMove { s with turns := s.turns.tail }

/-- `s` with the engine idle and the write of the word `v` to `CMD` as the host's next operation, the host moving next. -/
def placeCommand (v : Word) (s : State) : State :=
  { s with
    status := { s.status with busy := false }
    phase := .idle
    program := .memWrite (.offset 0x00) 4 v :: s.program
    turns := .host :: s.turns }

end Sys2Proof.Machine
end

