-- ==== Sys2Proof/Machine/Step.lean ====
section
/-! DEFINITION. The step of the machine, and the placing of an instruction where the next step runs it. -/

namespace Sys2Proof.Machine

/-- One step: one stream transaction with the computation around it, or one access or event of the host's side (R30, R122,
R720). -/
def step (s : State) : Host.Outcome State Fault Refusal := oneMove s

/-- `s` with the word `w` (of `nbits` bits, the bits above them 0) as the very next thing that runs: the HCE fetches nothing
(R125), so this is the host's `CMD` write that starts the command (R510; log 6). -/
def State.withFetchWord (s : State) (nbits w : Nat) : State := placeCommand (BitVec.ofNat 32 (w % 2 ^ nbits)) s

end Sys2Proof.Machine
end

