-- ==== Sys2Proof/Safety.lean ====
section
/-! DEFINITION. The terms the claims use: a host that answers, a command run to its end, the invariants a step keeps, and what the spec's laws say the two codecs compute (spec 41_rle.md R204, R210; 30_encoding.md R160 to R166; 47_bit_packer.md R465). -/

namespace Sys2Proof.Machine

/-- The host answers every transaction from here on, and honestly (the premises of R104 and R519). -/
def Honest (s : State) : Prop := s.answers = [] ∧ s.serves = true

/-- The host answers every transaction from here on, in whatever way (R721). -/
def Answering (s : State) : Prop := s.serves = true

/-- The command `i`, run by at most `k` engine steps, and stopped in the step that ends it (`PHASE = IDLE`, R604, R605). -/
def commandRun (i : Instr) : Nat → State → Result
  | 0, s => .next s
  | k + 1, s =>
    match exec i s with
    | .next t => if t.phase = .idle then .next t else commandRun i k t
    | .fault f => .fault f
    | .refused r => .refused r

/-- The command `i` runs from `s` to its end in the state `t` within `k` engine steps, at least one: the start step and at most
`k - 1` transactions. -/
def EndsIn (i : Instr) (k : Nat) (s t : State) : Prop :=
  0 < k ∧ s.phase = .idle ∧ commandRun i k s = .next t ∧ t.phase = .idle

/-- The bytes of `IN` that are still to be read. -/
def unread (s : State) : List Byte := s.input.drop s.inPos

/-- `s` with every datapath register and table of R39 and R45 to R48 at one fixed value: what is left is what a host can
observe, and the sequencing. -/
def hideTables (s : State) : State :=
  { s with
    total := 0
    n := 0
    nsRaw := 0
    remain := 0
    acc := 0
    bitCnt := 0
    cur := none
    decoded := 0
    runVal := 0
    runCnt := 0
    runValid := false
    freq := State.reset.freq
    arena := Arena.reset
    code := State.reset.code }

/-- `s` with the fields that RLE compression may write at one fixed value: `STATUS`, `PHASE`, the two counters, the streams,
the host's answers, `RUNVAL`, `RUNCNT`, `RUNVALID` (R201). -/
def hideRleEnc (s : State) : State :=
  { s with
    status := statusStarted
    phase := .idle
    inCount := 0
    outCount := 0
    input := []
    inPos := 0
    output := []
    answers := []
    runVal := 0
    runCnt := 0
    runValid := false }

/-- `s` with the fields that RLE decompression may write at one fixed value: it uses no datapath register (R210). -/
def hideRleDec (s : State) : State :=
  { s with
    status := statusStarted
    phase := .idle
    inCount := 0
    outCount := 0
    input := []
    inPos := 0
    output := []
    answers := [] }

/-- `s` with the fields that Huffman compression may write at one fixed value (R302, R304, R333, R381, R460, R516). -/
def hideHufEnc (s : State) : State :=
  { s with
    status := statusStarted
    phase := .idle
    inCount := 0
    outCount := 0
    origSize := 0
    nsym := 0
    input := []
    inPos := 0
    output := []
    answers := []
    total := 0
    n := 0
    remain := 0
    acc := 0
    bitCnt := 0
    freq := State.reset.freq
    arena := Arena.reset
    code := State.reset.code }

/-- `s` with the fields that Huffman decompression may write at one fixed value (R416 to R418, R333, R470). -/
def hideHufDec (s : State) : State :=
  { s with
    status := statusStarted
    phase := .idle
    inCount := 0
    outCount := 0
    origSize := 0
    nsym := 0
    input := []
    inPos := 0
    output := []
    answers := []
    n := 0
    nsRaw := 0
    cur := none
    decoded := 0
    freq := State.reset.freq
    arena := Arena.reset }

/-! The invariants. -/

/-- `BUSY = 1` exactly when `PHASE ≠ IDLE` (R51); `BUSY` and `DONE` never hold together, `ERR` is 0 while `BUSY = 1` and at
most 9 always (R33, R600). -/
def StatusInv (s : State) : Prop :=
  (s.status.busy = true ↔ s.phase ≠ .idle) ∧ ¬(s.status.busy = true ∧ s.status.done = true) ∧
    (s.status.busy = true → s.status.err = 0) ∧ s.status.err.toNat ≤ 9

/-- What has a range narrower than its type keeps to it: `0 <= p <= |S|` (R101), `NSYM` and `N` at most 256 (R37, R39), `HSIZE`
at most 256 and `NNODES` at most 511 (R39, R255, R336). -/
def RangeInv (s : State) : Prop :=
  s.inPos ≤ s.input.length ∧ s.nsym.toNat ≤ 256 ∧ s.n.toNat ≤ 256 ∧ s.arena.hsize ≤ 256 ∧ s.arena.nnodes ≤ 511

/-- In `RLE_ENC`, an open run that is being read has a length in [1, 254], and a pair that is being written has a count in
[1, 255] (R203). -/
def RunInv (s : State) : Prop :=
  match s.phase with
  | .rleEnc .read => s.runValid = true → 1 ≤ s.runCnt.toNat ∧ s.runCnt.toNat ≤ 254
  | .rleEnc (.count _) => 1 ≤ s.runCnt.toNat
  | .rleEnc (.value _) => 1 ≤ s.runCnt.toNat
  | _ => True

/-- The packer invariant (R39, R463): `BITCNT` is at most 8; between `PackBit` calls `BITCNT <= 7` and `ACC < 2^BITCNT`; while a
full accumulator is written `BITCNT = 8`. -/
def PackerInv (s : State) : Prop :=
  s.bitCnt ≤ 8 ∧
  match s.phase with
  | .hufPass2 .read => s.bitCnt ≤ 7 ∧ s.acc.toNat < 2 ^ s.bitCnt
  | .hufPass2 (.flush _) => s.bitCnt = 8
  | .hufFlush => 1 ≤ s.bitCnt ∧ s.bitCnt ≤ 7 ∧ s.acc.toNat < 2 ^ s.bitCnt
  | _ => True

/-- While the body is walked, `DECODED` has not reached `ORIG_SIZE` (R471). -/
def DecodedInv (s : State) : Prop :=
  match s.phase with
  | .hufHdrR _ => True
  | .hufTabR _ _ => s.origSize ≠ 0
  | .hufBody _ => s.decoded < s.origSize
  | _ => True

/-- The sum of the frequency table, as a number. -/
def freqSum (freq : Vector Word 256) : Nat := (freq.toList.map BitVec.toNat).sum

/-- In `CMP.HUF`, from its start to its end, the frequencies sum to `TOTAL` (R305). -/
def FreqInv (s : State) : Prop :=
  phaseCommand s.phase = some .cmpHuf → freqSum s.freq = s.total.toNat

/-! What the two codecs compute, as functions of the input bytes. -/

/-- The maximal runs of equal bytes, in order, each with its length (R204). -/
def runsOf : List Byte → List (Byte × Nat)
  | [] => []
  | b :: rest =>
    match runsOf rest with
    | [] => [(b, 1)]
    | (c, k) :: more => if b = c then (c, k + 1) :: more else (b, 1) :: (c, k) :: more

/-- The pairs of one maximal run of `k` bytes `v` (R204): `floor(k/255)` pairs `(255, v)`, then `(k mod 255, v)` unless that
count is 0. -/
def runPairs (v : Byte) (k : Nat) : List Byte :=
  (List.replicate (k / 255) [255#8, v]).flatten ++ (if k % 255 = 0 then [] else [BitVec.ofNat 8 (k % 255), v])

/-- The RLE stream of `S` (R166, R204). -/
def rleStream (bytes : List Byte) : List Byte := (runsOf bytes).flatMap fun r => runPairs r.1 r.2

/-- The bytes that the pairs of an RLE stream stand for (R166, R210); a trailing count byte stands for none. -/
def rleBytes : List Byte → List Byte
  | c :: v :: rest => List.replicate c.toNat v ++ rleBytes rest
  | [_] => []
  | [] => []

/-- The frequency table of an input: `FREQ[s]` is the number of its bytes `s` (R302, R305). -/
def frequencies (bytes : List Byte) : Vector Word 256 :=
  Vector.ofFn fun k : Fin 256 => BitVec.ofNat 32 (bytes.count (BitVec.ofNat 8 k.val))

/-- The code table of a frequency table (R333, R381). By R338 the arena that `BuildTree` starts from does not matter. -/
def codesOf (freq : Vector Word 256) : Vector CodeEntry 256 :=
  match buildTree freq Arena.reset with
  | some a => genCodes a
  | none => Vector.replicate 256 ⟨0, 0⟩

/-- The code bits of an input in order (R163, R465). -/
def bodyBits (code : Vector CodeEntry 256) (bytes : List Byte) : List Bool :=
  bytes.flatMap fun b => codeBits (entryAt code b)

/-- Up to eight bits as a byte, the first bit in bit 7, missing bits 0 (R112). -/
def byteOfBits (bits : List Bool) : Byte :=
  (List.range 8).foldl (fun v j => v <<< 1 ||| (BitVec.ofBool (bits.getD j false)).setWidth 8) 0

/-- A bit string cut into bytes, first bit first, the last byte padded with zeros (R163, R465). -/
def packedBytes (bits : List Bool) : List Byte :=
  (List.range ((bits.length + 7) / 8)).map fun k => byteOfBits (bits.drop (8 * k))

/-- The container of an input (R160 to R164, R412). -/
def container (magic : Vector Byte 4) (bytes : List Byte) : List Byte :=
  headerBytes magic (BitVec.ofNat 9 (distinctCount (frequencies bytes))) (BitVec.ofNat 64 bytes.length) ++
    (if bytes = [] then []
     else tableBytes (frequencies bytes) ++ packedBytes (bodyBits (codesOf (frequencies bytes)) bytes))

/-- No byte value occurs more than `2^32 - 1` times (the premise of R519). -/
def CountsFit (bytes : List Byte) : Prop := ∀ b, bytes.count b < 2 ^ 32

/-- The number that bytes stand for, least significant byte first (R10, R113). -/
def leValue : List Byte → Nat
  | [] => 0
  | b :: rest => b.toNat + 256 * leValue rest

/-- The number of byte values below `s` that occur in an input: the index of the table entry of `s` (R162). -/
def presentBelow (bytes : List Byte) (s : Byte) : Nat :=
  (List.range s.toNat).countP fun c => decide (0 < bytes.count (BitVec.ofNat 8 c))

/-! The heap and the tree. -/

/-- The valid entries of the heap (R47). -/
def heapEntries (a : Arena) : List NodeId := a.heap.toList.take a.hsize

/-- The heap property (R256): no child's key is less than its parent's. -/
def HeapOrdered (a : Arena) : Prop :=
  ∀ i, 0 < i → i < a.hsize → (heapKey a (heapParent i)).toNat ≤ (heapKey a i).toNat

/-- The index `j` levels above `i` in the heap, by R250's `(i - 1) div 2`. -/
def ancestor : Nat → Nat → Nat
  | 0, i => i
  | j + 1, i => (ancestor j i - 1) / 2

/-- `b` is `a` after the handle `h` has climbed from index `i` (R253): past every ancestor of strictly greater key, up to the
first one that is not, so an equal one stops it (R257); those ancestors stand one level lower, and every other index is as
before. -/
def Climbed (a : Arena) (h : NodeId) (i : Nat) (b : Arena) : Prop :=
  ∃ m, (∀ j, j < m → 0 < ancestor j i ∧ (nodeKey a h).toNat < (heapKey a (ancestor (j + 1) i)).toNat) ∧
    (0 < ancestor m i → (heapKey a (ancestor (m + 1) i)).toNat ≤ (nodeKey a h).toNat) ∧
    heapAt b (ancestor m i) = h ∧
    (∀ j, j < m → heapAt b (ancestor j i) = heapAt a (ancestor (j + 1) i)) ∧
    ∀ k, (∀ j, j ≤ m → k ≠ ancestor j i) → heapAt b k = heapAt a k

/-- The child that a descent among `n` entries looks at (R254): `2i + 2` only if it is present and strictly smaller, so on
equal keys the left one, `2i + 1` (R257). -/
def leastChild (a : Arena) (n i : Nat) : Nat :=
  if 2 * i + 2 < n ∧ (heapKey a (2 * i + 2)).toNat < (heapKey a (2 * i + 1)).toNat then 2 * i + 2 else 2 * i + 1

/-- The index `j` levels below `i` along those children. -/
def descent (a : Arena) (n : Nat) : Nat → Nat → Nat
  | 0, i => i
  | j + 1, i => leastChild a n (descent a n j i)

/-- `b` is `a` after the handle `h` has sunk from index `i` among `n` entries (R254): past every child looked at of strictly
smaller key, down to the first one that is not, so an equal one stops it (R257); those children stand one level higher, and
every other index is as before. -/
def Sunk (a : Arena) (h : NodeId) (n i : Nat) (b : Arena) : Prop :=
  ∃ m, (∀ j, j < m → 2 * descent a n j i + 1 < n ∧
      (heapKey a (descent a n (j + 1) i)).toNat < (nodeKey a h).toNat) ∧
    (2 * descent a n m i + 1 < n → (nodeKey a h).toNat ≤ (heapKey a (descent a n (m + 1) i)).toNat) ∧
    heapAt b (descent a n m i) = h ∧
    (∀ j, j < m → heapAt b (descent a n j i) = heapAt a (descent a n (j + 1) i)) ∧
    ∀ k, (∀ j, j ≤ m → k ≠ descent a n j i) → heapAt b k = heapAt a k

/-- Two arenas hold the same tree: `NNODES`, `ROOT` and the allocated nodes agree (R338). -/
def SameTree (a b : Arena) : Prop :=
  a.nnodes = b.nnodes ∧ a.root = b.root ∧ ∀ h : NodeId, h.val < a.nnodes → a.node[h] = b.node[h]

/-- A node is reached from a handle by descents to children (R339). -/
inductive Reached (node : Vector Node 511) : Handle → NodeId → Prop where
  | here (h : NodeId) : Reached node (some h) h
  | left (h x : NodeId) : Reached node (node[h]).left x → Reached node (some h) x
  | right (h x : NodeId) : Reached node (node[h]).right x → Reached node (some h) x

/-- The `k` low bits of a byte, the highest of them first (R112, R470). -/
def bitsBelow (byte : Byte) (k : Nat) : List Bool := (List.range k).map fun j => byte.getLsbD (k - 1 - j)

/-- The child that a bit leads to (R470): right on 1, left on 0. -/
def branch (node : Vector Node 511) (h : NodeId) (bit : Bool) : Handle :=
  if bit = true then (node[h]).right else (node[h]).left

/-- The bits lead from `x` to `z`, and every node they enter is internal (R470). -/
def Through (node : Vector Node 511) : NodeId → List Bool → NodeId → Prop
  | x, [], z => x = z
  | x, bit :: rest, z => ∃ y, branch node x bit = some y ∧ (node[y]).kind = .internal ∧ Through node y rest z

/-- The weight `2^(255 - len)` of a code, 0 for no code: the terms of Kraft's sum (R383) scaled by `2^255`. -/
def codeWeight (c : CodeEntry) : Nat := if c.len = 0 then 0 else 2 ^ (255 - c.len.toNat)

/-- Kraft's sum over a code table, scaled by `2^255` (R383). -/
def kraftSum (code : Vector CodeEntry 256) : Nat := (code.toList.map codeWeight).sum

end Sys2Proof.Machine
end

