-- ==== Sys2Proof/Certificates/Slice0/Obligations.lean ====
section
/-! DEFINITION. The statements for the provers. Each says in its docstring which rule of spec/ it formalises; the list with titles and quotes is OBLIGATIONS.json. -/

open Sys2Proof Sys2Proof.Machine

/-! ## Decoding -/

/-- V-CMD-1 to V-CMD-8 (95_test_vectors.md): the command words, and words that are none. -/
def Obligations.VectorWordsDecode : Prop :=
  decode 0x00000000#32 = .cmpRle ∧ decode 0x00000001#32 = .dcmpRle ∧ decode 0x00000100#32 = .cmpHuf ∧
    decode 0x00000101#32 = .dcmpHuf ∧ decode 0x00000200#32 = .invalid 0x00000200#32 ∧
    decode 0x00000102#32 = .invalid 0x00000102#32 ∧ decode 0x80000100#32 = .invalid 0x80000100#32 ∧
    decode 0x000001FF#32 = .invalid 0x000001FF#32

/-- R150, R151: no bit of the encoding is dropped, in either direction. -/
def Obligations.EncodeAndDecodeAreInverse : Prop :=
  (∀ i : Instr, i.wf = true → decode (encode i) = i) ∧ ∀ w : Word, (decode w).wf = true ∧ encode (decode w) = w

/-- R150, R151, R152: the table of the command encodings. Every word decodes to exactly one command, and it is invalid exactly
when a reserved bit is set or `ALG` is neither 0x00 nor 0x01. -/
def Obligations.EachCommandHasOneWord : Prop :=
  ∀ w : Word, (decode w = .cmpRle ↔ w = 0x00000000#32) ∧ (decode w = .dcmpRle ↔ w = 0x00000001#32) ∧
    (decode w = .cmpHuf ↔ w = 0x00000100#32) ∧ (decode w = .dcmpHuf ↔ w = 0x00000101#32) ∧
    (∀ v, (decode w = .invalid v ↔
      v = w ∧ w ≠ 0x00000000#32 ∧ w ≠ 0x00000001#32 ∧ w ≠ 0x00000100#32 ∧ w ≠ 0x00000101#32)) ∧
    (decode w = .invalid w ↔
      ((∃ k, 16 ≤ k ∧ k ≤ 31 ∧ w.getLsbD k = true) ∨ (∃ k, 1 ≤ k ∧ k ≤ 7 ∧ w.getLsbD k = true) ∨
        2 ≤ (w.toNat / 256) % 256))

/-! ## The step -/

/-- R30, R720: when the engine moves, the step is the running command's meaning, with the turn used up. -/
def Obligations.StepRunsTheRunningCommand : Prop :=
  ∀ (s : State) (i : Instr), phaseCommand s.phase = some i → nextAgent s = .engine →
    step s = exec i { s with turns := s.turns.tail }

/-- R510, R511: when the host moves and writes `v` to `CMD` while `BUSY = 0`, the step is the start of the command that `v`
decodes to. The second clause is about the model's own `withFetchWord`, which stands for the host (DESIGN CHOICE, log 6): it
forces `BUSY` to 0 and `PHASE` to `IDLE` and makes exactly that start the next step. -/
def Obligations.StepStartsTheWrittenCommand : Prop :=
  (∀ (s : State) (v : Word) (rest : List HostOp), nextAgent s = .host →
    s.program = .memWrite (.offset 0x00) 4 v :: rest → s.status.busy = false →
    step s = exec (decode v) (startCommand v { s with program := rest, turns := s.turns.tail })) ∧
  ∀ (s : State) (w : Nat) (i : Instr), w < 2 ^ 32 → decodeTableWord 32 w = some i →
    step (s.withFetchWord 32 w) =
      exec i (startCommand (BitVec.ofNat 32 w) { s with status := { s.status with busy := false }, phase := .idle })

/-- R710: a write to `CMD` while busy changes no register. -/
def Obligations.BusyCommandWriteIsIgnored : Prop :=
  ∀ (s : State) (v : Word) (rest : List HostOp), nextAgent s = .host →
    s.program = .memWrite (.offset 0x00) 4 v :: rest → s.status.busy = true →
    step s = .next { s with program := rest, turns := s.turns.tail }

/-- R38: reserved offsets read 0 and ignore writes, and so do the read-only registers. -/
def Obligations.ReservedAndReadOnlyOffsets : Prop :=
  ∀ (s : State) (o : Nat) (v : Word) (rest : List HostOp), nextAgent s = .host → o % 4 = 0 → 0 < o → o ≤ 0x3C →
    (s.program = .memWrite (.offset o) 4 v :: rest →
      step s = .next { s with program := rest, turns := s.turns.tail }) ∧
    (0x24 ≤ o → s.program = .memRead (.offset o) 4 :: rest →
      step s = .next { s with program := rest, turns := s.turns.tail, reads := s.reads ++ [0#32] })

/-- R31, R32, R114: what a read of each register of the window returns, the 64-bit counters low half first. A read changes
nothing else (R110). -/
def Obligations.WindowReadsReturnTheRegisters : Prop :=
  ∀ (s : State) (o : Nat) (rest : List HostOp), nextAgent s = .host → o % 4 = 0 → o ≤ 0x20 →
    s.program = .memRead (.offset o) 4 :: rest →
    ∃ v : Word, step s = .next { s with program := rest, turns := s.turns.tail, reads := s.reads ++ [v] } ∧
      (o = 0x00 → v = s.cmd) ∧ (o = 0x04 → v = statusWord s.status) ∧
      (o = 0x08 → v.toNat = s.inCount.toNat % 2 ^ 32) ∧ (o = 0x0C → v.toNat = s.inCount.toNat / 2 ^ 32) ∧
      (o = 0x10 → v.toNat = s.outCount.toNat % 2 ^ 32) ∧ (o = 0x14 → v.toNat = s.outCount.toNat / 2 ^ 32) ∧
      (o = 0x18 → v.toNat = s.origSize.toNat % 2 ^ 32) ∧ (o = 0x1C → v.toNat = s.origSize.toNat / 2 ^ 32) ∧
      (o = 0x20 → v.toNat = s.nsym.toNat)

/-- R33: the layout of `STATUS`, reserved bits 0. -/
def Obligations.StatusWordLayout : Prop :=
  ∀ t : Status, (statusWord t).getLsbD 0 = t.busy ∧ (statusWord t).getLsbD 1 = t.done ∧
    (∀ k, 8 ≤ k → k ≤ 15 → (statusWord t).getLsbD k = t.err.getLsbD (k - 8)) ∧
    ∀ k, (2 ≤ k ∧ k ≤ 7) ∨ 16 ≤ k → (statusWord t).getLsbD k = false

/-- R110, R111 (S1): an access that is not an aligned 32-bit word of the window is refused, and so is an address outside the
window. Inside it, the window stands at `HCE_BASE` of the host's address space, for every value of that parameter. -/
def Obligations.UndefinedAccessesAreRefused : Prop :=
  (∀ (s : State) (o size : Nat) (v : Word) (rest : List HostOp) (op : HostOp), nextAgent s = .host →
    s.program = op :: rest →
    (¬(size = 4 ∧ o % 4 = 0 ∧ o ≤ 0x3C) → (op = .memRead (.offset o) size ∨ op = .memWrite (.offset o) size v) →
      step s = .refused .badAccess) ∧
    (¬(Config.hceBase ≤ o ∧ o < Config.hceBase + 64) →
      (op = .memRead (.platform o) size ∨ op = .memWrite (.platform o) size v) → step s = .refused .outsideWindow)) ∧
  ∀ (s : State) (o size : Nat) (v : Word), o < 64 →
    runHostOp (.memRead (.platform (Config.hceBase + o)) size) s = runHostOp (.memRead (.offset o) size) s ∧
    runHostOp (.memWrite (.platform (Config.hceBase + o)) size v) s = runHostOp (.memWrite (.offset o) size v) s

/-- R703 step 2, R154, R711 (S11): between commands the host binds and rewinds the streams, and nothing else changes; while
`BUSY = 1` the model refuses it. -/
def Obligations.StreamBindingsOnlyBetweenCommands : Prop :=
  ∀ (s : State) (bytes : List Byte) (rest : List HostOp), nextAgent s = .host →
    (s.program = .bindIn bytes :: rest → step s =
      if s.status.busy then .refused .streamBusy
      else .next { s with program := rest, turns := s.turns.tail, input := bytes, inPos := 0 }) ∧
    (s.program = .bindOut bytes :: rest → step s =
      if s.status.busy then .refused .streamBusy
      else .next { s with program := rest, turns := s.turns.tail, output := bytes }) ∧
    (s.program = .rewindIn :: rest → step s =
      if s.status.busy then .refused .streamBusy
      else .next { s with program := rest, turns := s.turns.tail, inPos := 0 }) ∧
    (s.program = .rewindOut :: rest → step s =
      if s.status.busy then .refused .streamBusy
      else .next { s with program := rest, turns := s.turns.tail, input := s.output, inPos := 0 })

/-- R106 (S12): without an answer the engine has no step. If the host does nothing more the machine is stuck, which the model
shows as a fault (DESIGN CHOICE, log 10); otherwise the
host moves. -/
def Obligations.UnansweredTransactionBlocksTheEngine : Prop :=
  ∀ (s : State) (i : Instr), phaseCommand s.phase = some i → s.answers = [] → s.serves = false →
    exec i s = .fault .unanswered ∧ (s.program = [] → step s = .fault .unanswered) ∧
      (s.program ≠ [] → step s = hostMove { s with turns := s.turns.tail })

/-- R617: in `IDLE` the engine does nothing until the host writes. -/
def Obligations.IdleEngineDoesNothing : Prop :=
  ∀ s : State, s.phase = .idle → s.program = [] → step s = .next { s with turns := s.turns.tail }

/-! ## Reset -/

/-- R52: the reset values that the spec gives. -/
def Obligations.ResetValues : Prop :=
  State.reset.cmd = 0 ∧ statusWord State.reset.status = 0 ∧ State.reset.inCount = 0 ∧ State.reset.outCount = 0 ∧
    State.reset.origSize = 0 ∧ State.reset.nsym = 0 ∧ State.reset.phase = .idle

/-- R700: the reset input abandons a running command with no status, gives every register its reset value, and leaves the
streams: what `OUT` accepted stays, and only the byte of a write in flight may be added. R700 says no more of the position
than that it is the host's: that it stays unless a read or a rewind was in flight, and that the reset event carries the draws
`pos` and `kept`, is the model's own (DEDUCED, log 8). -/
def Obligations.ResetInputAbandonsTheCommand : Prop :=
  ∀ (s : State) (pos : Nat) (kept : Bool) (rest : List HostOp), nextAgent s = .host →
    s.program = .reset pos kept :: rest →
    ∃ t, step s = .next t ∧ t.cmd = 0 ∧ statusWord t.status = 0 ∧ t.inCount = 0 ∧ t.outCount = 0 ∧ t.origSize = 0 ∧
      t.nsym = 0 ∧ t.phase = .idle ∧ t.program = rest ∧ t.input = s.input ∧
      (t.output = s.output ∨ ∃ b, kept = true ∧ inFlight s = .write b ∧ t.output = s.output ++ [b]) ∧
      (inFlight s ≠ .read → inFlight s ≠ .rewind → t.inPos = s.inPos)

/-! ## The start of a command and its transactions -/

/-- R518: an invalid word ends with `InvalidAlgorithm` in its start step, with no stream transaction, and `CMD` keeps it. -/
def Obligations.InvalidWordRaisesInvalidAlgorithm : Prop :=
  ∀ (s : State) (v : Word), s.phase = .idle → decode v = .invalid v →
    exec (.invalid v) (startCommand v s) =
      .next { s with cmd := v, status := ⟨false, true, 1⟩, inCount := 0, outCount := 0, origSize := 0, nsym := 0 } ∧
    statusWord ⟨false, true, 1⟩ = 0x00000102#32

/-- R510 and the first statements of R512, R513, R514 (R301, R302), R517: the start step of each command, exactly. -/
def Obligations.StartStepOfEachCommand : Prop :=
  ∀ (s : State) (v : Word), s.phase = .idle →
    exec .cmpRle (startCommand v s) =
      .next { startCommand v s with phase := .rleEnc .read, runValid := false } ∧
    exec .dcmpRle (startCommand v s) = .next { startCommand v s with phase := .rleDec .count } ∧
    exec .cmpHuf (startCommand v s) =
      .next { startCommand v s with phase := .hufPass1, freq := Vector.replicate 256 0, total := 0 } ∧
    exec .dcmpHuf (startCommand v s) = .next { startCommand v s with phase := .hufHdrR [] } ∧
    startCommand v s =
      { s with cmd := v, status := ⟨true, false, 0⟩, inCount := 0, outCount := 0, origSize := 0, nsym := 0 }

/-- R255, R336, R720: from `IDLE`, and in its own phases whenever the host answers, every command has a next state: no
fault, no refusal. -/
def Obligations.EveryCommandStepHasANextState : Prop :=
  ∀ (i : Instr) (s : State), (s.phase = .idle ∨ (phaseCommand s.phase = some i ∧ (takeAnswer s).isSome)) →
    ∃ t, exec i s = .next t

/-- R30, R101 to R103, R34, R35: a step of a running command is exactly the one transaction in flight, with the effect that
the host's answer has on the streams and the counters. R101 to R103 leave open the position after an `Err` and whether the
byte of the write landed: that they are `min pos |S|` and `kept` of the answer is the model's own (DEDUCED, log 9). -/
def Obligations.OneTransactionPerEngineStep : Prop :=
  ∀ (i : Instr) (s s1 t : State) (a : Answer), phaseCommand s.phase = some i → takeAnswer s = some (a, s1) →
    exec i s = .next t →
    t.answers = s1.answers ∧
    match inFlight s, a with
    | .nothing, _ => False
    | .read, .err pos _ =>
      t.inPos = min pos s.input.length ∧ t.inCount = s.inCount ∧ t.input = s.input ∧ t.output = s.output ∧
        t.outCount = s.outCount
    | .read, _ =>
      t.input = s.input ∧ t.output = s.output ∧ t.outCount = s.outCount ∧
        (s.inPos < s.input.length → t.inPos = s.inPos + 1 ∧ t.inCount = s.inCount + 1) ∧
        (s.input.length ≤ s.inPos → t.inPos = s.inPos ∧ t.inCount = s.inCount)
    | .rewind, .err pos _ =>
      t.inPos = min pos s.input.length ∧ t.inCount = s.inCount ∧ t.input = s.input ∧ t.output = s.output ∧
        t.outCount = s.outCount
    | .rewind, .ok =>
      t.inPos = 0 ∧ t.inCount = s.inCount ∧ t.input = s.input ∧ t.output = s.output ∧ t.outCount = s.outCount
    | .rewind, .okChanged bytes =>
      t.inPos = 0 ∧ t.inCount = s.inCount ∧ t.input = bytes ∧ t.output = s.output ∧ t.outCount = s.outCount
    | .write b, .err _ kept =>
      t.output = (if kept then s.output ++ [b] else s.output) ∧ t.outCount = s.outCount ∧ t.input = s.input ∧
        t.inPos = s.inPos ∧ t.inCount = s.inCount
    | .write b, _ =>
      t.output = s.output ++ [b] ∧ t.outCount = s.outCount + 1 ∧ t.input = s.input ∧ t.inPos = s.inPos ∧
        t.inCount = s.inCount

/-- R606 (b), R604, R600: an `Err` answer always gives `IOFailure`, in every phase, and nothing else changes but what the
host does to the streams. What it does there, `withdraw pos kept` (the position `min pos |S|` after a read or a rewind, the
byte of a write added or not), is the model's own (DEDUCED, logs 8 and 9): R101 to R103 leave it open. -/
def Obligations.ErrAnswerAlwaysRaisesIoFailure : Prop :=
  ∀ (i : Instr) (s : State) (pos : Nat) (kept : Bool) (rest : List Answer), phaseCommand s.phase = some i →
    s.answers = .err pos kept :: rest →
    exec i s =
      .next { withdraw pos kept s with answers := rest, status := ⟨false, true, 5⟩, phase := .idle }

/-- R606 (c), R600, R604, R605: what an `Eof` gives in each reading phase: the error its rule names, by its number in
`STATUS.ERR` (`CorruptFormat` 6, `InputMismatch` 9, `CorruptHeader` 2, `CorruptFrequencyTable` 3, `TruncatedBody` 4), or the
normal end of the loop. Nothing else changes where the command ends. -/
def Obligations.EofGivesTheErrorOfThePhase : Prop :=
  ∀ (s s1 : State), takeAnswer s = some (.ok, s1) → s.input.length ≤ s.inPos →
    (s.phase = .rleEnc .read → s.runValid = false →
      exec .cmpRle s = .next { s1 with status := ⟨false, true, 0⟩, phase := .idle }) ∧
    (s.phase = .rleEnc .read → s.runValid = true → exec .cmpRle s = .next { s1 with phase := .rleEnc (.count .atEof) }) ∧
    (s.phase = .rleDec .count → exec .dcmpRle s = .next { s1 with status := ⟨false, true, 0⟩, phase := .idle }) ∧
    (∀ c, s.phase = .rleDec (.value c) →
      exec .dcmpRle s = .next { s1 with status := ⟨false, true, 6⟩, phase := .idle }) ∧
    (s.phase = .hufPass1 → ∃ t b bytes, exec .cmpHuf s = .next t ∧ t.phase = .hufHdrW b bytes ∧ t.status = s.status ∧
      t.origSize = s.total) ∧
    (s.phase = .hufPass2 .read → exec .cmpHuf s = .next { s1 with status := ⟨false, true, 9⟩, phase := .idle }) ∧
    (∀ got, s.phase = .hufHdrR got → exec .dcmpHuf s = .next { s1 with status := ⟨false, true, 2⟩, phase := .idle }) ∧
    (∀ left got, s.phase = .hufTabR left got →
      exec .dcmpHuf s = .next { s1 with status := ⟨false, true, 3⟩, phase := .idle }) ∧
    (s.phase = .hufBody .read → exec .dcmpHuf s = .next { s1 with status := ⟨false, true, 4⟩, phase := .idle }) ∧
    statusWord ⟨false, true, 4⟩ = 0x00000402#32

/-- R601: the codes each command can end with, from whatever state it ends. -/
def Obligations.CodesEachCommandCanEndWith : Prop :=
  ∀ (i : Instr) (s t : State), (s.phase = .idle ∨ phaseCommand s.phase = some i) → exec i s = .next t →
    t.phase = .idle →
    t.status.busy = false ∧ t.status.done = true ∧
    match i with
    | .cmpRle => t.status.err ∈ [0, 5]
    | .dcmpRle => t.status.err ∈ [0, 5, 6]
    | .cmpHuf => t.status.err ∈ [0, 5, 8, 9]
    | .dcmpHuf => t.status.err ∈ [0, 2, 3, 4, 5, 7]
    | .invalid _ => t.status.err = 1

/-- R125, R521, R30: no command changes `CMD`, the host's own side, or a byte that `OUT` already holds. -/
def Obligations.CommandsLeaveTheHostSide : Prop :=
  ∀ (i : Instr) (s t : State), exec i s = .next t →
    t.cmd = s.cmd ∧ t.program = s.program ∧ t.turns = s.turns ∧ t.reads = s.reads ∧ t.serves = s.serves ∧
      s.output <+: t.output

/-- R201, R210: the frame of the RLE commands. They change no register but those their rules name, and no byte of `IN`. -/
def Obligations.RleCommandsFrame : Prop :=
  ∀ s t : State,
    (exec .cmpRle s = .next t → hideRleEnc t = hideRleEnc s ∧ t.input = s.input) ∧
    (exec .dcmpRle s = .next t → hideRleDec t = hideRleDec s ∧ t.input = s.input)

/-- R302, R304, R333, R381, R460, R516 and R416 to R419, R470: the frame of the Huffman commands. `FREQ` is written only at
the start of `CMP.HUF`, by the bytes of pass 1, at the end of the header read and by the fifth byte of each table entry; the
tree only at the end of pass 1 and of the table read; `CODE` only at the end of pass 1. The last two clauses say how the table
read fills `FREQ`: the bytes of an entry are gathered in order, and the fifth one stores the entry's little-endian frequency
(R10) at its symbol, whatever stood there (R419 (b)), and changes no other entry. -/
def Obligations.HuffmanCommandsFrame : Prop :=
  ∀ s t : State,
    (exec .cmpHuf s = .next t → hideHufEnc t = hideHufEnc s ∧
      (s.phase ≠ .idle → s.phase ≠ .hufPass1 →
        t.freq = s.freq ∧ t.arena = s.arena ∧ t.code = s.code ∧ t.total = s.total ∧ t.origSize = s.origSize ∧
          t.n = s.n ∧ t.nsym = s.nsym) ∧
      ((s.phase = .idle ∨ (s.phase = .hufPass1 ∧ s.inPos < s.input.length)) →
        t.arena = s.arena ∧ t.code = s.code ∧ t.origSize = s.origSize ∧ t.n = s.n ∧ t.nsym = s.nsym) ∧
      (s.phase = .hufPass1 → s.input.length ≤ s.inPos → t.freq = s.freq ∧ t.total = s.total) ∧
      (s.phase ≠ .hufRewind → t.input = s.input)) ∧
    (exec .dcmpHuf s = .next t → hideHufDec t = hideHufDec s ∧ t.input = s.input ∧
      (s.phase = .idle → t.freq = s.freq ∧ t.arena = s.arena) ∧
      (∀ got, s.phase = .hufHdrR got → t.arena = s.arena ∧
        (got.length ≠ 12 → t.freq = s.freq ∧ t.origSize = s.origSize ∧ t.n = s.n ∧ t.nsym = s.nsym) ∧
        (t.freq = s.freq ∨ (t.freq = Vector.replicate 256 0 ∧ ∃ left, t.phase = .hufTabR left []))) ∧
      (∀ left got, s.phase = .hufTabR left got →
        t.origSize = s.origSize ∧ t.n = s.n ∧ t.nsym = s.nsym ∧ t.nsRaw = s.nsRaw ∧
          (got.length < 4 → t.freq = s.freq) ∧ (got.length < 4 ∨ 1 < left → t.arena = s.arena)) ∧
      (∀ p, s.phase = .hufBody p →
        t.freq = s.freq ∧ t.arena = s.arena ∧ t.origSize = s.origSize ∧ t.n = s.n ∧ t.nsym = s.nsym ∧
          t.nsRaw = s.nsRaw) ∧
      (∀ s1 left got b, s.phase = .hufTabR left got → got.length < 4 → takeAnswer s = some (.ok, s1) →
        s.input[s.inPos]? = some b → t.phase = .hufTabR left (got ++ [b])) ∧
      (∀ s1 left sym f0 f1 f2 f3, s.phase = .hufTabR left [sym, f0, f1, f2] → takeAnswer s = some (.ok, s1) →
        s.input[s.inPos]? = some f3 →
        (entryAt t.freq sym).toNat = leValue [f0, f1, f2, f3] ∧ (∀ c, c ≠ sym → entryAt t.freq c = entryAt s.freq c) ∧
          (1 < left → t.phase = .hufTabR (left - 1) [])))

/-- R303: the read that would take a count past 0xFFFFFFFF raises `FrequencyOverflow`; any other read counts the byte. -/
def Obligations.FrequencyNeverWraps : Prop :=
  ∀ (s s1 : State) (b : Byte), s.phase = .hufPass1 → takeAnswer s = some (.ok, s1) → s.input[s.inPos]? = some b →
    ((entryAt s.freq b).toNat = 0xFFFFFFFF →
      exec .cmpHuf s =
        .next { s1 with inPos := s.inPos + 1, inCount := s.inCount + 1, status := ⟨false, true, 8⟩, phase := .idle }) ∧
    ((entryAt s.freq b).toNat ≠ 0xFFFFFFFF → ∃ t, exec .cmpHuf s = .next t ∧ t.phase = .hufPass1 ∧
      (entryAt t.freq b).toNat = (entryAt s.freq b).toNat + 1 ∧ (∀ c, c ≠ b → entryAt t.freq c = entryAt s.freq c) ∧
      t.total = s.total + 1)

/-- R516, R105: in pass 2 a byte with no code raises `InputMismatch`. -/
def Obligations.UnseenByteRaisesInputMismatch : Prop :=
  ∀ (s s1 : State) (b : Byte), s.phase = .hufPass2 .read → takeAnswer s = some (.ok, s1) →
    s.input[s.inPos]? = some b → (entryAt s.code b).len = 0 →
    exec .cmpHuf s =
      .next { s1 with inPos := s.inPos + 1, inCount := s.inCount + 1, status := ⟨false, true, 9⟩, phase := .idle }

/-- R470, R472, R474: the bit walk of the body. It goes on when a body byte has been read (from `CUR`, over its eight bits), and
when the write of a symbol that is not the last has been answered (from `ROOT`, over the bits of its byte not yet examined).
The first bit that leads to a leaf stops it there with the leaf's symbol in flight and the later bits still to be examined; the
first bit, at any place, that leads to no child raises `CorruptBody` and what was written stays; and where no bit does either,
the next byte is read from the node reached. -/
def Obligations.BodyWalkFollowsTheBits : Prop :=
  ∀ (s s1 u : State) (byte : Byte) (k : Nat) (x : NodeId), takeAnswer s = some (.ok, s1) →
    ((s.phase = .hufBody .read ∧ s.input[s.inPos]? = some byte ∧ k = 8 ∧ s.cur = some x ∧
        u = { s1 with inPos := s.inPos + 1, inCount := s.inCount + 1 }) ∨
      ∃ y, s.phase = .hufBody (.emit byte k) ∧ s.cur = some y ∧ s.arena.root = some x ∧ s.decoded + 1 ≠ s.origSize ∧
        u = { s1 with
          output := s.output ++ [(s.arena.node[y]).sym], outCount := s.outCount + 1, decoded := s.decoded + 1 }) →
    (∀ pre bit post z y, bitsBelow byte k = pre ++ bit :: post → Through s.arena.node x pre z →
      branch s.arena.node z bit = some y → (s.arena.node[y]).kind = .leaf →
      exec .dcmpHuf s = .next { u with cur := some y, phase := .hufBody (.emit byte post.length) } ∧
        inFlight { u with cur := some y, phase := .hufBody (.emit byte post.length) } = .write (s.arena.node[y]).sym) ∧
    (∀ pre bit post z, bitsBelow byte k = pre ++ bit :: post → Through s.arena.node x pre z →
      branch s.arena.node z bit = none →
      exec .dcmpHuf s = .next { u with cur := some z, status := ⟨false, true, 7⟩, phase := .idle }) ∧
    ∀ z, Through s.arena.node x (bitsBelow byte k) z →
      exec .dcmpHuf s = .next { u with cur := some z, phase := .hufBody .read }

/-- R471, R474: the write of a decoded symbol is counted; at `ORIG_SIZE` symbols the command finishes at once, and no further
bit or byte is looked at. -/
def Obligations.BodyStopsAtTheSize : Prop :=
  ∀ (s s1 : State) (byte : Byte) (left : Nat) (x : NodeId), s.phase = .hufBody (.emit byte left) →
    takeAnswer s = some (.ok, s1) → s.cur = some x → s.decoded + 1 = s.origSize →
    exec .dcmpHuf s =
      .next { s1 with
        output := s.output ++ [(s.arena.node[x]).sym], outCount := s.outCount + 1, decoded := s.origSize,
        cur := s.arena.root, status := ⟨false, true, 0⟩, phase := .idle }

/-! ## Invariants that every step keeps -/

/-- The state after reset meets every invariant below. Where an invariant is about a register that R52 leaves unspecified, or
about the streams, this rests on the model's own reset values (DESIGN CHOICE, logs 1 and 2). -/
def Obligations.ResetMeetsTheInvariants : Prop :=
  StatusInv State.reset ∧ RangeInv State.reset ∧ RunInv State.reset ∧ PackerInv State.reset ∧
    DecodedInv State.reset ∧ FreqInv State.reset

/-- R33, R51, R600: the status invariant. -/
def Obligations.StepKeepsStatus : Prop :=
  ∀ s t : State, StatusInv s → step s = .next t → StatusInv t

/-- R101, R37, R39, R255, R336: the read position stays within the input, and the counts within their ranges. -/
def Obligations.StepKeepsRanges : Prop :=
  ∀ s t : State, RangeInv s → step s = .next t → RangeInv t

/-- R203: every pair written has a count in [1, 255]. -/
def Obligations.StepKeepsRunCounts : Prop :=
  ∀ s t : State, StatusInv s → RunInv s → step s = .next t → RunInv t

/-- R463: the packer invariant. -/
def Obligations.StepKeepsThePacker : Prop :=
  ∀ s t : State, StatusInv s → PackerInv s → step s = .next t → PackerInv t

/-- R471: `DECODED` never passes `ORIG_SIZE`. -/
def Obligations.StepKeepsDecodedBelowSize : Prop :=
  ∀ s t : State, StatusInv s → DecodedInv s → step s = .next t → DecodedInv t

/-- R305: the frequencies sum to `TOTAL`. -/
def Obligations.StepKeepsFrequencySum : Prop :=
  ∀ s t : State, StatusInv s → FreqInv s → step s = .next t → FreqInv t

/-- R49: two idle machines that differ only in the datapath registers and the tables are never told apart: the same outcome
after any number of steps, with equal registers, streams, phases and host side. -/
def Obligations.NothingPersistsAcrossCommands : Prop :=
  ∀ (s t : State) (k : Nat), s.phase = .idle → hideTables s = hideTables t →
    match Host.Core.run Sys2Proof.core k s, Host.Core.run Sys2Proof.core k t with
    | .next s', .next t' => hideTables s' = hideTables t'
    | .fault f, .fault g => f = g
    | .refused f, .refused g => f = g
    | _, _ => False

/-! ## The heap and the tree -/

/-- R253, R256, R257: `HeapInsert` adds its handle, keeps the heap property and settles ties: the handle passes every ancestor
of strictly greater key, and an equal one stops it. -/
def Obligations.HeapInsertKeepsTheHeap : Prop :=
  ∀ (a : Arena) (h : NodeId), a.hsize < 256 → HeapOrdered a →
    ∃ a', heapInsert h a = some a' ∧ a'.hsize = a.hsize + 1 ∧ (heapEntries a').Perm (h :: heapEntries a) ∧
      HeapOrdered a' ∧ Climbed a h a.hsize a' ∧ a'.node = a.node ∧ a'.nnodes = a.nnodes ∧ a'.root = a.root

/-- R254, R256, R257: `HeapExtractMin` takes out the root, a handle of least key, keeps the heap property and settles ties:
the last entry sinks from the root, past the left child when the two have equal keys, and an equal child stops it. -/
def Obligations.HeapExtractMinTakesTheLeast : Prop :=
  ∀ a : Arena, 0 < a.hsize → a.hsize ≤ 256 → HeapOrdered a →
    ∃ x a', heapExtractMin a = some (x, a') ∧ x = heapAt a 0 ∧ a'.hsize + 1 = a.hsize ∧
      (heapEntries a).Perm (x :: heapEntries a') ∧ (∀ y ∈ heapEntries a, (nodeKey a x).toNat ≤ (nodeKey a y).toNat) ∧
      HeapOrdered a' ∧ (0 < a'.hsize → Sunk a (heapAt a a'.hsize) a'.hsize 0 a') ∧ a'.node = a.node ∧
      a'.nnodes = a.nnodes ∧ a'.root = a.root

/-- R255, R336: `BuildTree` never overflows or underflows, and allocates `2n - 1` nodes, 2 for one symbol, none for none. -/
def Obligations.BuildTreeNodeCount : Prop :=
  ∀ (freq : Vector Word 256) (a : Arena), ∃ a', buildTree freq a = some a' ∧
    (distinctCount freq = 0 → a'.nnodes = 0 ∧ a'.root = none) ∧ (distinctCount freq = 1 → a'.nnodes = 2) ∧
    (2 ≤ distinctCount freq → a'.nnodes = 2 * distinctCount freq - 1 ∧ a'.nnodes ≤ 511)

/-- R335: one distinct symbol: the leaf, handle 0, is the left child of a synthetic root of the same frequency, and its code
is the one bit `0`. -/
def Obligations.SingleSymbolTree : Prop :=
  ∀ (freq : Vector Word 256) (a : Arena) (s : Byte), entryAt freq s ≠ 0 → (∀ c, c ≠ s → entryAt freq c = 0) →
    ∃ a', buildTree freq a = some a' ∧ a'.root = some 1 ∧
      a'.node[(0 : NodeId)] = ⟨.leaf, s, (entryAt freq s).setWidth 64, none, none⟩ ∧
      a'.node[(1 : NodeId)] = ⟨.internal, 0, (entryAt freq s).setWidth 64, some 0, none⟩ ∧
      codeBits (entryAt (genCodes a') s) = [false]

/-- R332, R337, R339, R46: the tree with two or more symbols: its shape, its leaves (handles 0 to `n - 1` in ascending symbol
order), the sides of its internal nodes (the left child has the lesser frequency), and the merge that makes one of them:
the first handle extracted on the left, the second on the right, whatever their keys, and the new node inserted. -/
def Obligations.TreeShape : Prop :=
  (∀ (freq : Vector Word 256) (a a' : Arena), 2 ≤ distinctCount freq → buildTree freq a = some a' →
    (∀ h : NodeId, h.val < a'.nnodes → (a'.node[h]).kind = .internal →
      ∃ x y : NodeId, (a'.node[h]).left = some x ∧ (a'.node[h]).right = some y ∧ x.val < h.val ∧ y.val < h.val ∧
        (a'.node[h]).freq.toNat = (a'.node[x]).freq.toNat + (a'.node[y]).freq.toNat ∧
        (a'.node[x]).freq.toNat ≤ (a'.node[y]).freq.toNat) ∧
    (∀ h : NodeId, h.val < a'.nnodes → (a'.node[h]).kind = .leaf →
      (a'.node[h]).left = none ∧ (a'.node[h]).right = none ∧ entryAt freq (a'.node[h]).sym ≠ 0 ∧
        (a'.node[h]).freq = (entryAt freq (a'.node[h]).sym).setWidth 64) ∧
    (∀ h : NodeId, h.val < a'.nnodes → ((a'.node[h]).kind = .leaf ↔ h.val < distinctCount freq)) ∧
    (∀ h k : NodeId, h.val < k.val → k.val < distinctCount freq →
      (a'.node[h]).sym.toNat < (a'.node[k]).sym.toNat) ∧
    (∀ s : Byte, entryAt freq s ≠ 0 →
      ∃! h : NodeId, h.val < a'.nnodes ∧ (a'.node[h]).kind = .leaf ∧ (a'.node[h]).sym = s) ∧
    ∀ h : NodeId, h.val < a'.nnodes → Reached a'.node a'.root h) ∧
  ∀ (a a1 a2 : Arena) (x y : NodeId) (h : a.nnodes < 511), a.hsize ≤ 256 → heapExtractMin a = some (x, a1) →
    heapExtractMin a1 = some (y, a2) →
    ∃ b, mergeOnce a = some b ∧
      heapInsert ⟨a.nnodes, h⟩
        { a2 with
          node := a.node.set a.nnodes ⟨.internal, 0, nodeKey a x + nodeKey a y, some x, some y⟩ h
          nnodes := a.nnodes + 1 } = some b

/-- R338: `BuildTree`'s result is a function of `FREQ` alone. -/
def Obligations.BuildTreeDependsOnFrequenciesOnly : Prop :=
  ∀ (freq : Vector Word 256) (a b a' b' : Arena), buildTree freq a = some a' → buildTree freq b = some b' →
    SameTree a' b' ∧ genCodes a' = genCodes b'

/-- R383 (a) to (d): which symbols have codes, their lengths, prefix-freedom, and Kraft's sum (scaled by `2^255`). -/
def Obligations.CodeTableProperties : Prop :=
  ∀ (freq : Vector Word 256) (a a' : Arena), buildTree freq a = some a' →
    (∀ s, (entryAt (genCodes a') s).len ≠ 0 ↔ entryAt freq s ≠ 0) ∧
    (∀ s, entryAt freq s ≠ 0 →
      1 ≤ (entryAt (genCodes a') s).len.toNat ∧ (entryAt (genCodes a') s).len.toNat ≤ 255) ∧
    (∀ s c, s ≠ c → entryAt freq s ≠ 0 → entryAt freq c ≠ 0 →
      ¬ codeBits (entryAt (genCodes a') s) <+: codeBits (entryAt (genCodes a') c)) ∧
    (2 ≤ distinctCount freq → kraftSum (genCodes a') = 2 ^ 255) ∧
    (distinctCount freq = 1 → kraftSum (genCodes a') = 2 ^ 254)

/-! ## The commands, run to their end -/

/-- R512, R201, R204: `CMP.RLE` answers next states until it finishes, having written the run pairs of `IN`. -/
def Obligations.CmpRleWritesTheRunPairs : Prop :=
  ∀ s : State, s.phase = .idle → Honest s → s.inPos = 0 →
    (∃ t0, exec .cmpRle (startCommand 0x00000000#32 s) = .next t0) ∧
    ∃ k t, EndsIn .cmpRle k (startCommand 0x00000000#32 s) t ∧ statusWord t.status = 0x00000002#32 ∧
      t.output = s.output ++ rleStream s.input ∧ t.inCount = BitVec.ofNat 64 s.input.length ∧
      t.outCount = BitVec.ofNat 64 (rleStream s.input).length ∧ t.origSize = 0 ∧ t.nsym = 0 ∧
      t.inPos = s.input.length ∧ t.input = s.input ∧ hideRleEnc t = hideRleEnc (startCommand 0x00000000#32 s)

/-- R204: the laws of the RLE stream: it is cut from the maximal runs, its length, its counts, and equal neighbours only
after a capped pair. -/
def Obligations.RleStreamLaws : Prop :=
  ∀ bytes : List Byte,
    ((runsOf bytes).flatMap fun r => List.replicate r.2 r.1) = bytes ∧ (∀ r ∈ runsOf bytes, 0 < r.2) ∧
    List.IsChain (fun r q => r.1 ≠ q.1) (runsOf bytes) ∧
    (rleStream bytes).length = 2 * ((runsOf bytes).map fun r => (r.2 + 254) / 255).sum ∧
    (∀ k, 2 * k < (rleStream bytes).length → (rleStream bytes)[2 * k]? ≠ some 0) ∧
    ∀ k, 2 * k + 3 < (rleStream bytes).length → (rleStream bytes)[2 * k + 1]? = (rleStream bytes)[2 * k + 3]? →
      (rleStream bytes)[2 * k]? = some 255

/-- R513, R210, R211: `DCMP.RLE` answers next states until it ends, having written the bytes its pairs stand for; an input of
odd length ends with `CorruptFormat`. -/
def Obligations.DcmpRleExpandsThePairs : Prop :=
  ∀ s : State, s.phase = .idle → Honest s → s.inPos = 0 →
    (∃ t0, exec .dcmpRle (startCommand 0x00000001#32 s) = .next t0) ∧
    ∃ k t, EndsIn .dcmpRle k (startCommand 0x00000001#32 s) t ∧
      statusWord t.status = (if s.input.length % 2 = 0 then 0x00000002#32 else 0x00000602#32) ∧
      t.output = s.output ++ rleBytes s.input ∧ t.inCount = BitVec.ofNat 64 s.input.length ∧
      t.outCount = BitVec.ofNat 64 (rleBytes s.input).length ∧ t.origSize = 0 ∧ t.nsym = 0 ∧
      t.inPos = s.input.length ∧ t.input = s.input ∧ hideRleDec t = hideRleDec (startCommand 0x00000001#32 s)

/-- R213: RLE compression writes an even number of bytes, pairs with counts in [1, 255], and decompression gives back every
input. -/
def Obligations.RleRoundTrip : Prop :=
  ∀ s : State, s.phase = .idle → Honest s → s.inPos = 0 → s.output = [] →
    ∃ k t, EndsIn .cmpRle k (startCommand 0x00000000#32 s) t ∧ t.status = statusFinished ∧
      t.output.length % 2 = 0 ∧ (∀ k, 2 * k < t.output.length → t.output[2 * k]? ≠ some 0) ∧
      ∃ j u, EndsIn .dcmpRle j (startCommand 0x00000001#32 { t with input := t.output, inPos := 0, output := [] }) u ∧
        u.status = statusFinished ∧ u.output = s.input

/-- R515: on an empty input `CMP.HUF` writes the 13-byte header alone, without a rewind. -/
def Obligations.EmptyInputGivesTheEmptyContainer : Prop :=
  ∀ s : State, s.phase = .idle → Honest s → s.input = [] →
    ∃ t, EndsIn .cmpHuf 15 (startCommand 0x00000100#32 s) t ∧ statusWord t.status = 0x00000002#32 ∧
      t.output = s.output ++ Config.magic.toList ++ [0, 0, 0, 0, 0, 0, 0, 0, 0] ∧ t.inCount = 0 ∧ t.outCount = 13 ∧
      t.origSize = 0 ∧ t.nsym = 0 ∧ t.inPos = s.inPos

/-- R514, R516, R410 to R412, R465: `CMP.HUF` answers next states until it finishes, having written the container of `IN`.
`ContainerLayout` says what its bytes are. -/
def Obligations.CmpHufWritesTheContainer : Prop :=
  ∀ s : State, s.phase = .idle → Honest s → s.inPos = 0 → s.input ≠ [] → CountsFit s.input →
    (∃ t0, exec .cmpHuf (startCommand 0x00000100#32 s) = .next t0) ∧
    ∃ k t, EndsIn .cmpHuf k (startCommand 0x00000100#32 s) t ∧ statusWord t.status = 0x00000002#32 ∧
      t.output = s.output ++ container Config.magic s.input ∧ t.inCount = BitVec.ofNat 64 (2 * s.input.length) ∧
      t.outCount = BitVec.ofNat 64 (container Config.magic s.input).length ∧
      t.origSize = BitVec.ofNat 64 s.input.length ∧
      t.nsym = BitVec.ofNat 9 (distinctCount (frequencies s.input)) ∧ t.inPos = s.input.length ∧ t.input = s.input ∧
      hideHufEnc t = hideHufEnc (startCommand 0x00000100#32 s)

/-- R165, R160, R162 (and R161's writer, R163, R112, R113): the length of a container of a non-empty input, and its bytes one by
one: the magic; the symbol count modulo 256; byte `i` of the size is `size / 256^i` modulo 256; the entry of the symbol with
`k` smaller symbols present stands at `13 + 5k`, the symbol first, byte `i` of its count `count / 256^i` modulo 256; and bit
`j` of the body, counted from bit 7 of its first byte down, is code bit `j`, or 0 beyond the last. -/
def Obligations.ContainerLayout : Prop :=
  ∀ (magic : Vector Byte 4) (bytes : List Byte), bytes ≠ [] → CountsFit bytes →
    (container magic bytes).length =
      13 + 5 * distinctCount (frequencies bytes) +
        ((bodyBits (codesOf (frequencies bytes)) bytes).length + 7) / 8 ∧
    (∀ i : Fin 4, (container magic bytes)[i.val]? = some magic[i]) ∧
    (container magic bytes)[4]? = some (BitVec.ofNat 8 (distinctCount (frequencies bytes))) ∧
    (∀ i, i < 8 → (container magic bytes)[5 + i]? = some (BitVec.ofNat 8 (bytes.length / 256 ^ i))) ∧
    (∀ s : Byte, 0 < bytes.count s →
      (container magic bytes)[13 + 5 * presentBelow bytes s]? = some s ∧
        ∀ i, i < 4 → (container magic bytes)[13 + 5 * presentBelow bytes s + 1 + i]? =
          some (BitVec.ofNat 8 (bytes.count s / 256 ^ i))) ∧
    ∀ (j : Nat) (b : Byte), (container magic bytes)[13 + 5 * distinctCount (frequencies bytes) + j / 8]? = some b →
      b.getLsbD (7 - j % 8) = (bodyBits (codesOf (frequencies bytes)) bytes).getD j false

/-- R519: Huffman compression and decompression give back every input whose counts fit, for every `MAGIC`. -/
def Obligations.HuffmanRoundTrip : Prop :=
  ∀ s : State, s.phase = .idle → Honest s → s.inPos = 0 → s.output = [] → CountsFit s.input →
    ∃ k t, EndsIn .cmpHuf k (startCommand 0x00000100#32 s) t ∧ t.status = statusFinished ∧
      (∃ t0, exec .dcmpHuf (startCommand 0x00000101#32 { t with input := t.output, inPos := 0, output := [] }) = .next t0) ∧
      ∃ j u, EndsIn .dcmpHuf j (startCommand 0x00000101#32 { t with input := t.output, inPos := 0, output := [] }) u ∧
        u.status = statusFinished ∧ u.output = s.input ∧ u.inPos = t.output.length ∧
        u.inCount = BitVec.ofNat 64 t.output.length ∧ u.outCount = BitVec.ofNat 64 s.input.length

/-- R415: a bad magic is rejected after exactly four input bytes, whatever follows. -/
def Obligations.BadMagicIsRejected : Prop :=
  ∀ s : State, s.phase = .idle → Honest s → s.inPos = 0 → 4 ≤ s.input.length →
    s.input.take 4 ≠ Config.magic.toList →
    ∃ t, EndsIn .dcmpHuf 5 (startCommand 0x00000101#32 s) t ∧ statusWord t.status = 0x00000202#32 ∧ t.inCount = 4 ∧
      t.inPos = 4 ∧ t.output = s.output ∧ t.outCount = 0 ∧ t.origSize = 0 ∧ t.nsym = 0

/-- R414: an input that ends within the header is rejected at its end. -/
def Obligations.TruncatedHeaderIsRejected : Prop :=
  ∀ s : State, s.phase = .idle → Honest s → s.inPos = 0 → s.input.length < 13 →
    (4 ≤ s.input.length → s.input.take 4 = Config.magic.toList) →
    ∃ t, EndsIn .dcmpHuf (s.input.length + 2) (startCommand 0x00000101#32 s) t ∧
      statusWord t.status = 0x00000202#32 ∧ t.inCount = BitVec.ofNat 64 s.input.length ∧ t.inPos = s.input.length ∧
      t.output = s.output ∧ t.outCount = 0 ∧ t.origSize = 0 ∧ t.nsym = 0

/-- R417, R107: a header of size 0 ends with success after 13 bytes; `num_symbols` is not interpreted and what follows is
not read. -/
def Obligations.SizeZeroEndsAfterTheHeader : Prop :=
  ∀ (s : State) (ns : Byte) (trailing : List Byte), s.phase = .idle → Honest s → s.inPos = 0 →
    s.input = Config.magic.toList ++ [ns] ++ List.replicate 8 0 ++ trailing →
    ∃ t, EndsIn .dcmpHuf 14 (startCommand 0x00000101#32 s) t ∧ statusWord t.status = 0x00000002#32 ∧ t.inCount = 13 ∧
      t.inPos = 13 ∧ t.output = s.output ∧ t.outCount = 0 ∧ t.origSize = 0 ∧ t.nsym = 0 ∧ t.nsRaw = ns

/-- R418, R161, R416: with a nonzero size, an input that ends within the table is rejected at its end; `ORIG_SIZE` and `NSYM`
hold what the header said, the eight size bytes least significant first (R10, R113). -/
def Obligations.TruncatedTableIsRejected : Prop :=
  ∀ (s : State) (ns : Byte) (z table : List Byte), s.phase = .idle → Honest s → s.inPos = 0 → z.length = 8 →
    leValue z ≠ 0 → s.input = Config.magic.toList ++ [ns] ++ z ++ table →
    table.length < 5 * (if ns = 0 then 256 else ns.toNat) →
    ∃ t, EndsIn .dcmpHuf (s.input.length + 2) (startCommand 0x00000101#32 s) t ∧
      statusWord t.status = 0x00000302#32 ∧ t.inCount = BitVec.ofNat 64 s.input.length ∧ t.output = s.output ∧
      t.origSize.toNat = leValue z ∧ t.nsym.toNat = (if ns = 0 then 256 else ns.toNat)

/-- R420: a table whose entries are all zero is rejected before any body byte is read. -/
def Obligations.AllZeroTableIsRejected : Prop :=
  ∀ (s : State) (ns : Byte) (z symbols body : List Byte), s.phase = .idle → Honest s → s.inPos = 0 → z.length = 8 →
    leValue z ≠ 0 → symbols.length = (if ns = 0 then 256 else ns.toNat) →
    s.input = Config.magic.toList ++ [ns] ++ z ++ (symbols.flatMap fun c => [c, 0, 0, 0, 0]) ++ body →
    ∃ k t, EndsIn .dcmpHuf k (startCommand 0x00000101#32 s) t ∧ statusWord t.status = 0x00000302#32 ∧
      t.inPos = 13 + 5 * symbols.length ∧ t.inCount = BitVec.ofNat 64 (13 + 5 * symbols.length) ∧
      t.output = s.output ∧ t.outCount = 0 ∧ t.origSize.toNat = leValue z

/-- R721: a host that answers every transaction, in whatever way, sees every command end: `BUSY` 0, `DONE` 1. -/
def Obligations.EveryAnsweredCommandEnds : Prop :=
  ∀ (i : Instr) (v : Word) (s : State), s.phase = .idle → Answering s →
    ∃ k t, EndsIn i (k + 1) (startCommand v s) t ∧ t.status.busy = false ∧ t.status.done = true

/-- R721: with an honest host, the number of transactions of each command is bounded by the length of its input. -/
def Obligations.TransactionBounds : Prop :=
  ∀ (v : Word) (s : State), s.phase = .idle → Honest s → s.inPos = 0 →
    (∃ k t, EndsIn .cmpRle (k + 1) (startCommand v s) t ∧ k ≤ (s.input.length + 1) + 2 * s.input.length) ∧
    (∃ k t, EndsIn .dcmpRle (k + 1) (startCommand v s) t ∧ k ≤ (s.input.length + 1) + 255 * (s.input.length / 2)) ∧
    (∃ k t, EndsIn .cmpHuf (k + 1) (startCommand v s) t ∧
      k ≤ (2 * s.input.length + 1) + 1 +
        (13 + 5 * distinctCount (frequencies s.input) + (255 * s.input.length + 7) / 8)) ∧
    ∃ k t, EndsIn .dcmpHuf (k + 1) (startCommand v s) t ∧ k ≤ (s.input.length + 1) + 8 * s.input.length

/-- R122, R720: what `EndsIn` says of a command is what the machine does: the engine's steps are the machine's steps, once
the host lets the engine move. R122 leaves the interleaving free: that with no turn listed the engine moves first is the
model's own (DESIGN CHOICE, log 4). -/
def Obligations.MachineRunsTheCommandToItsEnd : Prop :=
  ∀ (i : Instr) (k : Nat) (s t : State), phaseCommand s.phase = some i → Honest s → s.turns = [] →
    commandRun i k s = .next t → t.phase = .idle →
    ∃ j, j ≤ k ∧ Host.Core.run Sys2Proof.core j s = .next t
end

