-- ==== Sys2Proof/Laws/State.lean ====
section
/-! SUPPORT. What each shared update of State leaves in each field: one lemma per field and update, true by rfl. -/

namespace Sys2Proof.Machine

@[simp] theorem raise_cmd (e : Error) (s : State) : (raise e s).cmd = s.cmd := rfl
@[simp] theorem raise_status (e : Error) (s : State) : (raise e s).status = statusRaised e := rfl
@[simp] theorem raise_inCount (e : Error) (s : State) : (raise e s).inCount = s.inCount := rfl
@[simp] theorem raise_outCount (e : Error) (s : State) : (raise e s).outCount = s.outCount := rfl
@[simp] theorem raise_origSize (e : Error) (s : State) : (raise e s).origSize = s.origSize := rfl
@[simp] theorem raise_nsym (e : Error) (s : State) : (raise e s).nsym = s.nsym := rfl
@[simp] theorem raise_total (e : Error) (s : State) : (raise e s).total = s.total := rfl
@[simp] theorem raise_n (e : Error) (s : State) : (raise e s).n = s.n := rfl
@[simp] theorem raise_nsRaw (e : Error) (s : State) : (raise e s).nsRaw = s.nsRaw := rfl
@[simp] theorem raise_remain (e : Error) (s : State) : (raise e s).remain = s.remain := rfl
@[simp] theorem raise_acc (e : Error) (s : State) : (raise e s).acc = s.acc := rfl
@[simp] theorem raise_bitCnt (e : Error) (s : State) : (raise e s).bitCnt = s.bitCnt := rfl
@[simp] theorem raise_cur (e : Error) (s : State) : (raise e s).cur = s.cur := rfl
@[simp] theorem raise_decoded (e : Error) (s : State) : (raise e s).decoded = s.decoded := rfl
@[simp] theorem raise_runVal (e : Error) (s : State) : (raise e s).runVal = s.runVal := rfl
@[simp] theorem raise_runCnt (e : Error) (s : State) : (raise e s).runCnt = s.runCnt := rfl
@[simp] theorem raise_runValid (e : Error) (s : State) : (raise e s).runValid = s.runValid := rfl
@[simp] theorem raise_freq (e : Error) (s : State) : (raise e s).freq = s.freq := rfl
@[simp] theorem raise_arena (e : Error) (s : State) : (raise e s).arena = s.arena := rfl
@[simp] theorem raise_code (e : Error) (s : State) : (raise e s).code = s.code := rfl
@[simp] theorem raise_phase (e : Error) (s : State) : (raise e s).phase = .idle := rfl
@[simp] theorem raise_input (e : Error) (s : State) : (raise e s).input = s.input := rfl
@[simp] theorem raise_inPos (e : Error) (s : State) : (raise e s).inPos = s.inPos := rfl
@[simp] theorem raise_output (e : Error) (s : State) : (raise e s).output = s.output := rfl
@[simp] theorem raise_answers (e : Error) (s : State) : (raise e s).answers = s.answers := rfl
@[simp] theorem raise_serves (e : Error) (s : State) : (raise e s).serves = s.serves := rfl
@[simp] theorem raise_program (e : Error) (s : State) : (raise e s).program = s.program := rfl
@[simp] theorem raise_turns (e : Error) (s : State) : (raise e s).turns = s.turns := rfl
@[simp] theorem raise_reads (e : Error) (s : State) : (raise e s).reads = s.reads := rfl

@[simp] theorem finish_cmd (s : State) : (finish s).cmd = s.cmd := rfl
@[simp] theorem finish_status (s : State) : (finish s).status = statusFinished := rfl
@[simp] theorem finish_inCount (s : State) : (finish s).inCount = s.inCount := rfl
@[simp] theorem finish_outCount (s : State) : (finish s).outCount = s.outCount := rfl
@[simp] theorem finish_origSize (s : State) : (finish s).origSize = s.origSize := rfl
@[simp] theorem finish_nsym (s : State) : (finish s).nsym = s.nsym := rfl
@[simp] theorem finish_total (s : State) : (finish s).total = s.total := rfl
@[simp] theorem finish_n (s : State) : (finish s).n = s.n := rfl
@[simp] theorem finish_nsRaw (s : State) : (finish s).nsRaw = s.nsRaw := rfl
@[simp] theorem finish_remain (s : State) : (finish s).remain = s.remain := rfl
@[simp] theorem finish_acc (s : State) : (finish s).acc = s.acc := rfl
@[simp] theorem finish_bitCnt (s : State) : (finish s).bitCnt = s.bitCnt := rfl
@[simp] theorem finish_cur (s : State) : (finish s).cur = s.cur := rfl
@[simp] theorem finish_decoded (s : State) : (finish s).decoded = s.decoded := rfl
@[simp] theorem finish_runVal (s : State) : (finish s).runVal = s.runVal := rfl
@[simp] theorem finish_runCnt (s : State) : (finish s).runCnt = s.runCnt := rfl
@[simp] theorem finish_runValid (s : State) : (finish s).runValid = s.runValid := rfl
@[simp] theorem finish_freq (s : State) : (finish s).freq = s.freq := rfl
@[simp] theorem finish_arena (s : State) : (finish s).arena = s.arena := rfl
@[simp] theorem finish_code (s : State) : (finish s).code = s.code := rfl
@[simp] theorem finish_phase (s : State) : (finish s).phase = .idle := rfl
@[simp] theorem finish_input (s : State) : (finish s).input = s.input := rfl
@[simp] theorem finish_inPos (s : State) : (finish s).inPos = s.inPos := rfl
@[simp] theorem finish_output (s : State) : (finish s).output = s.output := rfl
@[simp] theorem finish_answers (s : State) : (finish s).answers = s.answers := rfl
@[simp] theorem finish_serves (s : State) : (finish s).serves = s.serves := rfl
@[simp] theorem finish_program (s : State) : (finish s).program = s.program := rfl
@[simp] theorem finish_turns (s : State) : (finish s).turns = s.turns := rfl
@[simp] theorem finish_reads (s : State) : (finish s).reads = s.reads := rfl

@[simp] theorem startCommand_cmd (v : Word) (s : State) : (startCommand v s).cmd = v := rfl
@[simp] theorem startCommand_status (v : Word) (s : State) : (startCommand v s).status = statusStarted := rfl
@[simp] theorem startCommand_inCount (v : Word) (s : State) : (startCommand v s).inCount = 0 := rfl
@[simp] theorem startCommand_outCount (v : Word) (s : State) : (startCommand v s).outCount = 0 := rfl
@[simp] theorem startCommand_origSize (v : Word) (s : State) : (startCommand v s).origSize = 0 := rfl
@[simp] theorem startCommand_nsym (v : Word) (s : State) : (startCommand v s).nsym = 0 := rfl
@[simp] theorem startCommand_total (v : Word) (s : State) : (startCommand v s).total = s.total := rfl
@[simp] theorem startCommand_n (v : Word) (s : State) : (startCommand v s).n = s.n := rfl
@[simp] theorem startCommand_nsRaw (v : Word) (s : State) : (startCommand v s).nsRaw = s.nsRaw := rfl
@[simp] theorem startCommand_remain (v : Word) (s : State) : (startCommand v s).remain = s.remain := rfl
@[simp] theorem startCommand_acc (v : Word) (s : State) : (startCommand v s).acc = s.acc := rfl
@[simp] theorem startCommand_bitCnt (v : Word) (s : State) : (startCommand v s).bitCnt = s.bitCnt := rfl
@[simp] theorem startCommand_cur (v : Word) (s : State) : (startCommand v s).cur = s.cur := rfl
@[simp] theorem startCommand_decoded (v : Word) (s : State) : (startCommand v s).decoded = s.decoded := rfl
@[simp] theorem startCommand_runVal (v : Word) (s : State) : (startCommand v s).runVal = s.runVal := rfl
@[simp] theorem startCommand_runCnt (v : Word) (s : State) : (startCommand v s).runCnt = s.runCnt := rfl
@[simp] theorem startCommand_runValid (v : Word) (s : State) : (startCommand v s).runValid = s.runValid := rfl
@[simp] theorem startCommand_freq (v : Word) (s : State) : (startCommand v s).freq = s.freq := rfl
@[simp] theorem startCommand_arena (v : Word) (s : State) : (startCommand v s).arena = s.arena := rfl
@[simp] theorem startCommand_code (v : Word) (s : State) : (startCommand v s).code = s.code := rfl
@[simp] theorem startCommand_phase (v : Word) (s : State) : (startCommand v s).phase = s.phase := rfl
@[simp] theorem startCommand_input (v : Word) (s : State) : (startCommand v s).input = s.input := rfl
@[simp] theorem startCommand_inPos (v : Word) (s : State) : (startCommand v s).inPos = s.inPos := rfl
@[simp] theorem startCommand_output (v : Word) (s : State) : (startCommand v s).output = s.output := rfl
@[simp] theorem startCommand_answers (v : Word) (s : State) : (startCommand v s).answers = s.answers := rfl
@[simp] theorem startCommand_serves (v : Word) (s : State) : (startCommand v s).serves = s.serves := rfl
@[simp] theorem startCommand_program (v : Word) (s : State) : (startCommand v s).program = s.program := rfl
@[simp] theorem startCommand_turns (v : Word) (s : State) : (startCommand v s).turns = s.turns := rfl
@[simp] theorem startCommand_reads (v : Word) (s : State) : (startCommand v s).reads = s.reads := rfl

@[simp] theorem errPosition_cmd (p : Nat) (s : State) : (errPosition p s).cmd = s.cmd := rfl
@[simp] theorem errPosition_status (p : Nat) (s : State) : (errPosition p s).status = s.status := rfl
@[simp] theorem errPosition_inCount (p : Nat) (s : State) : (errPosition p s).inCount = s.inCount := rfl
@[simp] theorem errPosition_outCount (p : Nat) (s : State) : (errPosition p s).outCount = s.outCount := rfl
@[simp] theorem errPosition_origSize (p : Nat) (s : State) : (errPosition p s).origSize = s.origSize := rfl
@[simp] theorem errPosition_nsym (p : Nat) (s : State) : (errPosition p s).nsym = s.nsym := rfl
@[simp] theorem errPosition_total (p : Nat) (s : State) : (errPosition p s).total = s.total := rfl
@[simp] theorem errPosition_n (p : Nat) (s : State) : (errPosition p s).n = s.n := rfl
@[simp] theorem errPosition_nsRaw (p : Nat) (s : State) : (errPosition p s).nsRaw = s.nsRaw := rfl
@[simp] theorem errPosition_remain (p : Nat) (s : State) : (errPosition p s).remain = s.remain := rfl
@[simp] theorem errPosition_acc (p : Nat) (s : State) : (errPosition p s).acc = s.acc := rfl
@[simp] theorem errPosition_bitCnt (p : Nat) (s : State) : (errPosition p s).bitCnt = s.bitCnt := rfl
@[simp] theorem errPosition_cur (p : Nat) (s : State) : (errPosition p s).cur = s.cur := rfl
@[simp] theorem errPosition_decoded (p : Nat) (s : State) : (errPosition p s).decoded = s.decoded := rfl
@[simp] theorem errPosition_runVal (p : Nat) (s : State) : (errPosition p s).runVal = s.runVal := rfl
@[simp] theorem errPosition_runCnt (p : Nat) (s : State) : (errPosition p s).runCnt = s.runCnt := rfl
@[simp] theorem errPosition_runValid (p : Nat) (s : State) : (errPosition p s).runValid = s.runValid := rfl
@[simp] theorem errPosition_freq (p : Nat) (s : State) : (errPosition p s).freq = s.freq := rfl
@[simp] theorem errPosition_arena (p : Nat) (s : State) : (errPosition p s).arena = s.arena := rfl
@[simp] theorem errPosition_code (p : Nat) (s : State) : (errPosition p s).code = s.code := rfl
@[simp] theorem errPosition_phase (p : Nat) (s : State) : (errPosition p s).phase = s.phase := rfl
@[simp] theorem errPosition_input (p : Nat) (s : State) : (errPosition p s).input = s.input := rfl
@[simp] theorem errPosition_inPos (p : Nat) (s : State) : (errPosition p s).inPos = min p s.input.length := rfl
@[simp] theorem errPosition_output (p : Nat) (s : State) : (errPosition p s).output = s.output := rfl
@[simp] theorem errPosition_answers (p : Nat) (s : State) : (errPosition p s).answers = s.answers := rfl
@[simp] theorem errPosition_serves (p : Nat) (s : State) : (errPosition p s).serves = s.serves := rfl
@[simp] theorem errPosition_program (p : Nat) (s : State) : (errPosition p s).program = s.program := rfl
@[simp] theorem errPosition_turns (p : Nat) (s : State) : (errPosition p s).turns = s.turns := rfl
@[simp] theorem errPosition_reads (p : Nat) (s : State) : (errPosition p s).reads = s.reads := rfl

@[simp] theorem freqClear_cmd (s : State) : (freqClear s).cmd = s.cmd := rfl
@[simp] theorem freqClear_status (s : State) : (freqClear s).status = s.status := rfl
@[simp] theorem freqClear_inCount (s : State) : (freqClear s).inCount = s.inCount := rfl
@[simp] theorem freqClear_outCount (s : State) : (freqClear s).outCount = s.outCount := rfl
@[simp] theorem freqClear_origSize (s : State) : (freqClear s).origSize = s.origSize := rfl
@[simp] theorem freqClear_nsym (s : State) : (freqClear s).nsym = s.nsym := rfl
@[simp] theorem freqClear_total (s : State) : (freqClear s).total = s.total := rfl
@[simp] theorem freqClear_n (s : State) : (freqClear s).n = s.n := rfl
@[simp] theorem freqClear_nsRaw (s : State) : (freqClear s).nsRaw = s.nsRaw := rfl
@[simp] theorem freqClear_remain (s : State) : (freqClear s).remain = s.remain := rfl
@[simp] theorem freqClear_acc (s : State) : (freqClear s).acc = s.acc := rfl
@[simp] theorem freqClear_bitCnt (s : State) : (freqClear s).bitCnt = s.bitCnt := rfl
@[simp] theorem freqClear_cur (s : State) : (freqClear s).cur = s.cur := rfl
@[simp] theorem freqClear_decoded (s : State) : (freqClear s).decoded = s.decoded := rfl
@[simp] theorem freqClear_runVal (s : State) : (freqClear s).runVal = s.runVal := rfl
@[simp] theorem freqClear_runCnt (s : State) : (freqClear s).runCnt = s.runCnt := rfl
@[simp] theorem freqClear_runValid (s : State) : (freqClear s).runValid = s.runValid := rfl
@[simp] theorem freqClear_freq (s : State) : (freqClear s).freq = Vector.replicate 256 0 := rfl
@[simp] theorem freqClear_arena (s : State) : (freqClear s).arena = s.arena := rfl
@[simp] theorem freqClear_code (s : State) : (freqClear s).code = s.code := rfl
@[simp] theorem freqClear_phase (s : State) : (freqClear s).phase = s.phase := rfl
@[simp] theorem freqClear_input (s : State) : (freqClear s).input = s.input := rfl
@[simp] theorem freqClear_inPos (s : State) : (freqClear s).inPos = s.inPos := rfl
@[simp] theorem freqClear_output (s : State) : (freqClear s).output = s.output := rfl
@[simp] theorem freqClear_answers (s : State) : (freqClear s).answers = s.answers := rfl
@[simp] theorem freqClear_serves (s : State) : (freqClear s).serves = s.serves := rfl
@[simp] theorem freqClear_program (s : State) : (freqClear s).program = s.program := rfl
@[simp] theorem freqClear_turns (s : State) : (freqClear s).turns = s.turns := rfl
@[simp] theorem freqClear_reads (s : State) : (freqClear s).reads = s.reads := rfl

@[simp] theorem openRun_cmd (b : Byte) (s : State) : (openRun b s).cmd = s.cmd := rfl
@[simp] theorem openRun_status (b : Byte) (s : State) : (openRun b s).status = s.status := rfl
@[simp] theorem openRun_inCount (b : Byte) (s : State) : (openRun b s).inCount = s.inCount := rfl
@[simp] theorem openRun_outCount (b : Byte) (s : State) : (openRun b s).outCount = s.outCount := rfl
@[simp] theorem openRun_origSize (b : Byte) (s : State) : (openRun b s).origSize = s.origSize := rfl
@[simp] theorem openRun_nsym (b : Byte) (s : State) : (openRun b s).nsym = s.nsym := rfl
@[simp] theorem openRun_total (b : Byte) (s : State) : (openRun b s).total = s.total := rfl
@[simp] theorem openRun_n (b : Byte) (s : State) : (openRun b s).n = s.n := rfl
@[simp] theorem openRun_nsRaw (b : Byte) (s : State) : (openRun b s).nsRaw = s.nsRaw := rfl
@[simp] theorem openRun_remain (b : Byte) (s : State) : (openRun b s).remain = s.remain := rfl
@[simp] theorem openRun_acc (b : Byte) (s : State) : (openRun b s).acc = s.acc := rfl
@[simp] theorem openRun_bitCnt (b : Byte) (s : State) : (openRun b s).bitCnt = s.bitCnt := rfl
@[simp] theorem openRun_cur (b : Byte) (s : State) : (openRun b s).cur = s.cur := rfl
@[simp] theorem openRun_decoded (b : Byte) (s : State) : (openRun b s).decoded = s.decoded := rfl
@[simp] theorem openRun_runVal (b : Byte) (s : State) : (openRun b s).runVal = b := rfl
@[simp] theorem openRun_runCnt (b : Byte) (s : State) : (openRun b s).runCnt = 1 := rfl
@[simp] theorem openRun_runValid (b : Byte) (s : State) : (openRun b s).runValid = true := rfl
@[simp] theorem openRun_freq (b : Byte) (s : State) : (openRun b s).freq = s.freq := rfl
@[simp] theorem openRun_arena (b : Byte) (s : State) : (openRun b s).arena = s.arena := rfl
@[simp] theorem openRun_code (b : Byte) (s : State) : (openRun b s).code = s.code := rfl
@[simp] theorem openRun_phase (b : Byte) (s : State) : (openRun b s).phase = s.phase := rfl
@[simp] theorem openRun_input (b : Byte) (s : State) : (openRun b s).input = s.input := rfl
@[simp] theorem openRun_inPos (b : Byte) (s : State) : (openRun b s).inPos = s.inPos := rfl
@[simp] theorem openRun_output (b : Byte) (s : State) : (openRun b s).output = s.output := rfl
@[simp] theorem openRun_answers (b : Byte) (s : State) : (openRun b s).answers = s.answers := rfl
@[simp] theorem openRun_serves (b : Byte) (s : State) : (openRun b s).serves = s.serves := rfl
@[simp] theorem openRun_program (b : Byte) (s : State) : (openRun b s).program = s.program := rfl
@[simp] theorem openRun_turns (b : Byte) (s : State) : (openRun b s).turns = s.turns := rfl
@[simp] theorem openRun_reads (b : Byte) (s : State) : (openRun b s).reads = s.reads := rfl

@[simp] theorem packInit_cmd (s : State) : (packInit s).cmd = s.cmd := rfl
@[simp] theorem packInit_status (s : State) : (packInit s).status = s.status := rfl
@[simp] theorem packInit_inCount (s : State) : (packInit s).inCount = s.inCount := rfl
@[simp] theorem packInit_outCount (s : State) : (packInit s).outCount = s.outCount := rfl
@[simp] theorem packInit_origSize (s : State) : (packInit s).origSize = s.origSize := rfl
@[simp] theorem packInit_nsym (s : State) : (packInit s).nsym = s.nsym := rfl
@[simp] theorem packInit_total (s : State) : (packInit s).total = s.total := rfl
@[simp] theorem packInit_n (s : State) : (packInit s).n = s.n := rfl
@[simp] theorem packInit_nsRaw (s : State) : (packInit s).nsRaw = s.nsRaw := rfl
@[simp] theorem packInit_remain (s : State) : (packInit s).remain = s.remain := rfl
@[simp] theorem packInit_acc (s : State) : (packInit s).acc = 0 := rfl
@[simp] theorem packInit_bitCnt (s : State) : (packInit s).bitCnt = 0 := rfl
@[simp] theorem packInit_cur (s : State) : (packInit s).cur = s.cur := rfl
@[simp] theorem packInit_decoded (s : State) : (packInit s).decoded = s.decoded := rfl
@[simp] theorem packInit_runVal (s : State) : (packInit s).runVal = s.runVal := rfl
@[simp] theorem packInit_runCnt (s : State) : (packInit s).runCnt = s.runCnt := rfl
@[simp] theorem packInit_runValid (s : State) : (packInit s).runValid = s.runValid := rfl
@[simp] theorem packInit_freq (s : State) : (packInit s).freq = s.freq := rfl
@[simp] theorem packInit_arena (s : State) : (packInit s).arena = s.arena := rfl
@[simp] theorem packInit_code (s : State) : (packInit s).code = s.code := rfl
@[simp] theorem packInit_phase (s : State) : (packInit s).phase = s.phase := rfl
@[simp] theorem packInit_input (s : State) : (packInit s).input = s.input := rfl
@[simp] theorem packInit_inPos (s : State) : (packInit s).inPos = s.inPos := rfl
@[simp] theorem packInit_output (s : State) : (packInit s).output = s.output := rfl
@[simp] theorem packInit_answers (s : State) : (packInit s).answers = s.answers := rfl
@[simp] theorem packInit_serves (s : State) : (packInit s).serves = s.serves := rfl
@[simp] theorem packInit_program (s : State) : (packInit s).program = s.program := rfl
@[simp] theorem packInit_turns (s : State) : (packInit s).turns = s.turns := rfl
@[simp] theorem packInit_reads (s : State) : (packInit s).reads = s.reads := rfl

@[simp] theorem packShift_cmd (b : Bool) (s : State) : (packShift b s).cmd = s.cmd := rfl
@[simp] theorem packShift_status (b : Bool) (s : State) : (packShift b s).status = s.status := rfl
@[simp] theorem packShift_inCount (b : Bool) (s : State) : (packShift b s).inCount = s.inCount := rfl
@[simp] theorem packShift_outCount (b : Bool) (s : State) : (packShift b s).outCount = s.outCount := rfl
@[simp] theorem packShift_origSize (b : Bool) (s : State) : (packShift b s).origSize = s.origSize := rfl
@[simp] theorem packShift_nsym (b : Bool) (s : State) : (packShift b s).nsym = s.nsym := rfl
@[simp] theorem packShift_total (b : Bool) (s : State) : (packShift b s).total = s.total := rfl
@[simp] theorem packShift_n (b : Bool) (s : State) : (packShift b s).n = s.n := rfl
@[simp] theorem packShift_nsRaw (b : Bool) (s : State) : (packShift b s).nsRaw = s.nsRaw := rfl
@[simp] theorem packShift_remain (b : Bool) (s : State) : (packShift b s).remain = s.remain := rfl
@[simp] theorem packShift_acc (b : Bool) (s : State) : (packShift b s).acc = s.acc <<< 1 ||| (BitVec.ofBool b).setWidth 8 := rfl
@[simp] theorem packShift_bitCnt (b : Bool) (s : State) : (packShift b s).bitCnt = s.bitCnt + 1 := rfl
@[simp] theorem packShift_cur (b : Bool) (s : State) : (packShift b s).cur = s.cur := rfl
@[simp] theorem packShift_decoded (b : Bool) (s : State) : (packShift b s).decoded = s.decoded := rfl
@[simp] theorem packShift_runVal (b : Bool) (s : State) : (packShift b s).runVal = s.runVal := rfl
@[simp] theorem packShift_runCnt (b : Bool) (s : State) : (packShift b s).runCnt = s.runCnt := rfl
@[simp] theorem packShift_runValid (b : Bool) (s : State) : (packShift b s).runValid = s.runValid := rfl
@[simp] theorem packShift_freq (b : Bool) (s : State) : (packShift b s).freq = s.freq := rfl
@[simp] theorem packShift_arena (b : Bool) (s : State) : (packShift b s).arena = s.arena := rfl
@[simp] theorem packShift_code (b : Bool) (s : State) : (packShift b s).code = s.code := rfl
@[simp] theorem packShift_phase (b : Bool) (s : State) : (packShift b s).phase = s.phase := rfl
@[simp] theorem packShift_input (b : Bool) (s : State) : (packShift b s).input = s.input := rfl
@[simp] theorem packShift_inPos (b : Bool) (s : State) : (packShift b s).inPos = s.inPos := rfl
@[simp] theorem packShift_output (b : Bool) (s : State) : (packShift b s).output = s.output := rfl
@[simp] theorem packShift_answers (b : Bool) (s : State) : (packShift b s).answers = s.answers := rfl
@[simp] theorem packShift_serves (b : Bool) (s : State) : (packShift b s).serves = s.serves := rfl
@[simp] theorem packShift_program (b : Bool) (s : State) : (packShift b s).program = s.program := rfl
@[simp] theorem packShift_turns (b : Bool) (s : State) : (packShift b s).turns = s.turns := rfl
@[simp] theorem packShift_reads (b : Bool) (s : State) : (packShift b s).reads = s.reads := rfl

@[simp] theorem endOfPass1_cmd (s : State) : (endOfPass1 s).cmd = s.cmd := rfl
@[simp] theorem endOfPass1_status (s : State) : (endOfPass1 s).status = s.status := rfl
@[simp] theorem endOfPass1_inCount (s : State) : (endOfPass1 s).inCount = s.inCount := rfl
@[simp] theorem endOfPass1_outCount (s : State) : (endOfPass1 s).outCount = s.outCount := rfl
@[simp] theorem endOfPass1_origSize (s : State) : (endOfPass1 s).origSize = s.total := rfl
@[simp] theorem endOfPass1_nsym (s : State) : (endOfPass1 s).nsym = BitVec.ofNat 9 (distinctCount s.freq) := rfl
@[simp] theorem endOfPass1_total (s : State) : (endOfPass1 s).total = s.total := rfl
@[simp] theorem endOfPass1_n (s : State) : (endOfPass1 s).n = BitVec.ofNat 9 (distinctCount s.freq) := rfl
@[simp] theorem endOfPass1_nsRaw (s : State) : (endOfPass1 s).nsRaw = s.nsRaw := rfl
@[simp] theorem endOfPass1_remain (s : State) : (endOfPass1 s).remain = s.remain := rfl
@[simp] theorem endOfPass1_acc (s : State) : (endOfPass1 s).acc = s.acc := rfl
@[simp] theorem endOfPass1_bitCnt (s : State) : (endOfPass1 s).bitCnt = s.bitCnt := rfl
@[simp] theorem endOfPass1_cur (s : State) : (endOfPass1 s).cur = s.cur := rfl
@[simp] theorem endOfPass1_decoded (s : State) : (endOfPass1 s).decoded = s.decoded := rfl
@[simp] theorem endOfPass1_runVal (s : State) : (endOfPass1 s).runVal = s.runVal := rfl
@[simp] theorem endOfPass1_runCnt (s : State) : (endOfPass1 s).runCnt = s.runCnt := rfl
@[simp] theorem endOfPass1_runValid (s : State) : (endOfPass1 s).runValid = s.runValid := rfl
@[simp] theorem endOfPass1_freq (s : State) : (endOfPass1 s).freq = s.freq := rfl
@[simp] theorem endOfPass1_arena (s : State) : (endOfPass1 s).arena = s.arena := rfl
@[simp] theorem endOfPass1_code (s : State) : (endOfPass1 s).code = s.code := rfl
@[simp] theorem endOfPass1_phase (s : State) : (endOfPass1 s).phase = s.phase := rfl
@[simp] theorem endOfPass1_input (s : State) : (endOfPass1 s).input = s.input := rfl
@[simp] theorem endOfPass1_inPos (s : State) : (endOfPass1 s).inPos = s.inPos := rfl
@[simp] theorem endOfPass1_output (s : State) : (endOfPass1 s).output = s.output := rfl
@[simp] theorem endOfPass1_answers (s : State) : (endOfPass1 s).answers = s.answers := rfl
@[simp] theorem endOfPass1_serves (s : State) : (endOfPass1 s).serves = s.serves := rfl
@[simp] theorem endOfPass1_program (s : State) : (endOfPass1 s).program = s.program := rfl
@[simp] theorem endOfPass1_turns (s : State) : (endOfPass1 s).turns = s.turns := rfl
@[simp] theorem endOfPass1_reads (s : State) : (endOfPass1 s).reads = s.reads := rfl

@[simp] theorem resetEngine_cmd (p : Nat) (k : Bool) (s : State) : (resetEngine p k s).cmd = State.reset.cmd := rfl
@[simp] theorem resetEngine_status (p : Nat) (k : Bool) (s : State) : (resetEngine p k s).status = State.reset.status := rfl
@[simp] theorem resetEngine_inCount (p : Nat) (k : Bool) (s : State) : (resetEngine p k s).inCount = State.reset.inCount := rfl
@[simp] theorem resetEngine_outCount (p : Nat) (k : Bool) (s : State) : (resetEngine p k s).outCount = State.reset.outCount := rfl
@[simp] theorem resetEngine_origSize (p : Nat) (k : Bool) (s : State) : (resetEngine p k s).origSize = State.reset.origSize := rfl
@[simp] theorem resetEngine_nsym (p : Nat) (k : Bool) (s : State) : (resetEngine p k s).nsym = State.reset.nsym := rfl
@[simp] theorem resetEngine_total (p : Nat) (k : Bool) (s : State) : (resetEngine p k s).total = State.reset.total := rfl
@[simp] theorem resetEngine_n (p : Nat) (k : Bool) (s : State) : (resetEngine p k s).n = State.reset.n := rfl
@[simp] theorem resetEngine_nsRaw (p : Nat) (k : Bool) (s : State) : (resetEngine p k s).nsRaw = State.reset.nsRaw := rfl
@[simp] theorem resetEngine_remain (p : Nat) (k : Bool) (s : State) : (resetEngine p k s).remain = State.reset.remain := rfl
@[simp] theorem resetEngine_acc (p : Nat) (k : Bool) (s : State) : (resetEngine p k s).acc = State.reset.acc := rfl
@[simp] theorem resetEngine_bitCnt (p : Nat) (k : Bool) (s : State) : (resetEngine p k s).bitCnt = State.reset.bitCnt := rfl
@[simp] theorem resetEngine_cur (p : Nat) (k : Bool) (s : State) : (resetEngine p k s).cur = State.reset.cur := rfl
@[simp] theorem resetEngine_decoded (p : Nat) (k : Bool) (s : State) : (resetEngine p k s).decoded = State.reset.decoded := rfl
@[simp] theorem resetEngine_runVal (p : Nat) (k : Bool) (s : State) : (resetEngine p k s).runVal = State.reset.runVal := rfl
@[simp] theorem resetEngine_runCnt (p : Nat) (k : Bool) (s : State) : (resetEngine p k s).runCnt = State.reset.runCnt := rfl
@[simp] theorem resetEngine_runValid (p : Nat) (k : Bool) (s : State) : (resetEngine p k s).runValid = State.reset.runValid := rfl
@[simp] theorem resetEngine_freq (p : Nat) (k : Bool) (s : State) : (resetEngine p k s).freq = State.reset.freq := rfl
@[simp] theorem resetEngine_arena (p : Nat) (k : Bool) (s : State) : (resetEngine p k s).arena = State.reset.arena := rfl
@[simp] theorem resetEngine_code (p : Nat) (k : Bool) (s : State) : (resetEngine p k s).code = State.reset.code := rfl
@[simp] theorem resetEngine_phase (p : Nat) (k : Bool) (s : State) : (resetEngine p k s).phase = State.reset.phase := rfl
@[simp] theorem resetEngine_input (p : Nat) (k : Bool) (s : State) : (resetEngine p k s).input = (withdraw p k s).input := rfl
@[simp] theorem resetEngine_inPos (p : Nat) (k : Bool) (s : State) : (resetEngine p k s).inPos = (withdraw p k s).inPos := rfl
@[simp] theorem resetEngine_output (p : Nat) (k : Bool) (s : State) : (resetEngine p k s).output = (withdraw p k s).output := rfl
@[simp] theorem resetEngine_answers (p : Nat) (k : Bool) (s : State) : (resetEngine p k s).answers = s.answers := rfl
@[simp] theorem resetEngine_serves (p : Nat) (k : Bool) (s : State) : (resetEngine p k s).serves = s.serves := rfl
@[simp] theorem resetEngine_program (p : Nat) (k : Bool) (s : State) : (resetEngine p k s).program = s.program := rfl
@[simp] theorem resetEngine_turns (p : Nat) (k : Bool) (s : State) : (resetEngine p k s).turns = s.turns := rfl
@[simp] theorem resetEngine_reads (p : Nat) (k : Bool) (s : State) : (resetEngine p k s).reads = s.reads := rfl

end Sys2Proof.Machine
end

