-- ==== Sys2Proof/Laws/Ops.lean ====
section
/-! SUPPORT. What the shared operations can do, said once: the three stream transactions, the host's answer, and the effect of an engine step on the streams. -/

namespace Sys2Proof.Machine

/-- The answer is not `Err`. -/
def Answer.good : Answer → Bool
  | .ok => true
  | .okChanged _ => true
  | .err _ _ => false

/-- The state after an `InRead` that returned a byte. -/
def afterByte (s : State) : State := { s with inPos := s.inPos + 1, inCount := s.inCount + 1 }

/-- The state after an `OutWrite(b)` that returned `Ok`. -/
def afterWrite (b : Byte) (s : State) : State := { s with output := s.output ++ [b], outCount := s.outCount + 1 }

@[simp] theorem rd_err (pos : Nat) (kept : Bool) (e : State → Result) (f : Byte → State → Result) (s : State) :
    rd (.err pos kept) e f s = .next (raise .ioFailure (errPosition pos s)) := rfl

theorem rd_eof {a : Answer} {e : State → Result} {f : Byte → State → Result} {s : State} (ha : a.good = true)
    (h : s.input.length ≤ s.inPos) : rd a e f s = e s := by
  have h' : s.input[s.inPos]? = none := by simpa using h
  cases a <;> simp_all [Answer.good, rd, inRead]

theorem rd_byte {a : Answer} {e : State → Result} {f : Byte → State → Result} {s : State} {b : Byte}
    (ha : a.good = true) (h : s.input[s.inPos]? = some b) : rd a e f s = f b (afterByte s) := by
  cases a <;> simp_all [Answer.good, rd, inRead, afterByte]

/-- An `rd!` ends in one of three ways. -/
theorem rd_cases (a : Answer) (e : State → Result) (f : Byte → State → Result) (s : State) :
    (∃ pos kept, a = .err pos kept ∧ rd a e f s = .next (raise .ioFailure (errPosition pos s))) ∨
    (a.good = true ∧ s.input.length ≤ s.inPos ∧ rd a e f s = e s) ∨
    ∃ b, a.good = true ∧ s.input[s.inPos]? = some b ∧ rd a e f s = f b (afterByte s) := by
  by_cases ha : a.good = true
  · by_cases h : s.input.length ≤ s.inPos
    · exact .inr (.inl ⟨ha, h, rd_eof ha h⟩)
    · have hb : s.input[s.inPos]? = some (s.input[s.inPos]'(by omega)) := List.getElem?_eq_getElem (by omega)
      exact .inr (.inr ⟨_, ha, hb, rd_byte ha hb⟩)
  · cases a with
    | err pos kept => exact .inl ⟨pos, kept, rfl, rfl⟩
    | ok => simp [Answer.good] at ha
    | okChanged bs => simp [Answer.good] at ha

@[simp] theorem wr_err (pos : Nat) (kept : Bool) (b : Byte) (k : State → Result) (s : State) :
    wr (.err pos kept) b k s =
      .next (raise .ioFailure (if kept then { s with output := s.output ++ [b] } else s)) := rfl

theorem wr_ok {a : Answer} {b : Byte} {k : State → Result} {s : State} (ha : a.good = true) :
    wr a b k s = k (afterWrite b s) := by
  cases a <;> simp_all [Answer.good, wr, outWrite, afterWrite]

/-- A `wr!` ends in one of two ways. -/
theorem wr_cases (a : Answer) (b : Byte) (k : State → Result) (s : State) :
    (∃ pos kept, a = .err pos kept ∧
      wr a b k s = .next (raise .ioFailure (if kept then { s with output := s.output ++ [b] } else s))) ∨
    (a.good = true ∧ wr a b k s = k (afterWrite b s)) := by
  cases a with
  | err pos kept => exact .inl ⟨pos, kept, rfl, rfl⟩
  | ok => exact .inr ⟨rfl, wr_ok rfl⟩
  | okChanged bs => exact .inr ⟨rfl, wr_ok rfl⟩

/-- Taking an answer changes `answers` alone. -/
theorem takeAnswer_state {s s1 : State} {a : Answer} (h : takeAnswer s = some (a, s1)) :
    s1 = { s with answers := s1.answers } := by
  unfold takeAnswer at h
  split at h
  · simp only [Option.some.injEq, Prod.mk.injEq] at h
    obtain ⟨-, rfl⟩ := h; rfl
  · split at h
    · simp only [Option.some.injEq, Prod.mk.injEq] at h
      obtain ⟨-, rfl⟩ := h; rfl
    · simp at h

theorem takeAnswer_honest {s : State} (h : Honest s) : takeAnswer s = some (.ok, s) := by
  simp [takeAnswer, h.1, h.2]

theorem takeAnswer_answering {s : State} (h : Answering s) : ∃ a s1, takeAnswer s = some (a, s1) ∧ Answering s1 := by
  unfold takeAnswer
  split
  · exact ⟨_, _, rfl, h⟩
  · have h' : s.serves = true := h
    simp only [h', ↓reduceIte]
    exact ⟨_, _, rfl, h⟩

theorem transact_some {k : Answer → State → Result} {s s1 : State} {a : Answer} (h : takeAnswer s = some (a, s1)) :
    transact k s = k a s1 := by
  simp [transact, h]

theorem transact_none {k : Answer → State → Result} {s : State} (h : takeAnswer s = none) :
    transact k s = .fault .unanswered := by
  simp [transact, h]

theorem transact_honest {k : Answer → State → Result} {s : State} (h : Honest s) : transact k s = k .ok s :=
  transact_some (takeAnswer_honest h)

/-! The meaning of each command in each phase of it. -/

theorem exec_rleEnc {s : State} {p : EncAt} (h : s.phase = .rleEnc p) : exec .cmpRle s = transact (encStep p) s := by
  simp only [exec, execCmpRle, h]

theorem exec_rleDec {s : State} {p : DecAt} (h : s.phase = .rleDec p) : exec .dcmpRle s = transact (decStep p) s := by
  simp only [exec, execDcmpRle, h]

theorem exec_hufPass1 {s : State} (h : s.phase = .hufPass1) :
    exec .cmpHuf s = transact (fun a => rd a pass1Eof pass1Byte) s := by
  simp only [exec, execCmpHuf, h]

theorem exec_hufHdrW {s : State} {b : Byte} {rest : List Byte} (h : s.phase = .hufHdrW b rest) :
    exec .cmpHuf s = transact (fun a => wr a b (writeAll .hufHdrW headerWritten rest)) s := by
  simp only [exec, execCmpHuf, h]

theorem exec_hufTabW {s : State} {b : Byte} {rest : List Byte} (h : s.phase = .hufTabW b rest) :
    exec .cmpHuf s = transact (fun a => wr a b (writeAll .hufTabW (issue .hufRewind) rest)) s := by
  simp only [exec, execCmpHuf, h]

theorem exec_hufRewind {s : State} (h : s.phase = .hufRewind) : exec .cmpHuf s = transact rewindStep s := by
  simp only [exec, execCmpHuf, h]

theorem exec_hufPass2 {s : State} {p : PackAt} (h : s.phase = .hufPass2 p) :
    exec .cmpHuf s = transact (pass2Step p) s := by
  simp only [exec, execCmpHuf, h]

theorem exec_hufFlush {s : State} (h : s.phase = .hufFlush) :
    exec .cmpHuf s = transact (fun a s' => wr a (flushByte s') (fun s'' => .next (finish (packInit s''))) s') s := by
  simp only [exec, execCmpHuf, h]

theorem exec_hufHdrR {s : State} {got : List Byte} (h : s.phase = .hufHdrR got) :
    exec .dcmpHuf s = transact (fun a => rdOr a .corruptHeader (headerByte got)) s := by
  simp only [exec, execDcmpHuf, h]

theorem exec_hufTabR {s : State} {left : Nat} {got : List Byte} (h : s.phase = .hufTabR left got) :
    exec .dcmpHuf s = transact (fun a => rdOr a .corruptFrequencyTable (tableByte left got)) s := by
  simp only [exec, execDcmpHuf, h]

theorem exec_hufBody {s : State} {p : BodyAt} (h : s.phase = .hufBody p) :
    exec .dcmpHuf s = transact (bodyStep p) s := by
  simp only [exec, execDcmpHuf, h]

end Sys2Proof.Machine
end

