-- ==== Sys2Proof/Laws/Body.lean ====
section
/-! SUPPORT. What the bit walk of the body does, said once: it stops at the first leaf or absent child, or uses the byte up (spec 47_bit_packer.md R470 to R474). -/

namespace Sys2Proof.Machine

theorem bitsBelow_length (byte : Byte) (k : Nat) : (bitsBelow byte k).length = k := by simp [bitsBelow]

theorem bitsBelow_succ (byte : Byte) (k : Nat) : bitsBelow byte (k + 1) = byte.getLsbD k :: bitsBelow byte k := by
  simp only [bitsBelow, List.range_succ_eq_map, List.map_cons, List.map_map]
  congr 1
  apply List.map_congr_left
  intro j _
  simp only [Function.comp_apply, Nat.succ_eq_add_one]
  congr 1
  omega

theorem childOf_some (a : Arena) (x : NodeId) (bit : Bool) : childOf a (some x) bit = branch a.node x bit := by
  cases bit <;> rfl

/-- A bit that leads to an internal node moves `CUR` there. -/
theorem walkBits_internal {byte : Byte} {k : Nat} {s : State} {x y : NodeId} (hc : s.cur = some x)
    (hb : branch s.arena.node x (byte.getLsbD k) = some y) (hk : (s.arena.node[y]).kind = .internal) :
    walkBits byte (k + 1) s = walkBits byte k { s with cur := some y } := by
  rw [walkBits, hc, childOf_some, hb]
  simp only [hk, reduceCtorEq, ↓reduceIte]

/-- A bit that leads to a leaf issues its symbol's write. -/
theorem walkBits_leaf {byte : Byte} {k : Nat} {s : State} {x y : NodeId} (hc : s.cur = some x)
    (hb : branch s.arena.node x (byte.getLsbD k) = some y) (hk : (s.arena.node[y]).kind = .leaf) :
    walkBits byte (k + 1) s = issue (.hufBody (.emit byte k)) { s with cur := some y } := by
  rw [walkBits, hc, childOf_some, hb]
  simp only [hk, ↓reduceIte]

/-- A bit that leads to no child raises `CorruptBody` (R472). -/
theorem walkBits_absent {byte : Byte} {k : Nat} {s : State} {x : NodeId} (hc : s.cur = some x)
    (hb : branch s.arena.node x (byte.getLsbD k) = none) :
    walkBits byte (k + 1) s = .next (raise .corruptBody s) := by
  rw [walkBits, hc, childOf_some, hb]

/-- Bits that lead through internal nodes move `CUR` along them and leave the other bits. -/
theorem walkBits_through {byte : Byte} {pre post : List Bool} {k : Nat} {s : State} {x z : NodeId} (hc : s.cur = some x)
    (hk : bitsBelow byte k = pre ++ post) (ht : Through s.arena.node x pre z) :
    walkBits byte k s = walkBits byte post.length { s with cur := some z } ∧ bitsBelow byte post.length = post := by
  induction pre generalizing k s x with
  | nil =>
    obtain rfl : x = z := ht
    have hk' : bitsBelow byte k = post := hk
    have hl : post.length = k := by rw [← hk', bitsBelow_length]
    rw [hl, ← hc]
    exact ⟨rfl, hk'⟩
  | cons bit pre ih =>
    obtain ⟨y, hb, hi, ht⟩ := ht
    cases k with
    | zero => simp [bitsBelow] at hk
    | succ k =>
      rw [bitsBelow_succ, List.cons_append, List.cons.injEq] at hk
      obtain ⟨rfl, hk⟩ := hk
      rw [walkBits_internal hc hb hi]
      exact ih (s := { s with cur := some y }) rfl hk ht

end Sys2Proof.Machine
end

