-- ==== Sys2Proof/Laws/Bytes.lean ====
section
/-! SUPPORT. Little-endian fields as numbers, both ways (spec 00_scope.md R10, 20_memory.md R113). -/

namespace Sys2Proof.Machine

theorem leValue_lt (bytes : List Byte) : leValue bytes < 2 ^ (8 * bytes.length) := by
  induction bytes with
  | nil => simp [leValue]
  | cons b rest ih =>
    have hb := b.isLt
    have e : 2 ^ (8 * (b :: rest).length) = 256 * 2 ^ (8 * rest.length) := by
      rw [List.length_cons, Nat.mul_add, Nat.pow_add]; omega
    rw [e, leValue]
    omega

/-- The value assembled from bytes (R10) is the number they stand for, if it fits. -/
theorem assembleLe_toNat {w : Nat} (bytes : List Byte) (h : 8 * bytes.length ≤ w) :
    (assembleLe w bytes).toNat = leValue bytes := by
  induction bytes with
  | nil => simp [assembleLe, leValue]
  | cons b rest ih =>
    rw [List.length_cons] at h
    have hb := b.isLt
    have hr := leValue_lt rest
    have hw : 2 ^ (8 * rest.length) * 256 ≤ 2 ^ w := by
      rw [show 256 = 2 ^ 8 from rfl, ← Nat.pow_add]
      exact Nat.pow_le_pow_right (by omega) (by omega)
    have h8 : 256 ≤ 2 ^ w := Nat.le_trans (Nat.le_mul_of_pos_left 256 (Nat.two_pow_pos _)) hw
    rw [assembleLe, BitVec.toNat_or, BitVec.toNat_shiftLeft, BitVec.toNat_setWidth, ih (by omega),
      Nat.mod_eq_of_lt (a := b.toNat) (by omega), Nat.shiftLeft_eq, Nat.mod_eq_of_lt (by omega), ← Nat.shiftLeft_eq,
      Nat.or_comm, ← Nat.shiftLeft_add_eq_or_of_lt hb, Nat.shiftLeft_eq, leValue]
    omega

/-- Byte `i` of a field (R10, R113) is `v / 256^i` modulo 256. -/
theorem bytesLe_getElem {w : Nat} (k : Nat) (v : BitVec w) {i : Nat} (h : i < k) :
    (bytesLe k v)[i]? = some (BitVec.ofNat 8 (v.toNat / 256 ^ i)) := by
  have e : v.extractLsb' (8 * i) 8 = BitVec.ofNat 8 (v.toNat / 256 ^ i) := by
    apply BitVec.eq_of_toNat_eq
    simp only [BitVec.extractLsb'_toNat, BitVec.toNat_ofNat, Nat.shiftRight_eq_div_pow]
    rw [Nat.pow_mul]
  simp [bytesLe, h, e]

end Sys2Proof.Machine
end

