-- ==== Sys2Proof/Laws/Heap.lean ====
section
/-! SUPPORT. What the heap operations do to the entries of the heap: they permute them, insert adds one, extract takes out the root's. -/

namespace Sys2Proof.Machine

theorem heapAt_eq (a : Arena) {i : Nat} (h : i < 256) : heapAt a i = a.heap[i] := by
  simp [heapAt, h]

theorem heapEntries_length {a : Arena} (h : a.hsize ≤ 256) : (heapEntries a).length = a.hsize := by
  simp [heapEntries, h]

theorem heapEntries_getElem {a : Arena} {i : Nat} (h : i < (heapEntries a).length) (h' : i < 256) :
    (heapEntries a)[i] = heapAt a i := by
  simp [heapEntries, heapAt_eq a h']

@[simp] theorem heapPut_node (a : Arena) (i : Nat) (h : NodeId) : (heapPut a i h).node = a.node := rfl
@[simp] theorem heapPut_nnodes (a : Arena) (i : Nat) (h : NodeId) : (heapPut a i h).nnodes = a.nnodes := rfl
@[simp] theorem heapPut_hsize (a : Arena) (i : Nat) (h : NodeId) : (heapPut a i h).hsize = a.hsize := rfl
@[simp] theorem heapPut_root (a : Arena) (i : Nat) (h : NodeId) : (heapPut a i h).root = a.root := rfl
@[simp] theorem heapSwap_node (a : Arena) (i j : Nat) : (heapSwap a i j).node = a.node := rfl
@[simp] theorem heapSwap_nnodes (a : Arena) (i j : Nat) : (heapSwap a i j).nnodes = a.nnodes := rfl
@[simp] theorem heapSwap_hsize (a : Arena) (i j : Nat) : (heapSwap a i j).hsize = a.hsize := rfl
@[simp] theorem heapSwap_root (a : Arena) (i j : Nat) : (heapSwap a i j).root = a.root := rfl

theorem heapEntries_put (a : Arena) (i : Nat) (h : NodeId) :
    heapEntries (heapPut a i h) = (heapEntries a).set i h := by
  simp [heapEntries, heapPut, List.take_set]

theorem heapEntries_swap_perm {a : Arena} {i j : Nat} (hi : i < a.hsize) (hj : j < a.hsize) (hs : a.hsize ≤ 256) :
    (heapEntries (heapSwap a i j)).Perm (heapEntries a) := by
  have li : i < (heapEntries a).length := by rw [heapEntries_length hs]; exact hi
  have lj : j < (heapEntries a).length := by rw [heapEntries_length hs]; exact hj
  rw [heapSwap, heapEntries_put, heapEntries_put, ← heapEntries_getElem li (by omega),
    ← heapEntries_getElem lj (by omega)]
  exact List.set_set_perm li lj

/-- What a climb or a descent does: it permutes the entries and touches nothing else. -/
structure Permuted (a b : Arena) : Prop where
  node : b.node = a.node
  nnodes : b.nnodes = a.nnodes
  hsize : b.hsize = a.hsize
  root : b.root = a.root
  perm : (heapEntries b).Perm (heapEntries a)

theorem Permuted.refl (a : Arena) : Permuted a a := ⟨rfl, rfl, rfl, rfl, .refl _⟩

theorem Permuted.trans {a b c : Arena} (h : Permuted a b) (k : Permuted b c) : Permuted a c :=
  ⟨k.node.trans h.node, k.nnodes.trans h.nnodes, k.hsize.trans h.hsize, k.root.trans h.root, k.perm.trans h.perm⟩

theorem heapSwap_permuted {a : Arena} {i j : Nat} (hi : i < a.hsize) (hj : j < a.hsize) (hs : a.hsize ≤ 256) :
    Permuted a (heapSwap a i j) := ⟨rfl, rfl, rfl, rfl, heapEntries_swap_perm hi hj hs⟩

theorem siftUp_permuted (fuel i : Nat) (a : Arena) (hi : i < a.hsize) (hs : a.hsize ≤ 256) :
    Permuted a (siftUp fuel i a) := by
  induction fuel generalizing i a with
  | zero => exact .refl a
  | succ fuel ih =>
    unfold siftUp
    split
    · have hp : heapParent i < a.hsize := by unfold heapParent; omega
      exact (heapSwap_permuted hi hp hs).trans (ih _ _ (by simpa using hp) (by simpa using hs))
    · exact .refl a

theorem smallerChild_lt {a : Arena} {i : Nat} (h : heapLeft i < a.hsize) : smallerChild a i < a.hsize := by
  unfold smallerChild
  split
  · rename_i hc; exact hc.1
  · exact h

theorem siftDown_permuted (fuel i : Nat) (a : Arena) (hi : i < a.hsize) (hs : a.hsize ≤ 256) :
    Permuted a (siftDown fuel i a) := by
  induction fuel generalizing i a with
  | zero => exact .refl a
  | succ fuel ih =>
    unfold siftDown
    split
    · exact .refl a
    · split
      · have hc : smallerChild a i < a.hsize := smallerChild_lt (by omega)
        exact (heapSwap_permuted hi hc hs).trans (ih _ _ (by simpa using hc) (by simpa using hs))
      · exact .refl a

/-- `HeapInsert` (R253) on a heap that is not full: it succeeds, and its handle joins the entries. -/
theorem heapInsert_spec {a : Arena} (h : NodeId) (hs : a.hsize < 256) :
    ∃ b, heapInsert h a = some b ∧ b.hsize = a.hsize + 1 ∧ (heapEntries b).Perm (h :: heapEntries a) ∧
      b.node = a.node ∧ b.nnodes = a.nnodes ∧ b.root = a.root := by
  have hp := siftUp_permuted a.hsize a.hsize { heapPut a a.hsize h with hsize := a.hsize + 1 }
    (by simp) (by simp; omega)
  refine ⟨_, by simp only [heapInsert, Config.heapCap, hs, ↓reduceIte], hp.hsize, ?_, hp.node, hp.nnodes, hp.root⟩
  refine hp.perm.trans ?_
  have : heapEntries { heapPut a a.hsize h with hsize := a.hsize + 1 } = heapEntries a ++ [h] := by
    simp only [heapEntries, heapPut, Vector.toList_setIfInBounds]
    rw [List.take_add_one, List.take_set_of_le (Nat.le_refl _)]
    simp [hs]
  rw [this]
  exact List.perm_append_singleton _ _

/-- `HeapExtractMin` (R254) on a heap that is not empty: it returns the root's handle and keeps the other entries. -/
theorem heapExtractMin_spec {a : Arena} (h0 : 0 < a.hsize) (hs : a.hsize ≤ 256) :
    ∃ b, heapExtractMin a = some (heapAt a 0, b) ∧ b.hsize + 1 = a.hsize ∧
      (heapEntries a).Perm (heapAt a 0 :: heapEntries b) ∧ b.node = a.node ∧ b.nnodes = a.nnodes ∧ b.root = a.root := by
  obtain ⟨k, hk⟩ : ∃ k, a.hsize = k + 1 := ⟨a.hsize - 1, by omega⟩
  have hsplit : heapEntries a = (heapEntries { a with hsize := k }) ++ [heapAt a k] := by
    have hk' : k < 256 := by omega
    simp only [heapEntries, hk]
    rw [List.take_add_one]
    simp [heapAt, hk']
  refine ⟨heapRefill { a with hsize := a.hsize - 1 }, by simp only [heapExtractMin, h0, ↓reduceIte], ?_⟩
  have e1 : a.hsize - 1 = k := by omega
  rw [e1]
  unfold heapRefill
  split
  · rename_i hk0
    have hk0' : 0 < k := hk0
    set a0 : Arena := { a with hsize := k } with ha0
    have hp := siftDown_permuted k 0 (heapPut a0 0 (heapAt a0 k)) (by simpa [ha0] using hk0') (by simp [ha0]; omega)
    refine ⟨by rw [hp.hsize]; simp [ha0]; omega, ?_, hp.node, hp.nnodes, hp.root⟩
    have hat : heapAt a0 k = heapAt a k := rfl
    have hl : (heapEntries a0).length = k := heapEntries_length (by simp [ha0]; omega)
    have hne : heapEntries a0 ≠ [] := by intro h; rw [h] at hl; simp at hl; omega
    obtain ⟨x, xs, hx⟩ := List.exists_cons_of_ne_nil hne
    have hx0 : x = heapAt a 0 := by
      have h1 : (heapEntries a0)[0]'(by omega) = heapAt a0 0 := heapEntries_getElem _ (by omega)
      have h2 : heapAt a0 0 = heapAt a 0 := rfl
      rw [h2] at h1
      simpa [hx] using h1
    rw [hsplit]
    refine List.Perm.trans ?_ (List.Perm.cons _ hp.perm.symm)
    rw [heapEntries_put, hx, hat, hx0]
    simp
  · rename_i hk0
    have hk0' : k = 0 := by simpa using hk0
    subst hk0'
    refine ⟨by simpa using hk.symm, ?_, rfl, rfl, rfl⟩
    rw [hsplit]
    simp [heapEntries]

end Sys2Proof.Machine
end

