-- ==== Sys2Proof/Laws/Tree.lean ====
section
/-! SUPPORT. What `BuildTree` builds, as a tree: every symbol of nonzero frequency is a leaf, every allocated node stands in the tree (spec 44_tree_builder.md R333 to R340). -/

namespace Sys2Proof.Machine

/-- A Huffman tree whose nodes carry their handles. `only` is the synthetic root of R335. -/
inductive HTree where
  | leaf (h : NodeId) (s : Byte)
  | only (h : NodeId) (l : HTree)
  | node (h : NodeId) (l r : HTree)
  deriving DecidableEq

namespace HTree

def rootId : HTree → NodeId
  | leaf h _ => h
  | only h _ => h
  | node h _ _ => h

/-- The symbols at the leaves, left to right. -/
def leaves : HTree → List Byte
  | leaf _ s => [s]
  | only _ l => l.leaves
  | node _ l r => l.leaves ++ r.leaves

/-- The handles of all nodes. -/
def ids : HTree → List NodeId
  | leaf h _ => [h]
  | only h l => h :: l.ids
  | node h l r => h :: (l.ids ++ r.ids)

/-- No node has a single child. -/
def Full : HTree → Prop
  | leaf _ _ => True
  | only _ _ => False
  | node _ l r => l.Full ∧ r.Full

/-- The length of the longest path to a leaf. -/
def depth : HTree → Nat
  | leaf _ _ => 0
  | only _ l => l.depth + 1
  | node _ l r => max l.depth r.depth + 1

/-- Each leaf's symbol with its path from the root, `false` for left (R380). -/
def paths : HTree → List (Byte × List Bool)
  | leaf _ s => [(s, [])]
  | only _ l => l.paths.map fun q => (q.1, false :: q.2)
  | node _ l r => (l.paths.map fun q => (q.1, false :: q.2)) ++ r.paths.map fun q => (q.1, true :: q.2)

theorem leaves_pos (t : HTree) : 0 < t.leaves.length := by
  induction t with
  | leaf h s => simp [leaves]
  | only h l ih => simpa [leaves] using ih
  | node h l r ihl ihr => simp [leaves]; omega

/-- A full tree is less deep than it has leaves (R340). -/
theorem depth_lt_leaves {t : HTree} (h : t.Full) : t.depth < t.leaves.length := by
  induction t with
  | leaf h s => simp [leaves, depth]
  | only h l ih => exact absurd h (by simp [Full])
  | node x l r ihl ihr =>
    have := ihl h.1
    have := ihr h.2
    have := leaves_pos l
    have := leaves_pos r
    simp only [leaves, depth, List.length_append]
    omega

theorem paths_fst (t : HTree) : t.paths.map Prod.fst = t.leaves := by
  induction t with
  | leaf h s => rfl
  | only h l ih => simpa [paths, leaves, Function.comp_def] using ih
  | node h l r ihl ihr =>
    simp only [paths, leaves, List.map_append, List.map_map, Function.comp_def]
    rw [← ihl, ← ihr]

theorem path_length_le {t : HTree} {q : Byte × List Bool} (h : q ∈ t.paths) : q.2.length ≤ t.depth := by
  induction t generalizing q with
  | leaf h s => simp [paths] at h; subst h; simp
  | only h l ih =>
    simp only [paths, List.mem_map] at h
    obtain ⟨q', hq, rfl⟩ := h
    have := ih hq
    simp [depth]; omega
  | node h l r ihl ihr =>
    simp only [paths, List.mem_append, List.mem_map] at h
    rcases h with ⟨q', hq, rfl⟩ | ⟨q', hq, rfl⟩
    · have := ihl hq; simp [depth]; omega
    · have := ihr hq; simp [depth]; omega

end HTree

/-- The arena holds the tree: leaves of `freq`'s frequencies, internal nodes over nodes allocated before them (R46). -/
def Stands (freq : Vector Word 256) (node : Vector Node 511) : HTree → Prop
  | .leaf h s => node[h] = ⟨.leaf, s, (entryAt freq s).setWidth 64, none, none⟩ ∧ entryAt freq s ≠ 0
  | .only h l =>
    node[h] = ⟨.internal, 0, (node[l.rootId]).freq, some l.rootId, none⟩ ∧ l.rootId.val < h.val ∧ Stands freq node l
  | .node h l r =>
    node[h] = ⟨.internal, 0, (node[l.rootId]).freq + (node[r.rootId]).freq, some l.rootId, some r.rootId⟩ ∧
      l.rootId.val < h.val ∧ r.rootId.val < h.val ∧ Stands freq node l ∧ Stands freq node r

/-- A standing tree stands on in any arena that agrees with it below a bound on its root. -/
theorem Stands.mono {freq : Vector Word 256} {node node' : Vector Node 511} {k : Nat}
    (hn : ∀ x : NodeId, x.val < k → node'[x] = node[x]) {t : HTree} (h : Stands freq node t)
    (ht : t.rootId.val < k) :
    Stands freq node' t := by
  induction t with
  | leaf x s =>
    refine ⟨?_, h.2⟩
    rw [hn x ht]; exact h.1
  | only x l ih =>
    have hl : l.rootId.val < k := lt_trans h.2.1 ht
    refine ⟨?_, h.2.1, ih h.2.2 hl⟩
    rw [hn x ht, hn _ hl]; exact h.1
  | node x l r ihl ihr =>
    have hl : l.rootId.val < k := lt_trans h.2.1 ht
    have hr : r.rootId.val < k := lt_trans h.2.2.1 ht
    refine ⟨?_, h.2.1, h.2.2.1, ihl h.2.2.2.1 hl, ihr h.2.2.2.2 hr⟩
    rw [hn x ht, hn _ hl, hn _ hr]; exact h.1

/-- The symbols of nonzero frequency, ascending (R332). -/
def presentSymbols (freq : Vector Word 256) : List Byte := allSymbols.filter fun s => entryAt freq s ≠ 0

/-- The heap holds the roots of the standing full trees `ts`. -/
structure Planted (freq : Vector Word 256) (ts : List HTree) (a : Arena) : Prop where
  hsize : a.hsize = ts.length
  roots : (heapEntries a).Perm (ts.map HTree.rootId)
  stands : ∀ t ∈ ts, Stands freq a.node t ∧ t.Full ∧ t.rootId.val < a.nnodes

/-- What `BuildTree` keeps: the heap's trees have the leaves `syms`, and their nodes are all the allocated ones. -/
structure Forest (freq : Vector Word 256) (syms : List Byte) (ts : List HTree) (a : Arena) : Prop where
  planted : Planted freq ts a
  leaves : (ts.flatMap HTree.leaves).Perm syms
  ids : ((ts.flatMap HTree.ids).map Fin.val).Perm (List.range a.nnodes)

/-- `NodeAlloc` (R331) in an arena that is not full. -/
theorem nodeAlloc_spec {a : Arena} (x : Node) (h : a.nnodes < 511) :
    ∃ b, nodeAlloc x a = some (⟨a.nnodes, h⟩, b) ∧ b.nnodes = a.nnodes + 1 ∧ b.hsize = a.hsize ∧
      heapEntries b = heapEntries a ∧ b.root = a.root ∧ b.node[(⟨a.nnodes, h⟩ : NodeId)] = x ∧
      ∀ y : NodeId, y.val < a.nnodes → b.node[y] = a.node[y] := by
  refine ⟨{ a with node := a.node.set a.nnodes x h, nnodes := a.nnodes + 1 }, by simp [nodeAlloc, h], rfl, rfl, rfl, rfl,
    by simp, ?_⟩
  intro y hy
  simp only [Fin.getElem_fin]
  rw [Vector.getElem_set_ne]
  omega

/-- Allocating a node over the forest and inserting it plants a tree. -/
theorem Planted.add {freq : Vector Word 256} {ts : List HTree} {a : Arena} {t : HTree} {x : Node}
    (hf : Planted freq ts a) (hn : a.nnodes < 511) (hs : a.hsize < 256) (hx : t.rootId = ⟨a.nnodes, hn⟩)
    (ht : ∀ node : Vector Node 511, node[(⟨a.nnodes, hn⟩ : NodeId)] = x →
      (∀ y : NodeId, y.val < a.nnodes → node[y] = a.node[y]) → Stands freq node t ∧ t.Full) :
    ∃ b c, nodeAlloc x a = some (⟨a.nnodes, hn⟩, b) ∧ heapInsert ⟨a.nnodes, hn⟩ b = some c ∧
      c.nnodes = a.nnodes + 1 ∧ c.root = a.root ∧ Planted freq (t :: ts) c := by
  obtain ⟨b, hb, b1, b2, b3, b4, b5, b6⟩ := nodeAlloc_spec x hn
  obtain ⟨c, hc, c1, c2, c3, c4, c5⟩ := heapInsert_spec (a := b) ⟨a.nnodes, hn⟩ (by omega)
  refine ⟨b, c, hb, hc, by omega, by rw [c5, b4], ⟨?_, ?_, ?_⟩⟩
  · rw [c1, b2, hf.hsize]; rfl
  · rw [List.map_cons, hx]
    refine c2.trans (List.Perm.cons _ ?_)
    rw [b3]; exact hf.roots
  · intro u hu
    rw [c3, c4, b1]
    rcases List.mem_cons.mp hu with rfl | hu
    · exact ⟨(ht _ b5 b6).1, (ht _ b5 b6).2, by rw [hx]; simp⟩
    · obtain ⟨h1, h2, h3⟩ := hf.stands u hu
      exact ⟨h1.mono b6 h3, h2, by omega⟩

/-- `HeapExtractMin` takes one tree out. -/
theorem Planted.extract {freq : Vector Word 256} {ts : List HTree} {a : Arena} (hf : Planted freq ts a)
    (h0 : 0 < a.hsize) (hs : a.hsize ≤ 256) :
    ∃ t us b, heapExtractMin a = some (t.rootId, b) ∧ ts.Perm (t :: us) ∧ b.hsize + 1 = a.hsize ∧
      b.nnodes = a.nnodes ∧ b.root = a.root ∧ b.node = a.node ∧ Planted freq us b ∧
      Stands freq a.node t ∧ t.Full ∧ t.rootId.val < a.nnodes := by
  obtain ⟨b, hb, h1, h2, h3, h4, h5⟩ := heapExtractMin_spec h0 hs
  have hm : heapAt a 0 ∈ ts.map HTree.rootId := (h2.symm.trans hf.roots).subset (List.mem_cons_self ..)
  obtain ⟨t, ht, hr⟩ := List.mem_map.mp hm
  have hp := List.perm_cons_erase ht
  refine ⟨t, ts.erase t, b, by rw [hb, hr], hp, h1, h4, h5, h3, ⟨?_, ?_, ?_⟩, hf.stands t ht⟩
  · have := hp.length_eq
    rw [← hf.hsize, List.length_cons] at this
    omega
  · have hq : (heapAt a 0 :: heapEntries b).Perm (heapAt a 0 :: (ts.erase t).map HTree.rootId) := by
      refine h2.symm.trans (hf.roots.trans ?_)
      have := hp.map HTree.rootId
      rw [List.map_cons, hr] at this
      exact this
    exact hq.cons_inv
  · intro u hu
    rw [h3, h4]
    exact hf.stands u (List.mem_of_mem_erase hu)

/-- Step 1 of `BuildTree` for one symbol (R333). -/
theorem addLeaf_forest {freq : Vector Word 256} {syms : List Byte} {ts : List HTree} {a : Arena} {s : Byte}
    (hf : Forest freq syms ts a) (h0 : entryAt freq s ≠ 0) (hn : a.nnodes < 511) (hs : a.hsize < 256) :
    ∃ b, addLeaf freq s a = some b ∧ b.nnodes = a.nnodes + 1 ∧ b.root = a.root ∧
      Forest freq (s :: syms) (.leaf ⟨a.nnodes, hn⟩ s :: ts) b := by
  obtain ⟨b, c, hb, hc, c1, c2, c3⟩ := hf.planted.add (t := .leaf ⟨a.nnodes, hn⟩ s) hn hs rfl
    (fun node h1 _ => ⟨⟨h1, h0⟩, trivial⟩)
  refine ⟨c, by simp only [addLeaf, h0, ↓reduceIte, hb, hc], c1, c2, ⟨c3, ?_, ?_⟩⟩
  · simpa [HTree.leaves] using hf.leaves
  · rw [c1, List.range_succ]
    simp only [List.flatMap_cons, HTree.ids, List.map_append, List.map_cons, List.map_nil]
    exact (List.perm_append_comm).trans (List.Perm.append_right _ hf.ids)

/-- Step 1 of `BuildTree` (R333): one leaf for each symbol present. -/
theorem addLeaves_forest {freq : Vector Word 256} (ss : List Byte) {syms : List Byte} {ts : List HTree} {a : Arena}
    (hf : Forest freq syms ts a) (hn : a.nnodes = ts.length)
    (hlen : ts.length + (ss.filter fun s => entryAt freq s ≠ 0).length ≤ 256) :
    ∃ b ts', addLeaves freq ss a = some b ∧ b.root = a.root ∧ b.nnodes = ts'.length ∧
      ts'.length = ts.length + (ss.filter fun s => entryAt freq s ≠ 0).length ∧
      Forest freq ((ss.filter fun s => entryAt freq s ≠ 0).reverse ++ syms) ts' b ∧
      ∀ t ∈ ts', t ∈ ts ∨ ∃ h s, t = .leaf h s := by
  induction ss generalizing syms ts a with
  | nil => exact ⟨a, ts, rfl, rfl, hn, rfl, hf, fun t h => .inl h⟩
  | cons s rest ih =>
    by_cases h0 : entryAt freq s = 0
    · rw [List.filter_cons_of_neg (by simpa using h0)] at hlen ⊢
      obtain ⟨b, ts', h1, h2⟩ := ih hf hn hlen
      refine ⟨b, ts', ?_, h2⟩
      simp only [addLeaves, addLeaf, h0, ↓reduceIte, h1]
    · rw [List.filter_cons_of_pos (by simpa using h0)] at hlen ⊢
      simp only [List.length_cons] at hlen ⊢
      obtain ⟨b, hb, b1, b2, b3⟩ := addLeaf_forest hf h0 (by omega) (by rw [hf.planted.hsize]; omega)
      obtain ⟨c, ts', h1, h2, h3, h4, h5, h6⟩ := ih b3 (by simp only [List.length_cons]; omega)
        (by simp only [List.length_cons]; omega)
      simp only [List.length_cons] at h4
      refine ⟨c, ts', by simp only [addLeaves, hb, h1], by rw [h2, b2], h3, by omega, by simpa using h5, ?_⟩
      intro t ht
      rcases h6 t ht with h | h
      · rcases List.mem_cons.mp h with rfl | h
        · exact .inr ⟨_, _, rfl⟩
        · exact .inl h
      · exact .inr h

/-- One merge (R337) of a forest of at least two trees. -/
theorem mergeOnce_forest {freq : Vector Word 256} {syms : List Byte} {ts : List HTree} {a : Arena}
    (hf : Forest freq syms ts a) (h1 : 1 < a.hsize) (hs : a.hsize ≤ 256) (hn : a.nnodes < 511) :
    ∃ b ts', mergeOnce a = some b ∧ b.hsize + 1 = a.hsize ∧ b.nnodes = a.nnodes + 1 ∧ b.root = a.root ∧
      Forest freq syms ts' b := by
  obtain ⟨x, us, a1, e1, p1, s1, n1, r1, m1, q1, x1, x2, x3⟩ := hf.planted.extract (by omega) hs
  obtain ⟨y, vs, a2, e2, p2, s2, n2, r2, m2, q2, y1, y2, y3⟩ := q1.extract (by omega) (by omega)
  have hn2 : a2.nnodes < 511 := by omega
  obtain ⟨b, c, hb, hc, c1, c2, c3⟩ := q2.add (t := .node ⟨a2.nnodes, hn2⟩ x y) (x := mergedNode a2 x.rootId y.rootId)
    hn2 (by omega) rfl (by
      intro node h2 h3
      have hx : Stands freq node x := Stands.mono h3 (by rw [m2, m1]; exact x1) (by omega)
      have hy : Stands freq node y := Stands.mono h3 (by rw [m2]; exact y1) (by omega)
      have hx3 : x.rootId.val < a2.nnodes := by omega
      have hy3 : y.rootId.val < a2.nnodes := by omega
      refine ⟨⟨?_, hx3, hy3, hx, hy⟩, x2, y2⟩
      rw [h2, h3 _ (by omega), h3 _ (by omega)]
      rfl)
  refine ⟨c, _, by simp only [mergeOnce, e1, e2, hb, hc], ?_, by omega, by rw [c2, r2, r1], ⟨c3, ?_, ?_⟩⟩
  · have h3 := c3.hsize
    have h4 := q2.hsize
    simp only [List.length_cons] at h3
    omega
  · refine List.Perm.trans ?_ hf.leaves
    refine List.Perm.trans ?_ ((p1.trans (List.Perm.cons _ p2)).flatMap_right HTree.leaves).symm
    simp [HTree.leaves]
  · have hr : List.range c.nnodes = List.range a.nnodes ++ [a.nnodes] := by
      rw [← List.range_succ, c1, n2, n1]
    rw [hr]
    have hp := ((p1.trans (List.Perm.cons _ p2)).flatMap_right HTree.ids).map Fin.val
    refine List.Perm.trans ?_ (List.perm_append_comm.trans (List.Perm.append_right [a.nnodes] (hp.symm.trans hf.ids)))
    simp [HTree.ids, n2, n1]

/-- `while HSIZE > 1` (R333): merging ends with one tree, having allocated one node for each merge. -/
theorem mergeAll_forest {freq : Vector Word 256} {syms : List Byte} (fuel : Nat) {ts : List HTree} {a : Arena}
    (hf : Forest freq syms ts a) (h0 : 0 < a.hsize) (hs : a.hsize ≤ 256) (hfuel : a.hsize ≤ fuel + 1)
    (hn : a.nnodes + a.hsize ≤ 512) :
    ∃ b t, mergeAll fuel a = some b ∧ b.hsize = 1 ∧ b.nnodes + 1 = a.nnodes + a.hsize ∧ b.root = a.root ∧
      Forest freq syms [t] b := by
  induction fuel generalizing ts a with
  | zero =>
    have h1 : ts.length = 1 := by rw [← hf.planted.hsize]; omega
    obtain ⟨t, rfl⟩ := List.length_eq_one_iff.mp h1
    exact ⟨a, t, rfl, by omega, by omega, rfl, hf⟩
  | succ fuel ih =>
    unfold mergeAll
    by_cases h1 : 1 < a.hsize
    · obtain ⟨b, ts', hb, b1, b2, b3, b4⟩ := mergeOnce_forest hf h1 hs (by omega)
      obtain ⟨c, t, h2, h3, h4, h5, h6⟩ := ih b4 (by omega) (by omega) (by omega) (by omega)
      exact ⟨c, t, by simp only [h1, ↓reduceIte, hb, h2], h3, by omega, by rw [h5, b3], h6⟩
    · have h2 : ts.length = 1 := by rw [← hf.planted.hsize]; omega
      obtain ⟨t, rfl⟩ := List.length_eq_one_iff.mp h2
      exact ⟨a, t, by simp only [h1, ↓reduceIte], by omega, by omega, rfl, hf⟩

theorem allSymbols_length : allSymbols.length = 256 := by simp [allSymbols]

theorem presentSymbols_length_le (freq : Vector Word 256) : (presentSymbols freq).length ≤ 256 :=
  allSymbols_length ▸ List.length_filter_le _ _

/-- What `BuildTree` leaves (R333): nothing, the synthetic root of R335, or one full tree with `2n - 1` nodes. -/
def BuiltTree (freq : Vector Word 256) (a : Arena) : Prop :=
  (presentSymbols freq = [] ∧ a.nnodes = 0 ∧ a.root = none) ∨
  (∃ s, presentSymbols freq = [s] ∧ a.nnodes = 2 ∧ a.root = some 1 ∧ Stands freq a.node (.only 1 (.leaf 0 s))) ∨
  ∃ t : HTree, 2 ≤ (presentSymbols freq).length ∧ t.Full ∧ Stands freq a.node t ∧ a.root = some t.rootId ∧
    a.nnodes + 1 = 2 * (presentSymbols freq).length ∧ t.leaves.Perm (presentSymbols freq) ∧
    (t.ids.map Fin.val).Perm (List.range a.nnodes)

/-- `BuildTree` (R333) always succeeds, whatever the arena held, and builds the tree. -/
theorem buildTree_spec (freq : Vector Word 256) (a : Arena) : ∃ b, buildTree freq a = some b ∧ BuiltTree freq b := by
  have hle := presentSymbols_length_le freq
  have h0 : Forest freq [] [] { heapInit a with nnodes := 0, root := none } :=
    ⟨⟨rfl, by simp [heapEntries, heapInit], by simp⟩, by simp, by simp⟩
  obtain ⟨b, ts, h1, h2, h3, h4, h5, h6⟩ := addLeaves_forest allSymbols h0 rfl
    (by simpa [presentSymbols] using hle)
  have hlen : ts.length = (presentSymbols freq).length := by simpa [presentSymbols] using h4
  have hperm : (ts.flatMap HTree.leaves).Perm (presentSymbols freq) := by
    refine h5.leaves.trans ?_
    simp [presentSymbols]
  simp only [buildTree, h1]
  by_cases c0 : b.nnodes = 0
  · refine ⟨b, by simp only [c0, ↓reduceIte], .inl ⟨?_, c0, by rw [h2]⟩⟩
    exact List.length_eq_zero_iff.mp (by omega)
  · by_cases c1 : b.nnodes = 1
    · have hts : ts.length = 1 := by omega
      obtain ⟨t, rfl⟩ := List.length_eq_one_iff.mp hts
      obtain ⟨h, s, rfl⟩ : ∃ h s, t = .leaf h s := by simpa using h6 t (by simp)
      have hs : presentSymbols freq = [s] := by
        have : [s].Perm (presentSymbols freq) := by simpa [HTree.leaves] using hperm
        exact List.singleton_perm.mp this |>.symm
      have hid : h = 0 := by
        have := h5.ids
        rw [c1] at this
        have h7 : [h.val].Perm [0] := by simpa [HTree.ids] using this
        have h8 : h.val = 0 := by simpa using List.singleton_perm_singleton.mp h7
        exact Fin.ext h8
      subst hid
      obtain ⟨st, -, -⟩ := h5.planted.stands (.leaf 0 s) (by simp)
      obtain ⟨d, hd, d1, d2, d3, d4, d5, d6⟩ :=
        nodeAlloc_spec (a := b) (⟨.internal, 0, nodeKey b 0, some 0, none⟩ : Node) (by omega)
      refine ⟨{ d with root := some 1 }, ?_, .inr (.inl ⟨s, hs, by simp only; omega, rfl, ?_⟩)⟩
      · simp only [c1, wrapSingle, hd]
        simp
      · have e1 : (⟨b.nnodes, by omega⟩ : NodeId) = 1 := Fin.ext c1
        refine ⟨?_, by simp [HTree.rootId], Stands.mono d6 st (by simp [HTree.rootId, c1])⟩
        have d7 : d.node[(1 : NodeId)] = ⟨.internal, 0, nodeKey b 0, some 0, none⟩ := by
          rw [← d5]; congr 1; exact Fin.ext c1.symm
        show d.node[(1 : NodeId)] = _
        rw [d7]
        simp only [HTree.rootId, nodeKey]
        rw [d6 0 (by simp [c1])]
    · have hh := h5.planted.hsize
      obtain ⟨c, t, e1, e2, e3, e4, e5⟩ := mergeAll_forest b.hsize h5 (by omega) (by omega) (by omega) (by omega)
      obtain ⟨u, us, d, f1, f2, f3, f4, f5, f6, f7, f8, f9, f10⟩ := e5.planted.extract (by omega) (by omega)
      have hu : u = t := by
        have := f2.length_eq
        have hus : us = [] := List.length_eq_zero_iff.mp (by simpa using this.symm)
        subst hus
        simpa using (List.singleton_perm_singleton.mp f2).symm
      subst hu
      refine ⟨{ d with root := some u.rootId }, ?_, .inr (.inr ⟨u, by omega, f9, by simpa [f6] using f8, rfl, ?_, ?_, ?_⟩)⟩
      · simp only [c0, c1, ↓reduceIte, e1, takeRoot, f1]
      · simp only [f4]; omega
      · refine List.Perm.trans ?_ (e5.leaves.trans ?_)
        · simp
        · simp [presentSymbols]
      · simpa [f4] using e5.ids

end Sys2Proof.Machine
end

