-- ==== Sys2Proof/Laws/Codes.lean ====
section
/-! SUPPORT. What `GenCodes` writes: each leaf's path, as a code table entry (spec 45_code_table.md R380 to R384, 10_state.md R48). -/

namespace Sys2Proof.Machine

/-- One descent of `Walk` (R381), as the entry it would store. -/
def CodeEntry.push (c : CodeEntry) (b : Bool) : CodeEntry := ⟨c.len + 1, if b then c.val <<< 1 ||| 1 else c.val <<< 1⟩

/-- The entry of a bit string. -/
def codeOf (bits : List Bool) : CodeEntry := bits.foldl CodeEntry.push ⟨0, 0⟩

theorem codeOf_append (bits : List Bool) (b : Bool) : codeOf (bits ++ [b]) = (codeOf bits).push b := by
  simp [codeOf]

theorem codeBits_push {c : CodeEntry} (b : Bool) (h : c.len.toNat < 255) : codeBits (c.push b) = codeBits c ++ [b] := by
  have hl : (c.push b).len.toNat = c.len.toNat + 1 := by
    simp only [CodeEntry.push, BitVec.toNat_add]
    exact Nat.mod_eq_of_lt (by simp; omega)
  unfold codeBits
  rw [hl, List.range_succ, List.map_append]
  congr 1
  · apply List.map_congr_left
    intro j hj
    have hj' := List.mem_range.mp hj
    have e1 : c.len.toNat + 1 - 1 - j = (c.len.toNat - 1 - j) + 1 := by omega
    have e2 : c.len.toNat - 1 - j + 1 < 255 := by omega
    rw [e1]
    have e3 : c.len.toNat - 1 - j < 255 := by omega
    cases b <;> simp [CodeEntry.push, e2, BitVec.getLsbD_eq_getElem e3]
  · simp only [List.map_cons, List.map_nil, List.cons.injEq, and_true]
    have e : c.len.toNat + 1 - 1 - c.len.toNat = 0 := by omega
    rw [e]
    cases b <;> simp [CodeEntry.push]

/-- An entry holds its bit string (R48), up to 255 bits. -/
theorem codeOf_spec (bits : List Bool) (h : bits.length ≤ 255) :
    (codeOf bits).len.toNat = bits.length ∧ codeBits (codeOf bits) = bits := by
  induction bits using List.reverseRecOn with
  | nil => exact ⟨rfl, rfl⟩
  | append_singleton bits b ih =>
    rw [List.length_append, List.length_singleton] at h
    obtain ⟨h1, h2⟩ := ih (by omega)
    rw [codeOf_append]
    refine ⟨?_, by rw [codeBits_push b (by omega), h2]⟩
    simp only [CodeEntry.push, BitVec.toNat_add, List.length_append, List.length_singleton]
    rw [h1]
    exact Nat.mod_eq_of_lt (by simp; omega)

/-- `Walk` (R381) stores the path of every leaf, below the path `pre` that led to the tree. -/
theorem walkCodes_eq {freq : Vector Word 256} {node : Vector Node 511} {t : HTree} (h : Stands freq node t) (fuel : Nat)
    (hf : t.depth < fuel) (pre : List Bool) (c : Vector CodeEntry 256) :
    walkCodes node fuel (some t.rootId) (codeOf pre).len (codeOf pre).val c =
      t.paths.foldl (fun c q => entryPut c q.1 (codeOf (pre ++ q.2))) c := by
  induction t generalizing fuel pre c with
  | leaf x s =>
    obtain ⟨fuel, rfl⟩ : ∃ k, fuel = k + 1 := ⟨fuel - 1, by omega⟩
    have hx : node[x] = _ := h.1
    simp [walkCodes, HTree.rootId, HTree.paths, hx]
  | only x l ih =>
    obtain ⟨fuel, rfl⟩ : ∃ k, fuel = k + 2 := ⟨fuel - 2, by simp only [HTree.depth] at hf; omega⟩
    have hx : node[x] = _ := h.1
    have hl := ih h.2.2 (fuel + 1) (by simp only [HTree.depth] at hf; omega) (pre ++ [false]) c
    rw [codeOf_append] at hl
    simp only [CodeEntry.push, Bool.false_eq_true, ↓reduceIte] at hl
    show walkCodes node (fuel + 2) (some x) _ _ c = _
    rw [walkCodes]
    simp only [hx, HTree.paths, List.foldl_map]
    rw [hl, walkCodes]
    simp
  | node x l r ihl ihr =>
    obtain ⟨fuel, rfl⟩ : ∃ k, fuel = k + 1 := ⟨fuel - 1, by omega⟩
    have hd : l.depth < fuel ∧ r.depth < fuel := by simp only [HTree.depth] at hf; omega
    have hx : node[x] = _ := h.1
    have hl := ihl h.2.2.2.1 fuel hd.1 (pre ++ [false]) c
    rw [codeOf_append] at hl
    simp only [CodeEntry.push, Bool.false_eq_true, ↓reduceIte] at hl
    have hr := ihr h.2.2.2.2 fuel hd.2 (pre ++ [true])
      (l.paths.foldl (fun c q => entryPut c q.1 (codeOf (pre ++ [false] ++ q.2))) c)
    rw [codeOf_append] at hr
    simp only [CodeEntry.push, ↓reduceIte] at hr
    show walkCodes node (fuel + 1) (some x) _ _ c = _
    rw [walkCodes]
    simp only [hx, HTree.paths, List.foldl_map, List.foldl_append]
    rw [hl, hr]
    simp

theorem entryAt_entryPut {α : Type} (t : Vector α 256) (b c : Byte) (x : α) :
    entryAt (entryPut t b x) c = if c = b then x else entryAt t c := by
  unfold entryAt entryPut
  rw [Vector.getElem_set]
  by_cases h : c = b
  · subst h; simp
  · have : b.toNat ≠ c.toNat := fun hh => h (BitVec.eq_of_toNat_eq hh.symm)
    simp [h, this]

/-- Entries put under other symbols leave an entry alone. -/
theorem foldl_entryPut_other {α : Type} {f : Byte × List Bool → α} {ps : List (Byte × List Bool)} {s : Byte}
    (h : s ∉ ps.map Prod.fst) (c : Vector α 256) :
    entryAt (ps.foldl (fun c q => entryPut c q.1 (f q)) c) s = entryAt c s := by
  induction ps generalizing c with
  | nil => rfl
  | cons q ps ih =>
    simp only [List.map_cons, List.mem_cons, not_or] at h
    rw [List.foldl_cons, ih h.2, entryAt_entryPut, if_neg h.1]

/-- Of entries put under distinct symbols each one stands. -/
theorem foldl_entryPut_mem {α : Type} {f : Byte × List Bool → α} {ps : List (Byte × List Bool)}
    (hn : (ps.map Prod.fst).Nodup) {q : Byte × List Bool} (hq : q ∈ ps) (c : Vector α 256) :
    entryAt (ps.foldl (fun c q => entryPut c q.1 (f q)) c) q.1 = f q := by
  induction ps generalizing c with
  | nil => simp at hq
  | cons p ps ih =>
    rw [List.map_cons, List.nodup_cons] at hn
    rw [List.foldl_cons]
    rcases List.mem_cons.mp hq with rfl | hq
    · rw [foldl_entryPut_other hn.1, entryAt_entryPut, if_pos rfl]
    · exact ih hn.2 hq _

namespace HTree

/-- No path of a full tree is a prefix of another leaf's. -/
theorem paths_prefix {t : HTree} {q p : Byte × List Bool} (hq : q ∈ t.paths) (hp : p ∈ t.paths) (h : q.2 <+: p.2) :
    q = p := by
  induction t generalizing q p with
  | leaf x s => simp only [paths, List.mem_singleton] at hq hp; rw [hq, hp]
  | only x l ih =>
    simp only [paths, List.mem_map] at hq hp
    obtain ⟨q, hq, rfl⟩ := hq
    obtain ⟨p, hp, rfl⟩ := hp
    have := ih hq hp (by simpa using h)
    rw [this]
  | node x l r ihl ihr =>
    simp only [paths, List.mem_append, List.mem_map] at hq hp
    rcases hq with ⟨q, hq, rfl⟩ | ⟨q, hq, rfl⟩ <;> rcases hp with ⟨p, hp, rfl⟩ | ⟨p, hp, rfl⟩
    · rw [ihl hq hp (by simpa using h)]
    · simp at h
    · simp at h
    · rw [ihr hq hp (by simpa using h)]

/-- Kraft's sum of a full tree is 1, scaled by `2^k` for any `k` that no path is longer than (R383). -/
theorem paths_kraft {t : HTree} (h : t.Full) (k : Nat) (hk : t.depth ≤ k) :
    (t.paths.map fun q => 2 ^ (k - q.2.length)).sum = 2 ^ k := by
  induction t generalizing k with
  | leaf x s => simp [paths]
  | only x l ih => exact absurd h (by simp [Full])
  | node x l r ihl ihr =>
    obtain ⟨k, rfl⟩ : ∃ j, k = j + 1 := ⟨k - 1, by simp only [depth] at hk; omega⟩
    have hd : l.depth ≤ k ∧ r.depth ≤ k := by simp only [depth] at hk; omega
    simp only [paths, List.map_append, List.map_map, Function.comp_def, List.sum_append, List.length_cons,
      Nat.add_sub_add_right]
    rw [ihl h.1 k hd.1, ihr h.2 k hd.2]
    omega

end HTree

/-- `GenCodes` (R381) on a standing tree with distinct symbols: each leaf's symbol has its path, and no other symbol has a
code (R384). -/
theorem genCodes_tree {freq : Vector Word 256} {a : Arena} {t : HTree} (ht : Stands freq a.node t)
    (hr : a.root = some t.rootId) (hd : t.depth < 512) (hn : t.leaves.Nodup) :
    (∀ q ∈ t.paths, entryAt (genCodes a) q.1 = codeOf q.2) ∧ ∀ s, s ∉ t.leaves → entryAt (genCodes a) s = ⟨0, 0⟩ := by
  have hw := walkCodes_eq ht (Config.nodeCap + 1) hd [] (Vector.replicate 256 ⟨0, 0⟩)
  have hg : genCodes a = t.paths.foldl (fun c q => entryPut c q.1 (codeOf q.2)) (Vector.replicate 256 ⟨0, 0⟩) := by
    rw [genCodes, hr]; exact hw
  rw [← HTree.paths_fst] at hn
  refine ⟨fun q hq => by rw [hg]; exact foldl_entryPut_mem hn hq _, fun s hs => ?_⟩
  rw [hg, foldl_entryPut_other (by rw [HTree.paths_fst]; exact hs)]
  simp [entryAt]

/-- The symbols present are distinct. -/
theorem presentSymbols_nodup (freq : Vector Word 256) : (presentSymbols freq).Nodup := by
  unfold presentSymbols
  apply List.Nodup.filter
  unfold allSymbols
  refine (List.nodup_range).map_on ?_
  intro x hx y hy h
  have hx' := List.mem_range.mp hx
  have hy' := List.mem_range.mp hy
  have := congrArg BitVec.toNat h
  simp only [BitVec.toNat_ofNat] at this
  omega

theorem mem_presentSymbols {freq : Vector Word 256} {s : Byte} : s ∈ presentSymbols freq ↔ entryAt freq s ≠ 0 := by
  have : s ∈ allSymbols := List.mem_map.mpr ⟨s.toNat, List.mem_range.mpr s.isLt, by simp⟩
  simp [presentSymbols, this]

end Sys2Proof.Machine
end

