-- ==== Sys2Proof/Laws/PerInstr.lean ====
section
/-! SUPPORT. The family `OpcodeRow`: each command's word lies in its own row of the opcode table and in the row of no other of the four commands (spec 30_encoding.md R151, R152). -/

namespace Sys2Proof.Laws.OpcodeRow

/-- The word of a well-formed command lies in its row, and any of the four commands whose row holds it is that command. -/
def Statement (i : Instr) : Prop :=
  i.wf = true → (opRow i).holds (encode i) = true ∧
    ∀ j ∈ [Instr.cmpRle, .dcmpRle, .cmpHuf, .dcmpHuf], (opRow j).holds (encode i) = true → j = i

theorem cmpRle : Statement .cmpRle := by unfold Statement; decide

theorem dcmpRle : Statement .dcmpRle := by unfold Statement; decide

theorem cmpHuf : Statement .cmpHuf := by unfold Statement; decide

theorem dcmpHuf : Statement .dcmpHuf := by unfold Statement; decide

theorem invalid (w : Word) : Statement (.invalid w) := by
  intro h
  refine ⟨by simp [opRow, OpRow.holds, encode], ?_⟩
  intro j hj hr
  have hw : w ∈ commandWords := by
    have hm : w &&& 0xFFFFFFFF#32 = w := BitVec.and_allOnes
    simp only [List.mem_cons, List.not_mem_nil, or_false] at hj
    rcases hj with rfl | rfl | rfl | rfl <;>
      simp only [opRow, OpRow.holds, encode, hm, beq_iff_eq] at hr <;> simp [commandWords, hr]
  simp [Instr.wf, hw] at h

end Sys2Proof.Laws.OpcodeRow
end

