-- ==== Sys2Proof/Laws/Quiet.lean ====
section
/-! SUPPORT. The computation between two transactions touches no stream, no counter and nothing of the host's side: one lemma per operation. -/

namespace Sys2Proof.Machine

/-- `t` has the streams, the two counters, `CMD` and the host's side of `s`. -/
structure SameStreams (s t : State) : Prop where
  cmd : t.cmd = s.cmd
  inCount : t.inCount = s.inCount
  outCount : t.outCount = s.outCount
  input : t.input = s.input
  inPos : t.inPos = s.inPos
  output : t.output = s.output
  answers : t.answers = s.answers
  serves : t.serves = s.serves
  program : t.program = s.program
  turns : t.turns = s.turns
  reads : t.reads = s.reads

theorem SameStreams.refl (s : State) : SameStreams s s := ⟨rfl, rfl, rfl, rfl, rfl, rfl, rfl, rfl, rfl, rfl, rfl⟩

theorem SameStreams.trans {s t u : State} (h : SameStreams s t) (k : SameStreams t u) : SameStreams s u :=
  ⟨k.cmd.trans h.cmd, k.inCount.trans h.inCount, k.outCount.trans h.outCount, k.input.trans h.input,
    k.inPos.trans h.inPos, k.output.trans h.output, k.answers.trans h.answers, k.serves.trans h.serves,
    k.program.trans h.program, k.turns.trans h.turns, k.reads.trans h.reads⟩

/-- A continuation that, when it answers a next state, leaves the streams as they are. -/
def Quiet (f : State → Result) : Prop := ∀ s t, f s = .next t → SameStreams s t

theorem next_sameStreams {s u t : State} (h : (Host.Outcome.next u : Result) = .next t) (k : SameStreams s u) :
    SameStreams s t := by
  cases h; exact k

theorem issue_sameStreams {p : Phase} {s u t : State} (h : issue p u = .next t) (k : SameStreams s u) :
    SameStreams s t := by
  cases h; exact k.trans ⟨rfl, rfl, rfl, rfl, rfl, rfl, rfl, rfl, rfl, rfl, rfl⟩

theorem issue_quiet (p : Phase) : Quiet (issue p) := fun s _ h => issue_sameStreams h (.refl s)

theorem finish_quiet : Quiet (fun s => .next (finish s)) := by
  intro s t h; cases h; exact ⟨rfl, rfl, rfl, rfl, rfl, rfl, rfl, rfl, rfl, rfl, rfl⟩

theorem raise_quiet (e : Error) : Quiet (fun s => .next (raise e s)) := by
  intro s t h; cases h; exact ⟨rfl, rfl, rfl, rfl, rfl, rfl, rfl, rfl, rfl, rfl, rfl⟩

/-- A quiet continuation after an update that leaves the streams. -/
theorem Quiet.after {f : State → Result} (hf : Quiet f) {s u t : State} (h : f u = .next t) (k : SameStreams s u) :
    SameStreams s t := k.trans (hf u t h)

theorem encLoopEnd_quiet : Quiet encLoopEnd := by
  intro s t h
  unfold encLoopEnd at h
  split at h <;> exact issue_quiet _ s t h

theorem encByte_quiet (b : Byte) : Quiet (encByte b) := by
  intro s t h
  unfold encByte at h
  split at h
  · exact encLoopEnd_quiet.after (s := s) h ⟨rfl, rfl, rfl, rfl, rfl, rfl, rfl, rfl, rfl, rfl, rfl⟩
  · split at h
    · exact encLoopEnd_quiet.after (s := s) h ⟨rfl, rfl, rfl, rfl, rfl, rfl, rfl, rfl, rfl, rfl, rfl⟩
    · exact issue_quiet _ s t h

theorem encEof_quiet : Quiet encEof := by
  intro s t h
  unfold encEof at h
  split at h
  · exact issue_quiet _ s t h
  · exact finish_quiet s t h

theorem encClosed_quiet (why : RunClose) : Quiet (encClosed why) := by
  intro s t h
  cases why with
  | differs b => exact encLoopEnd_quiet.after (s := s) h ⟨rfl, rfl, rfl, rfl, rfl, rfl, rfl, rfl, rfl, rfl, rfl⟩
  | cap => exact issue_sameStreams (s := s) h ⟨rfl, rfl, rfl, rfl, rfl, rfl, rfl, rfl, rfl, rfl, rfl⟩
  | atEof => exact finish_quiet s t h

theorem decEmit_quiet (v : Byte) (left : Nat) : Quiet (decEmit v left) := by
  intro s t h
  cases left <;> exact issue_quiet _ s t h

theorem writeAll_quiet {mk : Byte → List Byte → Phase} {done : State → Result} (hd : Quiet done) (bytes : List Byte) :
    Quiet (writeAll mk done bytes) := by
  intro s t h
  cases bytes with
  | nil => exact hd s t h
  | cons b rest => exact issue_quiet _ s t h

theorem packFlush_quiet : Quiet packFlush := by
  intro s t h
  unfold packFlush at h
  split at h
  · exact issue_quiet _ s t h
  · exact finish_quiet s t h

theorem pass2Loop_quiet : Quiet pass2Loop := by
  intro s t h
  unfold pass2Loop at h
  split at h
  · exact packFlush_quiet s t h
  · exact issue_quiet _ s t h

theorem pass2Packed_quiet : Quiet pass2Packed := fun s _ h =>
  pass2Loop_quiet.after (s := s) h ⟨rfl, rfl, rfl, rfl, rfl, rfl, rfl, rfl, rfl, rfl, rfl⟩

theorem packBits_quiet {done : State → Result} (hd : Quiet done) (bits : List Bool) : Quiet (packBits done bits) := by
  induction bits with
  | nil => exact hd
  | cons b rest ih =>
    intro s t h
    unfold packBits at h
    split at h
    · exact issue_sameStreams (s := s) h ⟨rfl, rfl, rfl, rfl, rfl, rfl, rfl, rfl, rfl, rfl, rfl⟩
    · exact ih.after (s := s) h ⟨rfl, rfl, rfl, rfl, rfl, rfl, rfl, rfl, rfl, rfl, rfl⟩

theorem pass2Byte_quiet (b : Byte) : Quiet (pass2Byte b) := by
  intro s t h
  unfold pass2Byte at h
  split at h
  · exact raise_quiet _ s t h
  · exact packBits_quiet pass2Packed_quiet _ s t h

theorem pass2Start_quiet : Quiet pass2Start := fun s _ h =>
  pass2Loop_quiet.after (s := s) h ⟨rfl, rfl, rfl, rfl, rfl, rfl, rfl, rfl, rfl, rfl, rfl⟩

theorem writeTable_quiet : Quiet writeTable := fun s t h => writeAll_quiet (issue_quiet _) _ s t h

theorem headerWritten_quiet : Quiet headerWritten := by
  intro s t h
  unfold headerWritten at h
  split at h
  · exact finish_quiet s t h
  · exact writeTable_quiet s t h

theorem writeHeader_quiet : Quiet writeHeader := fun s t h => writeAll_quiet headerWritten_quiet _ s t h

theorem pass1Eof_quiet : Quiet pass1Eof := by
  intro s t h
  unfold pass1Eof at h
  split at h
  · exact writeHeader_quiet.after (s := s) h ⟨rfl, rfl, rfl, rfl, rfl, rfl, rfl, rfl, rfl, rfl, rfl⟩
  · split at h
    · cases h
    · exact writeHeader_quiet.after (s := s) h ⟨rfl, rfl, rfl, rfl, rfl, rfl, rfl, rfl, rfl, rfl, rfl⟩

theorem pass1Byte_quiet (b : Byte) : Quiet (pass1Byte b) := by
  intro s t h
  unfold pass1Byte at h
  split at h
  · exact raise_quiet _ s t h
  · exact issue_sameStreams (s := s) h ⟨rfl, rfl, rfl, rfl, rfl, rfl, rfl, rfl, rfl, rfl, rfl⟩

theorem bodyStart_quiet : Quiet bodyStart := fun s _ h =>
  issue_sameStreams (s := s) h ⟨rfl, rfl, rfl, rfl, rfl, rfl, rfl, rfl, rfl, rfl, rfl⟩

theorem tableRead_quiet : Quiet tableRead := by
  intro s t h
  unfold tableRead at h
  split at h
  · exact raise_quiet _ s t h
  · split at h
    · cases h
    · exact bodyStart_quiet.after (s := s) h ⟨rfl, rfl, rfl, rfl, rfl, rfl, rfl, rfl, rfl, rfl, rfl⟩

theorem tableByte_quiet (left : Nat) (got : List Byte) (b : Byte) : Quiet (tableByte left got b) := by
  intro s t h
  unfold tableByte at h
  split at h
  · exact issue_quiet _ s t h
  · split at h
    · exact tableRead_quiet.after (s := s) h ⟨rfl, rfl, rfl, rfl, rfl, rfl, rfl, rfl, rfl, rfl, rfl⟩
    · exact issue_sameStreams (s := s) h ⟨rfl, rfl, rfl, rfl, rfl, rfl, rfl, rfl, rfl, rfl, rfl⟩

theorem headerRead_quiet : Quiet headerRead := by
  intro s t h
  unfold headerRead at h
  split at h
  · exact finish_quiet s t h
  · exact issue_sameStreams (s := s) h ⟨rfl, rfl, rfl, rfl, rfl, rfl, rfl, rfl, rfl, rfl, rfl⟩

theorem interpretCount_sameStreams (s : State) : SameStreams s (interpretCount s) := by
  unfold interpretCount
  split <;> exact ⟨rfl, rfl, rfl, rfl, rfl, rfl, rfl, rfl, rfl, rfl, rfl⟩

theorem headerByte_quiet (got : List Byte) (b : Byte) : Quiet (headerByte got b) := by
  intro s t h
  unfold headerByte at h
  split at h
  · split at h
    · exact issue_quiet _ s t h
    · exact raise_quiet _ s t h
  · split at h
    · exact issue_sameStreams (s := s) h ⟨rfl, rfl, rfl, rfl, rfl, rfl, rfl, rfl, rfl, rfl, rfl⟩
    · split at h
      · exact headerRead_quiet.after (s := s) h
          (SameStreams.trans (t := { s with origSize := assembleLe 64 ((got ++ [b]).drop 5) }) ⟨rfl, rfl, rfl, rfl, rfl, rfl, rfl, rfl, rfl, rfl, rfl⟩
            (interpretCount_sameStreams _))
      · exact issue_quiet _ s t h

theorem walkBits_quiet (byte : Byte) (k : Nat) : Quiet (walkBits byte k) := by
  induction k with
  | zero => exact issue_quiet _
  | succ k ih =>
    intro s t h
    unfold walkBits at h
    split at h
    · exact raise_quiet _ s t h
    · split at h
      · exact issue_sameStreams (s := s) h ⟨rfl, rfl, rfl, rfl, rfl, rfl, rfl, rfl, rfl, rfl, rfl⟩
      · exact ih.after (s := s) h ⟨rfl, rfl, rfl, rfl, rfl, rfl, rfl, rfl, rfl, rfl, rfl⟩

theorem bodyWritten_quiet (byte : Byte) (left : Nat) : Quiet (bodyWritten byte left) := by
  intro s t h
  unfold bodyWritten at h
  split at h
  · cases h; exact ⟨rfl, rfl, rfl, rfl, rfl, rfl, rfl, rfl, rfl, rfl, rfl⟩
  · exact (walkBits_quiet byte left).after (s := s) h ⟨rfl, rfl, rfl, rfl, rfl, rfl, rfl, rfl, rfl, rfl, rfl⟩

end Sys2Proof.Machine
end

