-- ==== Sys2Proof/Laws/Sift.lean ====
section
/-! SUPPORT. Where the climb and the descent of the heap put every entry, ties included (spec 42_minheap.md R253, R254, R257). -/

namespace Sys2Proof.Machine

theorem heapAt_put (a : Arena) {i : Nat} (h : NodeId) (hi : i < 256) (k : Nat) :
    heapAt (heapPut a i h) k = if k = i then h else heapAt a k := by
  simp only [heapAt, heapPut, Vector.getElem?_setIfInBounds]
  by_cases hk : k = i
  · subst hk; simp [hi]
  · simp [hk, Ne.symm hk]

theorem heapAt_swap (a : Arena) {i j : Nat} (hi : i < 256) (hj : j < 256) (k : Nat) :
    heapAt (heapSwap a i j) k = if k = j then heapAt a i else if k = i then heapAt a j else heapAt a k := by
  rw [heapSwap, heapAt_put _ _ hj, heapAt_put _ _ hi]

theorem nodeKey_swap (a : Arena) (i j : Nat) (h : NodeId) : nodeKey (heapSwap a i j) h = nodeKey a h := rfl

theorem heapKey_congr {a b : Arena} (hn : b.node = a.node) {i : Nat} (h : heapAt b i = heapAt a i) :
    heapKey b i = heapKey a i := by
  simp only [heapKey, nodeKey, hn, h]

/-! The climb. -/

theorem ancestor_le (j i : Nat) : ancestor j i ≤ i := by
  induction j with
  | zero => exact Nat.le_refl i
  | succ j ih => rw [ancestor]; omega

theorem ancestor_succ_lt {j i : Nat} (h : 0 < ancestor j i) : ancestor (j + 1) i < i := by
  have := ancestor_le j i
  rw [ancestor]; omega

theorem ancestor_parent (j i : Nat) : ancestor j (heapParent i) = ancestor (j + 1) i := by
  induction j with
  | zero => rfl
  | succ j ih => rw [ancestor, ih]; rfl

theorem siftUp_climbed (fuel i : Nat) (a : Arena) (hf : i ≤ fuel) (hi : i < 256) :
    Climbed a (heapAt a i) i (siftUp fuel i a) := by
  have stay : (0 < i → (heapKey a (heapParent i)).toNat ≤ (heapKey a i).toNat) → Climbed a (heapAt a i) i a :=
    fun h => ⟨0, by simp, h, rfl, by simp, fun _ _ => rfl⟩
  induction fuel generalizing i a with
  | zero => exact stay fun h => by omega
  | succ fuel ih =>
    unfold siftUp
    split
    · rename_i hc
      obtain ⟨h0, hk⟩ := hc
      have hp : heapParent i < i := by unfold heapParent; omega
      have sw := heapAt_swap a hi (show heapParent i < 256 by omega)
      have hold : heapAt (heapSwap a i (heapParent i)) (heapParent i) = heapAt a i := by rw [sw]; simp
      have key : ∀ {k}, k < heapParent i → heapKey (heapSwap a i (heapParent i)) k = heapKey a k := fun {k} hlt =>
        heapKey_congr (a := a) (b := heapSwap a i (heapParent i)) rfl (by rw [sw, if_neg (by omega), if_neg (by omega)])
      have hih := ih (heapParent i) (heapSwap a i (heapParent i)) (by omega) (by omega) (by
        intro h
        refine ⟨0, by simp, h, rfl, by simp, fun _ _ => rfl⟩)
      rw [hold] at hih
      obtain ⟨m, m1, m2, m3, m4, m5⟩ := hih
      simp only [ancestor_parent, nodeKey_swap] at m1 m2 m3 m4 m5
      refine ⟨m + 1, ?_, ?_, m3, ?_, ?_⟩
      · intro j hj
        cases j with
        | zero => exact ⟨h0, hk⟩
        | succ j =>
          obtain ⟨q1, q2⟩ := m1 j (by omega)
          refine ⟨q1, ?_⟩
          rwa [key (by rw [← ancestor_parent]; exact ancestor_succ_lt (by rw [ancestor_parent]; exact q1))] at q2
      · intro hm
        have q := m2 hm
        rwa [key (by rw [← ancestor_parent]; exact ancestor_succ_lt (by rw [ancestor_parent]; exact hm))] at q
      · intro j hj
        cases j with
        | zero =>
          show heapAt _ i = heapAt a (heapParent i)
          rw [m5 i fun j _ => ?_, sw, if_neg (by omega), if_pos rfl]
          have := ancestor_le j (heapParent i)
          rw [ancestor_parent] at this
          omega
        | succ j =>
          have q1 := (m1 j (by omega)).1
          have q2 : ancestor (j + 1 + 1) i < heapParent i := by
            rw [← ancestor_parent]; exact ancestor_succ_lt (by rw [ancestor_parent]; exact q1)
          rw [m4 j (by omega), sw, if_neg (by omega), if_neg (by omega)]
      · intro k hk
        have k0 : k ≠ i := hk 0 (by omega)
        have k1 : k ≠ heapParent i := hk 1 (by omega)
        rw [m5 k fun j hj => hk (j + 1) (by omega), sw, if_neg k1, if_neg k0]
    · rename_i hc
      exact stay fun h0 => by
        have : ¬ heapKey a i < heapKey a (heapParent i) := fun hk => hc ⟨h0, hk⟩
        simpa [BitVec.lt_def] using this

/-- `HeapInsert` (R253): where every entry stands after it. -/
theorem heapInsert_climbed {a b : Arena} {h : NodeId} (hs : a.hsize < 256) (hb : heapInsert h a = some b) :
    Climbed a h a.hsize b := by
  simp only [heapInsert, Config.heapCap, hs, ↓reduceIte, Option.some.injEq] at hb
  subst hb
  set c : Arena := { heapPut a a.hsize h with hsize := a.hsize + 1 } with hcdef
  have at' : ∀ k, heapAt c k = if k = a.hsize then h else heapAt a k := heapAt_put a h hs
  have hh : heapAt c a.hsize = h := by rw [at']; simp
  have hc := siftUp_climbed a.hsize a.hsize c (Nat.le_refl _) hs
  rw [hh] at hc
  obtain ⟨m, m1, m2, m3, m4, m5⟩ := hc
  have low : ∀ {k}, k < a.hsize → heapAt c k = heapAt a k := fun hk => by rw [at', if_neg (by omega)]
  refine ⟨m, ?_, ?_, m3, ?_, ?_⟩
  · intro j hj
    obtain ⟨q1, q2⟩ := m1 j hj
    exact ⟨q1, by rwa [heapKey_congr (a := a) (b := c) rfl (low (ancestor_succ_lt q1))] at q2⟩
  · intro hm
    have q := m2 hm
    rwa [heapKey_congr (a := a) (b := c) rfl (low (ancestor_succ_lt hm))] at q
  · intro j hj
    rw [m4 j hj, low (ancestor_succ_lt (m1 j hj).1)]
  · intro k hk
    have : k ≠ a.hsize := hk 0 (Nat.zero_le _)
    rw [m5 k hk, at', if_neg this]

/-! The descent. -/

theorem leastChild_gt (a : Arena) (n i : Nat) : i < leastChild a n i := by
  unfold leastChild; split <;> omega

theorem le_descent (a : Arena) (n j i : Nat) : i ≤ descent a n j i := by
  induction j with
  | zero => exact Nat.le_refl i
  | succ j ih => rw [descent]; have := leastChild_gt a n (descent a n j i); omega

theorem descent_child (a : Arena) (n j i : Nat) : descent a n j (leastChild a n i) = descent a n (j + 1) i := by
  induction j with
  | zero => rfl
  | succ j ih => rw [descent, ih]; rfl

theorem smallerChild_eq (a : Arena) (i : Nat) : smallerChild a i = leastChild a a.hsize i := by
  simp [smallerChild, leastChild, heapRight, heapLeft, BitVec.lt_def]

/-- Below `q` the descent depends on the entries below `q` alone. -/
theorem descent_congr {a b : Arena} (n : Nat) {q : Nat} (h : ∀ k, q < k → heapKey b k = heapKey a k) (j : Nat) :
    descent b n j q = descent a n j q := by
  induction j with
  | zero => rfl
  | succ j ih =>
    have := le_descent a n j q
    rw [descent, ih, descent, leastChild, leastChild, h _ (by omega), h _ (by omega)]

theorem siftDown_sunk (fuel i : Nat) (a : Arena) (hf : a.hsize ≤ i + fuel) (hs : a.hsize ≤ 256) (hi : i < 256) :
    Sunk a (heapAt a i) a.hsize i (siftDown fuel i a) := by
  induction fuel generalizing i a with
  | zero => exact ⟨0, by simp, fun h => by simp only [descent] at h; omega, rfl, by simp, fun _ _ => rfl⟩
  | succ fuel ih =>
    unfold siftDown
    split
    · rename_i hl
      exact ⟨0, by simp, fun h => by simp only [descent, heapLeft] at h hl; omega, rfl, by simp, fun _ _ => rfl⟩
    · rename_i hl
      have hlt : 2 * i + 1 < a.hsize := by unfold heapLeft at hl; omega
      rw [smallerChild_eq]
      split
      · rename_i hk
        set c := leastChild a a.hsize i with hc
        have hci : i < c := leastChild_gt a a.hsize i
        have hcn : c < a.hsize := by
          have := smallerChild_lt (a := a) (i := i) (by unfold heapLeft; omega)
          rwa [smallerChild_eq, ← hc] at this
        have sw := heapAt_swap a hi (show c < 256 by omega)
        have hold : heapAt (heapSwap a i c) c = heapAt a i := by rw [sw]; simp
        have high : ∀ k, c < k → heapAt (heapSwap a i c) k = heapAt a k := fun k h => by
          rw [sw, if_neg (by omega), if_neg (by omega)]
        have key : ∀ k, c < k → heapKey (heapSwap a i c) k = heapKey a k := fun k h =>
          heapKey_congr (a := a) (b := heapSwap a i c) rfl (high k h)
        have hih := ih c (heapSwap a i c) (by simp only [heapSwap_hsize]; omega) (by simpa using hs) (by omega)
        rw [hold, heapSwap_hsize] at hih
        obtain ⟨m, m1, m2, m3, m4, m5⟩ := hih
        simp only [descent_congr a.hsize key, nodeKey_swap] at m1 m2 m3 m4 m5
        have dc : ∀ j, descent a a.hsize j c = descent a a.hsize (j + 1) i := fun j => by rw [hc, descent_child]
        have below : ∀ j, c < descent a a.hsize (j + 1) c := fun j => by
          have h1 := le_descent a a.hsize j c
          have h2 := leastChild_gt a a.hsize (descent a a.hsize j c)
          rw [descent]; omega
        simp only [key _ (below _)] at m1 m2
        refine ⟨m + 1, ?_, ?_, by rw [← dc]; exact m3, ?_, ?_⟩
        · intro j hj
          cases j with
          | zero => exact ⟨hlt, hk⟩
          | succ j => rw [← dc, ← dc]; exact m1 j (by omega)
        · rw [← dc, ← dc]; exact m2
        · intro j hj
          cases j with
          | zero =>
            show heapAt _ i = heapAt a c
            rw [m5 i fun j _ => ?_, sw, if_neg (by omega), if_pos rfl]
            have := le_descent a a.hsize j c
            omega
          | succ j => rw [← dc, ← dc, m4 j (by omega), high _ (below j)]
        · intro k hk'
          have k0 : k ≠ i := hk' 0 (by omega)
          have k1 : k ≠ c := hk' 1 (by omega)
          rw [m5 k fun j hj => by rw [dc]; exact hk' (j + 1) (by omega), sw, if_neg k1, if_neg k0]
      · rename_i hk
        refine ⟨0, by simp, fun _ => ?_, rfl, by simp, fun _ _ => rfl⟩
        exact Nat.le_of_not_lt fun h => hk (BitVec.lt_def.mpr h)

/-- `HeapExtractMin` (R254): where every remaining entry stands after it. -/
theorem heapExtractMin_sunk {a b : Arena} {x : NodeId} (hs : a.hsize ≤ 256) (hb : heapExtractMin a = some (x, b)) :
    x = heapAt a 0 ∧ b.hsize = a.hsize - 1 ∧
      (0 < b.hsize → Sunk a (heapAt a b.hsize) b.hsize 0 b) := by
  unfold heapExtractMin at hb
  split at hb
  · rename_i h0
    simp only [Option.some.injEq, Prod.mk.injEq] at hb
    obtain ⟨hx, hb⟩ := hb
    obtain ⟨d, hd, hsz, -⟩ := heapExtractMin_spec h0 hs
    simp only [heapExtractMin, h0, ↓reduceIte, Option.some.injEq, Prod.mk.injEq] at hd
    rw [hb] at hd
    have hn : b.hsize = a.hsize - 1 := by rw [hd.2]; omega
    refine ⟨hx.symm, hn, fun hpos => ?_⟩
    rw [hn] at hpos ⊢
    rw [heapRefill, if_pos hpos] at hb
    subst hb
    set c : Arena := heapPut { a with hsize := a.hsize - 1 } 0 (heapAt { a with hsize := a.hsize - 1 } (a.hsize - 1)) with hc
    have at' : ∀ k, heapAt c k = if k = 0 then heapAt a (a.hsize - 1) else heapAt a k :=
      heapAt_put { a with hsize := a.hsize - 1 } _ (by omega)
    have key : ∀ k, 0 < k → heapKey c k = heapKey a k := fun k h =>
      heapKey_congr (a := a) (b := c) rfl (by rw [at', if_neg (Nat.pos_iff_ne_zero.mp h)])
    have hsk := siftDown_sunk (a.hsize - 1) 0 c (by simp [hc]) (by simp [hc]; omega) (by omega)
    have e : heapAt c 0 = heapAt a (a.hsize - 1) := by rw [at']; simp
    have e2 : c.hsize = a.hsize - 1 := rfl
    rw [e, e2] at hsk
    obtain ⟨m, m1, m2, m3, m4, m5⟩ := hsk
    simp only [descent_congr (a.hsize - 1) key] at m1 m2 m3 m4 m5
    have below : ∀ j, 0 < descent a (a.hsize - 1) (j + 1) 0 := fun j => by
      rw [descent]; have := leastChild_gt a (a.hsize - 1) (descent a (a.hsize - 1) j 0); omega
    simp only [key _ (below _)] at m1 m2
    refine ⟨m, m1, m2, m3, fun j hj => ?_, fun k hk => ?_⟩
    · rw [m4 j hj, at', if_neg (by have := below j; omega)]
    · have : k ≠ 0 := hk 0 (Nat.zero_le _)
      rw [m5 k hk, at', if_neg this]
  · cases hb

end Sys2Proof.Machine
end

