-- ==== Sys2Proof/Laws/Steps.lean ====
section
/-! SUPPORT. What a step can do, said once: which phases a command runs in, how an engine step can end, and what a step of the machine is. -/

namespace Sys2Proof.Machine

/-- The phases of a running command, each with its command. -/
theorem running_cases {P : Prop} {s : State} {i : Instr} (h : phaseCommand s.phase = some i)
    (rleEnc : ∀ p, i = .cmpRle → s.phase = .rleEnc p → P) (rleDec : ∀ p, i = .dcmpRle → s.phase = .rleDec p → P)
    (hufPass1 : i = .cmpHuf → s.phase = .hufPass1 → P)
    (hufHdrW : ∀ b rest, i = .cmpHuf → s.phase = .hufHdrW b rest → P)
    (hufTabW : ∀ b rest, i = .cmpHuf → s.phase = .hufTabW b rest → P)
    (hufRewind : i = .cmpHuf → s.phase = .hufRewind → P) (hufPass2 : ∀ p, i = .cmpHuf → s.phase = .hufPass2 p → P)
    (hufFlush : i = .cmpHuf → s.phase = .hufFlush → P) (hufHdrR : ∀ got, i = .dcmpHuf → s.phase = .hufHdrR got → P)
    (hufTabR : ∀ left got, i = .dcmpHuf → s.phase = .hufTabR left got → P)
    (hufBody : ∀ p, i = .dcmpHuf → s.phase = .hufBody p → P) : P := by
  cases hp : s.phase <;> simp [hp, phaseCommand] at h <;> subst h
  · exact rleEnc _ rfl hp
  · exact rleDec _ rfl hp
  · exact hufPass1 rfl hp
  · exact hufHdrW _ _ rfl hp
  · exact hufTabW _ _ rfl hp
  · exact hufRewind rfl hp
  · exact hufPass2 _ rfl hp
  · exact hufFlush rfl hp
  · exact hufHdrR _ rfl hp
  · exact hufTabR _ _ rfl hp
  · exact hufBody _ rfl hp

/-- The codes a command's own rules can end it with, beside `IOFailure` (R601). -/
def ownErrors : Instr → List Error
  | .cmpRle => []
  | .dcmpRle => [.corruptFormat]
  | .cmpHuf => [.frequencyOverflow, .inputMismatch]
  | .dcmpHuf => [.corruptHeader, .corruptFrequencyTable, .truncatedBody, .corruptBody]
  | .invalid _ => []

/-- `t` is after `s` in a run of `i`: it goes on in a phase of `i` with the status of `s`, or `i` has ended. -/
def Continues (i : Instr) (s t : State) : Prop :=
  (phaseCommand t.phase = some i ∧ t.status = s.status) ∨
  (t.phase = .idle ∧ (t.status = statusFinished ∨ ∃ e, (e = .ioFailure ∨ e ∈ ownErrors i) ∧ t.status = statusRaised e))

/-- A continuation that ends or goes on in its command. -/
def Within (i : Instr) (f : State → Result) : Prop := ∀ s t, f s = .next t → Continues i s t

theorem continues_of_status {i : Instr} {s u t : State} (h : Continues i u t) (k : u.status = s.status) :
    Continues i s t := by
  rcases h with ⟨h1, h2⟩ | h
  · exact .inl ⟨h1, h2.trans k⟩
  · exact .inr h

theorem issue_continues {i : Instr} {p : Phase} {s u t : State} (hp : phaseCommand p = some i) (h : issue p u = .next t)
    (k : u.status = s.status) : Continues i s t := by
  cases h; exact .inl ⟨hp, k⟩

theorem finish_continues {i : Instr} {s u t : State} (h : (Host.Outcome.next (finish u) : Result) = .next t) :
    Continues i s t := by
  cases h; exact .inr ⟨rfl, .inl rfl⟩

theorem raise_continues {i : Instr} {e : Error} {s u t : State} (he : e = .ioFailure ∨ e ∈ ownErrors i)
    (h : (Host.Outcome.next (raise e u) : Result) = .next t) : Continues i s t := by
  cases h; exact .inr ⟨rfl, .inr ⟨e, he, rfl⟩⟩

theorem rd_continues {i : Instr} {a : Answer} {e : State → Result} {f : Byte → State → Result} (he : Within i e)
    (hf : ∀ b, Within i (f b)) : Within i (rd a e f) := by
  intro s t h
  rcases rd_cases a e f s with ⟨pos, kept, rfl, hr⟩ | ⟨-, -, hr⟩ | ⟨b, -, -, hr⟩ <;> rw [hr] at h
  · exact raise_continues (.inl rfl) h
  · exact he s t h
  · exact continues_of_status (hf b _ _ h) rfl

theorem wr_continues {i : Instr} {a : Answer} {b : Byte} {k : State → Result} (hk : Within i k) : Within i (wr a b k) := by
  intro s t h
  rcases wr_cases a b k s with ⟨pos, kept, rfl, hr⟩ | ⟨-, hr⟩ <;> rw [hr] at h
  · exact raise_continues (.inl rfl) h
  · exact continues_of_status (hk _ _ h) rfl

theorem encLoopEnd_within : Within .cmpRle encLoopEnd := by
  intro s t h
  unfold encLoopEnd at h
  split at h <;> exact issue_continues rfl h rfl

theorem encByte_within (b : Byte) : Within .cmpRle (encByte b) := by
  intro s t h
  unfold encByte at h
  split at h
  · exact continues_of_status (encLoopEnd_within _ _ h) rfl
  · split at h
    · exact continues_of_status (encLoopEnd_within _ _ h) rfl
    · exact issue_continues rfl h rfl

theorem encEof_within : Within .cmpRle encEof := by
  intro s t h
  unfold encEof at h
  split at h
  · exact issue_continues rfl h rfl
  · exact finish_continues h

theorem encClosed_within (why : RunClose) : Within .cmpRle (encClosed why) := by
  intro s t h
  cases why with
  | differs b => exact continues_of_status (encLoopEnd_within _ _ h) rfl
  | cap => exact issue_continues rfl h rfl
  | atEof => exact finish_continues h

theorem decEmit_within (v : Byte) (left : Nat) : Within .dcmpRle (decEmit v left) := by
  intro s t h
  cases left <;> exact issue_continues rfl h rfl

theorem writeAll_within {mk : Byte → List Byte → Phase} {done : State → Result}
    (hm : ∀ b rest, phaseCommand (mk b rest) = some .cmpHuf) (hd : Within .cmpHuf done) (bytes : List Byte) :
    Within .cmpHuf (writeAll mk done bytes) := by
  intro s t h
  cases bytes with
  | nil => exact hd s t h
  | cons b rest => exact issue_continues (hm _ _) h rfl

theorem pass2Loop_within : Within .cmpHuf pass2Loop := by
  intro s t h
  unfold pass2Loop at h
  split at h
  · unfold packFlush at h
    split at h
    · exact issue_continues rfl h rfl
    · exact finish_continues h
  · exact issue_continues rfl h rfl

theorem packBits_within (bits : List Bool) : Within .cmpHuf (packBits pass2Packed bits) := by
  induction bits with
  | nil => exact fun s t h => continues_of_status (pass2Loop_within _ _ h) rfl
  | cons b rest ih =>
    intro s t h
    unfold packBits at h
    split at h
    · exact issue_continues rfl h rfl
    · exact continues_of_status (ih _ _ h) rfl

theorem pass2Byte_within (b : Byte) : Within .cmpHuf (pass2Byte b) := by
  intro s t h
  unfold pass2Byte at h
  split at h
  · exact raise_continues (.inr (by simp [ownErrors])) h
  · exact packBits_within _ s t h

theorem writeTable_within : Within .cmpHuf writeTable :=
  fun s t h => writeAll_within (fun _ _ => rfl) (fun _ _ h => issue_continues rfl h rfl) _ s t h

theorem headerWritten_within : Within .cmpHuf headerWritten := by
  intro s t h
  unfold headerWritten at h
  split at h
  · exact finish_continues h
  · exact writeTable_within s t h

theorem pass1Eof_within : Within .cmpHuf pass1Eof := by
  intro s t h
  have hw : Within .cmpHuf writeHeader := fun s t h => writeAll_within (fun _ _ => rfl) headerWritten_within _ s t h
  unfold pass1Eof at h
  split at h
  · exact continues_of_status (hw _ _ h) rfl
  · split at h
    · cases h
    · exact continues_of_status (hw _ _ h) rfl

theorem pass1Byte_within (b : Byte) : Within .cmpHuf (pass1Byte b) := by
  intro s t h
  unfold pass1Byte at h
  split at h
  · exact raise_continues (.inr (by simp [ownErrors])) h
  · exact issue_continues rfl h rfl

theorem rewindStep_within (a : Answer) : Within .cmpHuf (rewindStep a) := by
  intro s t h
  cases a with
  | err pos kept => exact raise_continues (.inl rfl) h
  | ok => exact continues_of_status (pass2Loop_within _ _ h) rfl
  | okChanged bytes => exact continues_of_status (pass2Loop_within _ _ h) rfl

theorem tableByte_within (left : Nat) (got : List Byte) (b : Byte) : Within .dcmpHuf (tableByte left got b) := by
  intro s t h
  unfold tableByte at h
  split at h
  · exact issue_continues rfl h rfl
  · split at h
    · unfold tableRead at h
      split at h
      · exact raise_continues (.inr (by simp [ownErrors])) h
      · split at h
        · cases h
        · exact issue_continues rfl h rfl
    · exact issue_continues rfl h rfl

theorem interpretCount_status (s : State) : (interpretCount s).status = s.status := by
  unfold interpretCount; split <;> rfl

theorem headerByte_within (got : List Byte) (b : Byte) : Within .dcmpHuf (headerByte got b) := by
  intro s t h
  unfold headerByte at h
  split at h
  · split at h
    · exact issue_continues rfl h rfl
    · exact raise_continues (.inr (by simp [ownErrors])) h
  · split at h
    · exact issue_continues rfl h rfl
    · split at h
      · unfold headerRead at h
        split at h
        · exact finish_continues h
        · exact issue_continues rfl h (interpretCount_status _)
      · exact issue_continues rfl h rfl

theorem walkBits_within (byte : Byte) (k : Nat) : Within .dcmpHuf (walkBits byte k) := by
  induction k with
  | zero => exact fun s t h => issue_continues rfl h rfl
  | succ k ih =>
    intro s t h
    unfold walkBits at h
    split at h
    · exact raise_continues (.inr (by simp [ownErrors])) h
    · split at h
      · exact issue_continues rfl h rfl
      · exact continues_of_status (ih _ _ h) rfl

theorem bodyWritten_within (byte : Byte) (left : Nat) : Within .dcmpHuf (bodyWritten byte left) := by
  intro s t h
  unfold bodyWritten at h
  split at h
  · exact finish_continues h
  · exact continues_of_status (walkBits_within _ _ _ _ h) rfl

/-- A step of a running command takes an answer and then goes on in the command or ends it. -/
theorem exec_continues {i : Instr} {s t : State} (hi : phaseCommand s.phase = some i) (h : exec i s = .next t) :
    Continues i s t := by
  cases ha : takeAnswer s with
  | none =>
    have hn : ∀ {k : Answer → State → Result}, exec i s = transact k s → Continues i s t := fun he => by
      rw [he, transact_none ha] at h; cases h
    refine running_cases hi ?_ ?_ ?_ ?_ ?_ ?_ ?_ ?_ ?_ ?_ ?_
    · rintro p rfl hp; exact hn (exec_rleEnc hp)
    · rintro p rfl hp; exact hn (exec_rleDec hp)
    · rintro rfl hp; exact hn (exec_hufPass1 hp)
    · rintro b rest rfl hp; exact hn (exec_hufHdrW hp)
    · rintro b rest rfl hp; exact hn (exec_hufTabW hp)
    · rintro rfl hp; exact hn (exec_hufRewind hp)
    · rintro p rfl hp; exact hn (exec_hufPass2 hp)
    · rintro rfl hp; exact hn (exec_hufFlush hp)
    · rintro got rfl hp; exact hn (exec_hufHdrR hp)
    · rintro left got rfl hp; exact hn (exec_hufTabR hp)
    · rintro p rfl hp; exact hn (exec_hufBody hp)
  | some r =>
    obtain ⟨a, s1⟩ := r
    have hs : s1.status = s.status := by rw [takeAnswer_state ha]
    have hc : ∀ {k : Answer → State → Result}, exec i s = transact k s → Within i (k a) → Continues i s t := fun he hk => by
      rw [he, transact_some ha] at h; exact continues_of_status (hk _ _ h) hs
    have hfin : ∀ {j : Instr}, Within j fun u => .next (finish u) := fun _ _ h => finish_continues h
    have hrd : ∀ {e : Error} {f : Byte → State → Result}, e ∈ ownErrors i → (∀ b, Within i (f b)) → Within i (rdOr a e f) :=
      fun he hf => rd_continues (fun _ _ h => raise_continues (.inr he) h) hf
    refine running_cases hi ?_ ?_ ?_ ?_ ?_ ?_ ?_ ?_ ?_ ?_ ?_
    · rintro p rfl hp
      refine hc (exec_rleEnc hp) ?_
      cases p with
      | read => exact rd_continues encEof_within encByte_within
      | count why => exact fun s t h => wr_continues (fun _ _ h => issue_continues rfl h rfl) s t h
      | value why => exact fun s t h => wr_continues (encClosed_within why) s t h
    · rintro p rfl hp
      refine hc (exec_rleDec hp) ?_
      cases p with
      | count => exact rd_continues hfin fun _ _ _ h => issue_continues rfl h rfl
      | value c => exact hrd (by simp [ownErrors]) fun v => decEmit_within v _
      | emit v left => exact wr_continues (decEmit_within v left)
    · rintro rfl hp; exact hc (exec_hufPass1 hp) (rd_continues pass1Eof_within pass1Byte_within)
    · rintro b rest rfl hp
      exact hc (exec_hufHdrW hp) (wr_continues (writeAll_within (fun _ _ => rfl) headerWritten_within _))
    · rintro b rest rfl hp
      exact hc (exec_hufTabW hp)
        (wr_continues (writeAll_within (fun _ _ => rfl) (fun _ _ h => issue_continues rfl h rfl) _))
    · rintro rfl hp; exact hc (exec_hufRewind hp) (rewindStep_within a)
    · rintro p rfl hp
      refine hc (exec_hufPass2 hp) ?_
      cases p with
      | read => exact hrd (by simp [ownErrors]) pass2Byte_within
      | flush rest =>
        exact fun s t h => wr_continues (k := fun s' => packBits pass2Packed rest (packInit s'))
          (fun _ _ h => continues_of_status (packBits_within rest _ _ h) rfl) s t h
    · rintro rfl hp; exact hc (exec_hufFlush hp) fun s t h => wr_continues (fun _ _ h => finish_continues h) s t h
    · rintro got rfl hp; exact hc (exec_hufHdrR hp) (hrd (by simp [ownErrors]) (headerByte_within got))
    · rintro left got rfl hp; exact hc (exec_hufTabR hp) (hrd (by simp [ownErrors]) (tableByte_within left got))
    · rintro p rfl hp
      refine hc (exec_hufBody hp) ?_
      cases p with
      | read => exact hrd (by simp [ownErrors]) fun byte => walkBits_within byte 8
      | emit byte left => exact fun s t h => wr_continues (bodyWritten_within byte left) s t h

/-- A step is the running command's, or nothing in `IDLE`, or the host's, with the turn used up. -/
theorem step_cases {s t : State} (h : step s = .next t) :
    (∃ i, phaseCommand s.phase = some i ∧ exec i { s with turns := s.turns.tail } = .next t) ∨
    t = { s with turns := s.turns.tail } ∨
    ∃ op rest, s.program = op :: rest ∧ runHostOp op { s with program := rest, turns := s.turns.tail } = .next t := by
  unfold step oneMove at h
  split at h
  · unfold hostMove at h
    split at h
    · cases h; exact .inr (.inl rfl)
    · rename_i op rest hp
      exact .inr (.inr ⟨op, rest, hp, h⟩)
  · unfold engineMove at h
    split at h
    · rename_i i hi
      exact .inl ⟨i, hi, h⟩
    · cases h; exact .inr (.inl rfl)

/-- The step in which the host does `op`. -/
theorem step_host {s : State} {op : HostOp} {rest : List HostOp} (ha : nextAgent s = .host) (hp : s.program = op :: rest) :
    step s = runHostOp op { s with program := rest, turns := s.turns.tail } := by
  simp only [step, oneMove, ha, hostMove, hp]

/-- What a host operation that answers a next state has done. -/
theorem runHostOp_cases {op : HostOp} {s t : State} (h : runHostOp op s = .next t) :
    (∃ o, t = { s with reads := s.reads ++ [windowRead s o] }) ∨ t = s ∨ t = { s with program := op :: s.program } ∨
    (∃ v, s.status.busy = false ∧ exec (decode v) (startCommand v s) = .next t) ∨
    (s.status.busy = false ∧ ((∃ bytes, t = { s with input := bytes, inPos := 0 }) ∨
      (∃ bytes, t = { s with output := bytes }) ∨ t = { s with inPos := 0 } ∨ t = { s with input := s.output, inPos := 0 })) ∨
    ∃ pos kept, op = .reset pos kept ∧ t = resetEngine pos kept s := by
  have hacc : ∀ {place : Place} {size : Nat} {k : Nat → Result}, windowAccess place size k = .next t → ∃ o, k o = .next t := by
    intro place size k h
    unfold windowAccess at h
    split at h
    · cases h
    · split at h
      · exact ⟨_, h⟩
      · cases h
  have hstr : ∀ {u : State}, streamChange u s = .next t → s.status.busy = false ∧ t = u := by
    intro u h
    unfold streamChange at h
    split at h
    · cases h
    · rename_i hb
      cases h
      exact ⟨by simpa using hb, rfl⟩
  cases op with
  | memRead place size =>
    obtain ⟨o, h⟩ := hacc h
    cases h; exact .inl ⟨o, rfl⟩
  | memWrite place size v =>
    obtain ⟨o, h⟩ := hacc h
    unfold windowWrite at h
    split at h
    · split at h
      · cases h; exact .inr (.inl rfl)
      · rename_i hb
        exact .inr (.inr (.inr (.inl ⟨v, by simpa using hb, h⟩)))
    · cases h; exact .inr (.inl rfl)
  | poll o hi lo v =>
    simp only [runHostOp] at h
    obtain ⟨o', h⟩ := hacc h
    split at h
    · cases h; exact .inr (.inl rfl)
    · cases h; exact .inr (.inr (.inl rfl))
  | bindIn bytes => obtain ⟨hb, rfl⟩ := hstr h; exact .inr (.inr (.inr (.inr (.inl ⟨hb, .inl ⟨bytes, rfl⟩⟩))))
  | bindOut bytes => obtain ⟨hb, rfl⟩ := hstr h; exact .inr (.inr (.inr (.inr (.inl ⟨hb, .inr (.inl ⟨bytes, rfl⟩)⟩))))
  | rewindIn => obtain ⟨hb, rfl⟩ := hstr h; exact .inr (.inr (.inr (.inr (.inl ⟨hb, .inr (.inr (.inl rfl))⟩))))
  | rewindOut => obtain ⟨hb, rfl⟩ := hstr h; exact .inr (.inr (.inr (.inr (.inl ⟨hb, .inr (.inr (.inr rfl))⟩))))
  | reset pos kept => cases h; exact .inr (.inr (.inr (.inr (.inr ⟨pos, kept, rfl, rfl⟩))))

/-- From `IDLE`, a command starts in its first phase, or ends at once. -/
theorem exec_idle_cases {i : Instr} {s t : State} (hp : s.phase = .idle) (h : exec i s = .next t) :
    (i = .cmpRle ∧ t = { s with phase := .rleEnc .read, runValid := false }) ∨
    (i = .dcmpRle ∧ t = { s with phase := .rleDec .count }) ∨
    (i = .cmpHuf ∧ t = { s with phase := .hufPass1, freq := Vector.replicate 256 0, total := 0 }) ∨
    (i = .dcmpHuf ∧ t = { s with phase := .hufHdrR [] }) ∨ ∃ w, i = .invalid w ∧ t = raise .invalidAlgorithm s := by
  cases i with
  | cmpRle => simp only [exec, execCmpRle, hp] at h; cases h; exact .inl ⟨rfl, rfl⟩
  | dcmpRle => simp only [exec, execDcmpRle, hp] at h; cases h; exact .inr (.inl ⟨rfl, rfl⟩)
  | cmpHuf => simp only [exec, execCmpHuf, hp] at h; cases h; exact .inr (.inr (.inl ⟨rfl, rfl⟩))
  | dcmpHuf => simp only [exec, execDcmpHuf, hp] at h; cases h; exact .inr (.inr (.inr (.inl ⟨rfl, rfl⟩)))
  | invalid w => simp only [exec, execInvalid, hp] at h; cases h; exact .inr (.inr (.inr (.inr ⟨w, rfl, rfl⟩)))

end Sys2Proof.Machine
end

