-- ==== Sys2Proof/Tests/Slice0.lean ====
section
/-! SUPPORT. Tests of single steps, with expected values from the spec's encodings, rules and vectors (30_encoding.md R150, 95_test_vectors.md), and for each obligation with hypotheses a state that meets them. -/

namespace Sys2Proof.Tests

open Sys2Proof Sys2Proof.Machine

/-! ## Well-formedness (R152) -/

theorem test_wf_refuses_cmpRle_word : (Instr.invalid 0x00000000#32).wf = false := by decide
theorem test_wf_refuses_dcmpRle_word : (Instr.invalid 0x00000001#32).wf = false := by decide
theorem test_wf_refuses_cmpHuf_word : (Instr.invalid 0x00000100#32).wf = false := by decide
theorem test_wf_refuses_dcmpHuf_word : (Instr.invalid 0x00000101#32).wf = false := by decide
theorem test_wf_accepts_other_word : (Instr.invalid 0x00000002#32).wf = true := by decide

/-! ## Decoding: RSV1 (16 bits), ALG (8), RSV0 (7), DIR (1), written out from R150 and R151 -/

theorem test_decode_cmpRle : decodeTableWord 32 0b00000000000000000000000000000000 = some .cmpRle := by decide
theorem test_decode_dcmpRle : decodeTableWord 32 0b00000000000000000000000000000001 = some .dcmpRle := by decide
theorem test_decode_cmpHuf : decodeTableWord 32 0b00000000000000000000000100000000 = some .cmpHuf := by decide
theorem test_decode_dcmpHuf : decodeTableWord 32 0b00000000000000000000000100000001 = some .dcmpHuf := by decide
theorem test_decode_reserved_low_bit :
    decodeTableWord 32 0b00000000000000000000000100000011 = some (.invalid 0x00000103#32) := by decide
theorem test_decode_reserved_high_bit :
    decodeTableWord 32 0b10000000000000000000000000000000 = some (.invalid 0x80000000#32) := by decide
theorem test_decode_unknown_algorithm :
    decodeTableWord 32 0b00000000000000000000001000000000 = some (.invalid 0x00000200#32) := by decide
theorem test_decode_longer_than_a_word : decodeTableWord 64 (2 ^ 32) = none := by decide
theorem test_encode_dcmpHuf : encode .dcmpHuf = 0x00000101#32 := by decide

/-! ## Helpers -/

/-- The state after a step, if it is a next state and `p` holds of it. -/
def nextHolds (p : State → Bool) : Result → Bool
  | .next t => p t
  | .fault _ => false
  | .refused _ => false

/-- A running command in the phase `p`. -/
def busyIn (p : Phase) : State := { State.reset with status := statusStarted, phase := p }

/-- A running command in the phase `p`, with `bytes` to read. -/
def reading (p : Phase) (bytes : List Byte) : State := { busyIn p with input := bytes }

/-- An idle machine whose host does `op` next. -/
def hostDoes (op : HostOp) : State := { State.reset with program := [op] }

/-- An idle machine with `bytes` to read. -/
def holding (bytes : List Byte) : State := { State.reset with input := bytes }

/-! ## One step of each command -/

/-- 41_rle.md R201, R202: the 255th equal byte closes the run before the next read. -/
theorem test_cmpRle_closes_at_the_cap :
    nextHolds (fun t => t.runCnt == 255 && t.phase == .rleEnc (.count .cap) && t.inCount == 1)
      (exec .cmpRle { reading (.rleEnc .read) [0x7A] with runVal := 0x7A, runCnt := 254, runValid := true }) = true := by
  decide

/-- 41_rle.md R201: a different byte first writes the count of the run that closes. -/
theorem test_cmpRle_closes_on_a_different_byte :
    nextHolds (fun t => t.output == [4] && t.phase == .rleEnc (.value (.differs 0x62)) && t.outCount == 1)
      (exec .cmpRle { busyIn (.rleEnc (.count (.differs 0x62))) with runVal := 0x61, runCnt := 4, runValid := true })
        = true := by
  decide

/-- V-RLE-13: a count of 0 writes nothing. -/
theorem test_dcmpRle_count_zero :
    nextHolds (fun t => t.output == [] && t.phase == .rleDec .count) (exec .dcmpRle (reading (.rleDec (.value 0)) [0x61]))
      = true := by
  decide

/-- V-RLE-15: an input of odd length ends with `CorruptFormat`. -/
theorem test_dcmpRle_odd_length :
    nextHolds (fun t => statusWord t.status == 0x00000602#32 && t.phase == .idle)
      (exec .dcmpRle { reading (.rleDec (.value 1)) [0x01] with inPos := 1 }) = true := by
  decide

/-- 47_bit_packer.md R464, worked example: `ACC = 0b110`, `BITCNT = 3` writes `0xC0`. -/
theorem test_cmpHuf_flush :
    nextHolds (fun t => t.output == [0xC0] && statusWord t.status == 0x00000002#32)
      (exec .cmpHuf { busyIn .hufFlush with acc := 0b110, bitCnt := 3 }) = true := by
  decide

/-- 47_bit_packer.md R461, worked example: from `ACC = 0b0000101`, `BITCNT = 7`, `PackBit(0)` writes `0x0A`. -/
theorem test_cmpHuf_packBit :
    nextHolds (fun t => t.acc == 0x0A && t.phase == .hufPass2 (.flush []))
      (packBits pass2Packed [false] { busyIn (.hufPass2 .read) with acc := 0b0000101, bitCnt := 7 }) = true := by
  decide

/-- 46_container.md R414, worked example: the thirteenth header byte gives `ORIG_SIZE = 10` and `N = 4`. -/
theorem test_dcmpHuf_header :
    nextHolds (fun t => t.origSize == 10 && t.n == 4 && t.nsym == 4 && t.phase == .hufTabR 4 [])
      (exec .dcmpHuf { reading (.hufHdrR [0x4D, 0x4D, 0x4D, 0x4D, 4, 0x0A, 0, 0, 0, 0, 0, 0]) [0] with nsRaw := 4 })
        = true := by
  decide

/-- 46_container.md R417, 30_encoding.md R161: the byte 0 with a nonzero size means 256 symbols. -/
theorem test_interpretCount_256 : (interpretCount { State.reset with origSize := 256 }).n = 256#9 := by decide

/-- V-CMD-5: an unrecognised selector ends in the step of the write. -/
theorem test_invalid_status :
    nextHolds (fun t => statusWord t.status == 0x00000102#32 && t.cmd == 0x00000200#32 && t.phase == .idle)
      (step (State.reset.withFetchWord 32 0x200)) = true := by
  decide

/-- 20_memory.md R103, 60_exceptions.md R606 (b): an `Err` on a write does not count. -/
theorem test_write_error :
    nextHolds (fun t => statusWord t.status == 0x00000502#32 && t.outCount == 2 && t.output == [4, 0x61])
      (exec .cmpRle { busyIn (.rleEnc (.count (.differs 0x63))) with
        runCnt := 3, outCount := 2, output := [4, 0x61], answers := [.err 0 false] }) = true := by
  decide

/-! ## Starting a command -/

theorem test_start_cmpRle :
    nextHolds (fun t => t.phase == .rleEnc .read && statusWord t.status == 1) (step (State.reset.withFetchWord 32 0)) = true := by
  decide

theorem test_start_dcmpHuf :
    nextHolds (fun t => t.phase == .hufHdrR [] && statusWord t.status == 1) (step (State.reset.withFetchWord 32 0x101)) = true := by
  decide

/-! ## The window, byte order and the heap -/

/-- 10_state.md R33: `0x00000E02` is `DONE` with `ERR = E` (95_test_vectors.md). -/
theorem test_statusWord : statusWord ⟨false, true, 7⟩ = 0x00000702#32 := by decide

/-- 20_memory.md R114: bits 31:0 of a counter at the lower offset. -/
theorem test_window_halves :
    windowRead { State.reset with inCount := 0x123456789#64 } 0x08 = 0x23456789#32 ∧
      windowRead { State.reset with inCount := 0x123456789#64 } 0x0C = 1#32 := by
  decide

/-- 00_scope.md R10: little-endian. -/
theorem test_littleEndian :
    bytesLe 4 0x000003E8#32 = [0xE8, 0x03, 0, 0] ∧ assembleLe 32 [0xE8, 0x03, 0, 0] = 1000#32 := by
  decide

/-- Leaves of the keys 4, 3, 2, 1, with the handles 0 to 3. -/
def fourLeaves : Arena :=
  { Arena.reset with
    node := (((Arena.reset.node.set 0 ⟨.leaf, 0x61, 4, none, none⟩).set 1 ⟨.leaf, 0x62, 3, none, none⟩).set 2
      ⟨.leaf, 0x63, 2, none, none⟩).set 3 ⟨.leaf, 0x64, 1, none, none⟩
    nnodes := 4 }

/-- V-HEAP-1: the four handles inserted in order. -/
def fourInserted : Option Arena :=
  (((heapInsert 0 fourLeaves).bind (heapInsert 1)).bind (heapInsert 2)).bind (heapInsert 3)

/-- V-HEAP-1: after the inserts the heap is `[h3, h2, h1, h0]`. -/
theorem test_heap_inserts : fourInserted.map heapEntries = some [3, 2, 1, 0] := by decide +kernel

/-- V-HEAP-1: the extract returns `h3` and leaves `[h2, h0, h1]`. -/
theorem test_heap_extract :
    ((fourInserted.bind heapExtractMin).map fun r => (r.1, heapEntries r.2)) = some (3, [2, 0, 1]) := by
  decide +kernel

/-- V-TREE-1: the first merge allocates node 4 over `d` and `c`, of frequency 3, and the heap is `[b, a, 4]`. -/
theorem test_tree_first_merge :
    ((fourInserted.bind mergeOnce).map fun a => (a.node[(4 : NodeId)], heapEntries a)) =
      some (⟨.internal, 0, 3, some 3, some 2⟩, [1, 0, 4]) := by
  decide +kernel

/-- The handles 0 to 4 with the keys given, in that order in `HEAP`; `HSIZE` says how many are valid. -/
def heapOf (keys : Vector U64 5) : Arena :=
  (List.finRange 5).foldl (fun a k =>
    { heapPut a k.val (k.castLE (by decide)) with
      node := a.node.set k.val ⟨.leaf, 0, keys[k], none, none⟩ (by omega)
      nnodes := a.nnodes + 1 }) Arena.reset

/-- V-HEAP-2: keys 2, 1, 1 inserted in order: the later handle with its parent's key stays below it. -/
theorem test_heap_equal_parent :
    let a := { heapOf #v[2, 1, 1, 0, 0] with hsize := 0 }
    ((((heapInsert 0 a).bind (heapInsert 1)).bind (heapInsert 2)).map heapEntries) = some [1, 0, 2] := by
  decide +kernel

/-- V-HEAP-4: of two equal children the left one rises. -/
theorem test_heap_equal_children :
    let a := { heapOf #v[2, 2, 2, 5, 0] with hsize := 4 }
    (heapExtractMin a).map (fun r => (r.1, heapEntries r.2)) = some (0, [1, 3, 2]) := by
  decide +kernel

/-- V-HEAP-5: a child with the moved handle's key stops the descent. -/
theorem test_heap_equal_child :
    let a := { heapOf #v[1, 3, 4, 3, 0] with hsize := 4 }
    (heapExtractMin a).map (fun r => (r.1, heapEntries r.2)) = some (0, [3, 1, 2]) := by
  decide +kernel

/-- The frequencies of `"aaaabbbccd"` (V-FREQ-1). -/
def fourFrequencies : Vector Word 256 :=
  entryPut (entryPut (entryPut (entryPut (Vector.replicate 256 0) 0x61 4) 0x62 3) 0x63 2) 0x64 1

/-- V-TREE-1: `ROOT = 6` and `NNODES = 7`. -/
theorem test_tree_root :
    (buildTree fourFrequencies Arena.reset).map (fun a => (a.nnodes, a.root)) = some (7, some 6) := by
  decide +kernel

/-- V-CODE-1 and V-CONT-1: the codes of V-TREE-1 pack `"aaaabbbccd"` into `0A BF C0`. -/
theorem test_body_bytes :
    packedBytes (bodyBits (codesOf fourFrequencies) [0x61, 0x61, 0x61, 0x61, 0x62, 0x62, 0x62, 0x63, 0x63, 0x64]) =
      [0x0A, 0xBF, 0xC0] := by
  decide +kernel

/-! ## The hypotheses of the obligations are met -/

theorem test_hyps_EncodeAndDecodeAreInverse :
    Instr.cmpRle.wf = true ∧ Instr.dcmpRle.wf = true ∧ Instr.cmpHuf.wf = true ∧ Instr.dcmpHuf.wf = true ∧
      (Instr.invalid 0xFFFFFFFF#32).wf = true := by
  decide

theorem test_hyps_StepRunsTheRunningCommand :
    phaseCommand (busyIn (.rleEnc .read)).phase = some .cmpRle ∧ nextAgent (busyIn (.rleEnc .read)) = .engine ∧
      phaseCommand (busyIn .hufRewind).phase = some .cmpHuf ∧ nextAgent (busyIn .hufRewind) = .engine := by
  decide

theorem test_hyps_StepStartsTheWrittenCommand :
    (nextAgent (hostDoes (.memWrite (.offset 0x00) 4 0x100)) = .host ∧
      (hostDoes (.memWrite (.offset 0x00) 4 0x100)).program = .memWrite (.offset 0x00) 4 0x100 :: [] ∧
      (hostDoes (.memWrite (.offset 0x00) 4 0x100)).status.busy = false) ∧
    (0x100 < 2 ^ 32 ∧ decodeTableWord 32 0x100 = some .cmpHuf) ∧
    (2 ^ 32 - 1 < 2 ^ 32 ∧ decodeTableWord 32 (2 ^ 32 - 1) = some (.invalid 0xFFFFFFFF#32)) := by
  decide

/-- A host that takes its turn while a command runs. -/
def busyHost (op : HostOp) : State := { busyIn (.rleEnc .read) with program := [op], turns := [.host] }

theorem test_hyps_BusyCommandWriteIsIgnored :
    nextAgent (busyHost (.memWrite (.offset 0x00) 4 1)) = .host ∧
      (busyHost (.memWrite (.offset 0x00) 4 1)).program = .memWrite (.offset 0x00) 4 1 :: [] ∧
      (busyHost (.memWrite (.offset 0x00) 4 1)).status.busy = true := by
  decide

theorem test_hyps_ReservedAndReadOnlyOffsets :
    (nextAgent (hostDoes (.memWrite (.offset 0x04) 4 1)) = .host ∧ 0x04 % 4 = 0 ∧ 0 < 0x04 ∧ 0x04 ≤ 0x3C ∧
      (hostDoes (.memWrite (.offset 0x04) 4 1)).program = .memWrite (.offset 0x04) 4 1 :: []) ∧
    (nextAgent (hostDoes (.memRead (.offset 0x24) 4)) = .host ∧ 0x24 % 4 = 0 ∧ 0 < 0x24 ∧ 0x24 ≤ 0x3C ∧ 0x24 ≤ 0x24 ∧
      (hostDoes (.memRead (.offset 0x24) 4)).program = .memRead (.offset 0x24) 4 :: []) ∧
    (nextAgent (hostDoes (.memRead (.offset 0x3C) 4)) = .host ∧ 0x3C % 4 = 0 ∧ 0 < 0x3C ∧ 0x3C ≤ 0x3C ∧ 0x24 ≤ 0x3C ∧
      (hostDoes (.memRead (.offset 0x3C) 4)).program = .memRead (.offset 0x3C) 4 :: []) := by
  decide

theorem test_hyps_WindowReadsReturnTheRegisters :
    ∀ o ∈ [0x00, 0x04, 0x08, 0x0C, 0x10, 0x14, 0x18, 0x1C, 0x20],
      nextAgent (hostDoes (.memRead (.offset o) 4)) = .host ∧ o % 4 = 0 ∧ o ≤ 0x20 ∧
        (hostDoes (.memRead (.offset o) 4)).program = .memRead (.offset o) 4 :: [] := by
  decide

theorem test_hyps_StatusWordLayout :
    (8 ≤ 8 ∧ 8 ≤ 15) ∧ (8 ≤ 15 ∧ 15 ≤ 15) ∧ ((2 ≤ 2 ∧ 2 ≤ 7) ∨ 16 ≤ 2) ∧ ((2 ≤ 7 ∧ 7 ≤ 7) ∨ 16 ≤ 7) ∧
      ((2 ≤ 16 ∧ 16 ≤ 7) ∨ 16 ≤ 16) := by
  decide

theorem test_hyps_UndefinedAccessesAreRefused :
    (∀ q ∈ [(0x40, 4), (0x3D, 4), (0x00, 2)],
      nextAgent (hostDoes (.memRead (.offset q.1) q.2)) = .host ∧
        (hostDoes (.memRead (.offset q.1) q.2)).program = .memRead (.offset q.1) q.2 :: [] ∧
        ¬(q.2 = 4 ∧ q.1 % 4 = 0 ∧ q.1 ≤ 0x3C)) ∧
    (nextAgent (hostDoes (.memWrite (.platform (Config.hceBase + 64)) 4 0)) = .host ∧
      (hostDoes (.memWrite (.platform (Config.hceBase + 64)) 4 0)).program =
        .memWrite (.platform (Config.hceBase + 64)) 4 0 :: [] ∧
      ¬(Config.hceBase ≤ Config.hceBase + 64 ∧ Config.hceBase + 64 < Config.hceBase + 64)) ∧ 0 < 64 ∧ 63 < 64 := by
  refine ⟨by decide, ⟨rfl, rfl, by omega⟩, by decide, by decide⟩

theorem test_hyps_StreamBindingsOnlyBetweenCommands :
    ∀ op ∈ [HostOp.bindIn [1], .bindOut [], .rewindIn, .rewindOut],
      (nextAgent (hostDoes op) = .host ∧ (hostDoes op).program = op :: [] ∧ (hostDoes op).status.busy = false) ∧
      (nextAgent (busyHost op) = .host ∧ (busyHost op).program = op :: [] ∧ (busyHost op).status.busy = true) := by
  decide

theorem test_hyps_UnansweredTransactionBlocksTheEngine :
    (phaseCommand { busyIn .hufPass1 with serves := false }.phase = some .cmpHuf ∧
      { busyIn .hufPass1 with serves := false }.answers = [] ∧ { busyIn .hufPass1 with serves := false }.program = []) ∧
    (phaseCommand { busyHost .rewindIn with serves := false }.phase = some .cmpRle ∧
      { busyHost .rewindIn with serves := false }.answers = [] ∧ { busyHost .rewindIn with serves := false }.program ≠ []) := by
  decide

theorem test_hyps_IdleEngineDoesNothing : State.reset.phase = .idle ∧ State.reset.program = [] := by decide

/-- A reset that withdraws a write, a read and a rewind. -/
theorem test_hyps_ResetInputAbandonsTheCommand :
    ∀ p ∈ [Phase.hufFlush, .rleEnc .read, .hufRewind],
      nextAgent { busyIn p with program := [.reset 0 true], turns := [.host] } = .host ∧
        { busyIn p with program := [.reset 0 true], turns := [.host] }.program = .reset 0 true :: [] := by
  decide

theorem test_hyps_InvalidWordRaisesInvalidAlgorithm :
    State.reset.phase = .idle ∧ decode 0x00000002#32 = .invalid 0x00000002#32 ∧
      decode 0x80000000#32 = .invalid 0x80000000#32 ∧ decode 0x0000FF00#32 = .invalid 0x0000FF00#32 := by
  decide

theorem test_hyps_StartStepOfEachCommand : State.reset.phase = .idle := by decide

theorem test_hyps_EveryCommandStepHasANextState :
    State.reset.phase = .idle ∧
      (phaseCommand (busyIn (.hufBody .read)).phase = some .dcmpHuf ∧ (takeAnswer (busyIn (.hufBody .read))).isSome) := by
  decide

theorem test_hyps_OneTransactionPerEngineStep :
    ∀ a ∈ [Answer.ok, .okChanged [1], .err 0 true],
      (∃ t, phaseCommand (Phase.rleEnc .read) = some .cmpRle ∧
        takeAnswer { reading (.rleEnc .read) [5] with answers := [a] } = some (a, reading (.rleEnc .read) [5]) ∧
        exec .cmpRle { reading (.rleEnc .read) [5] with answers := [a] } = .next t) ∧
      (∃ t, phaseCommand .hufRewind = some .cmpHuf ∧
        takeAnswer { busyIn .hufRewind with answers := [a] } = some (a, busyIn .hufRewind) ∧
        exec .cmpHuf { busyIn .hufRewind with answers := [a] } = .next t) ∧
      ∃ t, phaseCommand .hufFlush = some .cmpHuf ∧
        takeAnswer { busyIn .hufFlush with answers := [a] } = some (a, busyIn .hufFlush) ∧
        exec .cmpHuf { busyIn .hufFlush with answers := [a] } = .next t := by
  simp only [List.mem_cons, List.not_mem_nil, or_false]
  rintro a (rfl | rfl | rfl) <;> exact ⟨⟨_, rfl, rfl, rfl⟩, ⟨_, rfl, rfl, rfl⟩, _, rfl, rfl, rfl⟩

theorem test_hyps_ErrAnswerAlwaysRaisesIoFailure :
    phaseCommand { busyIn .hufRewind with answers := [.err 3 true] }.phase = some .cmpHuf ∧
      { busyIn .hufRewind with answers := [.err 3 true] }.answers = .err 3 true :: [] := by
  decide

/-- One state for each clause: an honest `Eof` in each reading phase. -/
theorem test_hyps_EofGivesTheErrorOfThePhase :
    ∀ p ∈ [Phase.rleEnc .read, .rleDec .count, .rleDec (.value 1), .hufPass1, .hufPass2 .read, .hufHdrR [], .hufTabR 1 [],
        .hufBody .read],
      takeAnswer (busyIn p) = some (.ok, busyIn p) ∧ (busyIn p).input.length ≤ (busyIn p).inPos ∧
        (busyIn p).runValid = false ∧
        takeAnswer { busyIn p with runValid := true } = some (.ok, { busyIn p with runValid := true }) := by
  simp only [List.mem_cons, List.not_mem_nil, or_false]
  rintro p (rfl | rfl | rfl | rfl | rfl | rfl | rfl | rfl) <;> exact ⟨rfl, Nat.le_refl _, rfl, rfl⟩

theorem test_hyps_CodesEachCommandCanEndWith :
    (∃ t, phaseCommand (busyIn (.rleDec .count)).phase = some .dcmpRle ∧ exec .dcmpRle (busyIn (.rleDec .count)) = .next t ∧
      t.phase = .idle) ∧
    (∃ t, State.reset.phase = .idle ∧ exec (.invalid 2) State.reset = .next t ∧ t.phase = .idle) ∧
    (∃ t, phaseCommand (busyIn (.rleEnc .read)).phase = some .cmpRle ∧ exec .cmpRle (busyIn (.rleEnc .read)) = .next t ∧
      t.phase = .idle) ∧
    (∃ t, phaseCommand (busyIn .hufFlush).phase = some .cmpHuf ∧ exec .cmpHuf (busyIn .hufFlush) = .next t ∧
      t.phase = .idle) ∧
    ∃ t, phaseCommand (busyIn (.hufHdrR [])).phase = some .dcmpHuf ∧ exec .dcmpHuf (busyIn (.hufHdrR [])) = .next t ∧
      t.phase = .idle :=
  ⟨⟨_, rfl, rfl, rfl⟩, ⟨_, rfl, rfl, rfl⟩, ⟨_, rfl, rfl, rfl⟩, ⟨_, rfl, rfl, rfl⟩, _, rfl, rfl, rfl⟩

theorem test_hyps_CommandsLeaveTheHostSide : ∃ t, exec .cmpHuf (busyIn .hufFlush) = .next t := ⟨_, rfl⟩

theorem test_hyps_RleCommandsFrame :
    (∃ t, exec .cmpRle (busyIn (.rleEnc .read)) = .next t) ∧ ∃ t, exec .dcmpRle (busyIn (.rleDec .count)) = .next t :=
  ⟨⟨_, rfl⟩, _, rfl⟩

theorem test_hyps_HuffmanCommandsFrame :
    (∃ t, exec .cmpHuf (reading (.hufPass2 .read) [7]) = .next t ∧ (reading (.hufPass2 .read) [7]).phase ≠ .idle ∧
      (reading (.hufPass2 .read) [7]).phase ≠ .hufPass1 ∧ (reading (.hufPass2 .read) [7]).phase ≠ .hufRewind) ∧
    (∃ t, exec .cmpHuf (reading .hufPass1 [7]) = .next t ∧ (reading .hufPass1 [7]).phase = .hufPass1 ∧
      (reading .hufPass1 [7]).inPos < (reading .hufPass1 [7]).input.length) ∧
    (∃ t, exec .cmpHuf (busyIn .hufPass1) = .next t ∧ (busyIn .hufPass1).input.length ≤ (busyIn .hufPass1).inPos) ∧
    (∃ t, exec .cmpHuf State.reset = .next t ∧ State.reset.phase = .idle) ∧
    (∃ t, exec .dcmpHuf State.reset = .next t ∧ State.reset.phase = .idle) ∧
    ∃ t, exec .dcmpHuf (busyIn (.hufBody .read)) = .next t ∧ (busyIn (.hufBody .read)).phase = .hufBody .read := by
  refine ⟨⟨_, rfl, by decide, by decide, by decide⟩, ⟨_, rfl, rfl, by decide⟩, ?_, ⟨_, rfl, rfl⟩, ⟨_, rfl, rfl⟩, _, rfl, rfl⟩
  have hm : ∃ b rest, Config.magic.toList = b :: rest := by
    cases h : Config.magic.toList with
    | nil => have := congrArg List.length h; simp at this
    | cons b rest => exact ⟨b, rest, rfl⟩
  obtain ⟨b, rest, hm⟩ := hm
  have he : exec .cmpHuf (busyIn .hufPass1) = pass1Eof (busyIn .hufPass1) := by
    rw [exec_hufPass1 rfl, transact_some (a := .ok) (s1 := busyIn .hufPass1) rfl]
    exact rd_eof rfl (Nat.le_refl _)
  rw [pass1Eof, if_pos (by decide), writeHeader, headerBytes, hm] at he
  exact ⟨_, he, Nat.le_refl _⟩

/-- The clauses about the header and the table: before and at the last byte of each, and an entry's last byte. -/
theorem test_hyps_HuffmanCommandsFrame_reads :
    (∀ got ∈ [[], List.replicate 12 0],
      ∃ t, exec .dcmpHuf (reading (.hufHdrR got) [1]) = .next t ∧ (reading (.hufHdrR got) [1]).phase = .hufHdrR got) ∧
    (∃ t, exec .dcmpHuf (reading (.hufTabR 1 [7, 0, 0]) [1]) = .next t ∧
      (reading (.hufTabR 1 [7, 0, 0]) [1]).phase = .hufTabR 1 [7, 0, 0] ∧ ([7, 0, 0] : List Byte).length < 4 ∧
      takeAnswer (reading (.hufTabR 1 [7, 0, 0]) [1]) = some (.ok, reading (.hufTabR 1 [7, 0, 0]) [1]) ∧
      (reading (.hufTabR 1 [7, 0, 0]) [1]).input[(0 : Nat)]? = some 1) ∧
    ∃ t, exec .dcmpHuf (reading (.hufTabR 2 [7, 0, 0, 0]) [1]) = .next t ∧
      (reading (.hufTabR 2 [7, 0, 0, 0]) [1]).phase = .hufTabR 2 [7, 0, 0, 0] ∧ 1 < 2 ∧
      takeAnswer (reading (.hufTabR 2 [7, 0, 0, 0]) [1]) = some (.ok, reading (.hufTabR 2 [7, 0, 0, 0]) [1]) ∧
      (reading (.hufTabR 2 [7, 0, 0, 0]) [1]).input[(0 : Nat)]? = some 1 := by
  refine ⟨?_, ⟨_, rfl, rfl, by decide, rfl, rfl⟩, _, rfl, rfl, by decide, rfl, rfl⟩
  simp only [List.mem_cons, List.not_mem_nil, or_false]
  rintro got (rfl | rfl) <;> exact ⟨_, rfl, rfl⟩

/-- The two sides of the bound: an entry of 0xFFFFFFFE and one of 0xFFFFFFFF. -/
theorem test_hyps_FrequencyNeverWraps :
    ∀ v ∈ [0xFFFFFFFE#32, 0xFFFFFFFF#32],
      { reading .hufPass1 [9] with freq := Vector.replicate 256 v }.phase = .hufPass1 ∧
        takeAnswer { reading .hufPass1 [9] with freq := Vector.replicate 256 v } =
          some (.ok, { reading .hufPass1 [9] with freq := Vector.replicate 256 v }) ∧
        { reading .hufPass1 [9] with freq := Vector.replicate 256 v }.input[(0 : Nat)]? = some 9 ∧
        (entryAt (Vector.replicate 256 v) 9) = v := by
  simp only [List.mem_cons, List.not_mem_nil, or_false]
  rintro v (rfl | rfl) <;> exact ⟨rfl, rfl, rfl, by simp [entryAt]⟩

theorem test_hyps_UnseenByteRaisesInputMismatch :
    (reading (.hufPass2 .read) [9]).phase = .hufPass2 .read ∧
      takeAnswer (reading (.hufPass2 .read) [9]) = some (.ok, reading (.hufPass2 .read) [9]) ∧
      (reading (.hufPass2 .read) [9]).input[(reading (.hufPass2 .read) [9]).inPos]? = some 9 ∧
      (entryAt (reading (.hufPass2 .read) [9]).code 9).len = 0 :=
  ⟨rfl, rfl, rfl, by simp [entryAt, reading, busyIn, State.reset]⟩

/-- In the body phase, at the synthetic root over one symbol (V-TREE-5), with a size of 3. -/
def atOneSymbol (p : BodyAt) (cur : NodeId) (bytes : List Byte) : State :=
  { reading (.hufBody p) bytes with
    cur := some cur
    origSize := 3
    arena := { Arena.reset with
      node := (Arena.reset.node.set 0 ⟨.leaf, 0x78, 1000, none, none⟩).set 1 ⟨.internal, 0, 1000, some 0, none⟩
      nnodes := 2
      root := some 1 } }

/-- A bit 1 at the root as the first bit of a byte read, as the third after two symbols of the same byte (V-PACK-8), and a bit
0 that reaches the leaf. -/
theorem test_hyps_BodyWalkFollowsTheBits :
    (takeAnswer (atOneSymbol .read 1 [0x80]) = some (.ok, atOneSymbol .read 1 [0x80]) ∧
      (atOneSymbol .read 1 [0x80]).input[(0 : Nat)]? = some 0x80 ∧ (atOneSymbol .read 1 [0x80]).cur = some 1 ∧
      bitsBelow 0x80 8 = [] ++ true :: List.replicate 7 false ∧
      branch (atOneSymbol .read 1 [0x80]).arena.node 1 true = none) ∧
    (takeAnswer (atOneSymbol (.emit 0x20 6) 0 []) = some (.ok, atOneSymbol (.emit 0x20 6) 0 []) ∧
      (atOneSymbol (.emit 0x20 6) 0 []).cur = some 0 ∧ (atOneSymbol (.emit 0x20 6) 0 []).arena.root = some 1 ∧
      (atOneSymbol (.emit 0x20 6) 0 []).decoded + 1 ≠ (atOneSymbol (.emit 0x20 6) 0 []).origSize ∧
      bitsBelow 0x20 6 = [] ++ true :: List.replicate 5 false) ∧
    (bitsBelow 0x00 8 = [] ++ false :: List.replicate 7 false ∧
      branch (atOneSymbol .read 1 [0x00]).arena.node 1 false = some 0 ∧
      ((atOneSymbol .read 1 [0x00]).arena.node[(0 : NodeId)]).kind = .leaf) ∧
    bitsBelow 0x00 0 = [] ∧ Through (atOneSymbol .read 1 []).arena.node 1 [] 1 :=
  ⟨⟨rfl, rfl, rfl, by decide, by decide +kernel⟩, ⟨rfl, rfl, rfl, by decide, by decide⟩,
    ⟨by decide, by decide +kernel, by decide +kernel⟩, rfl, rfl⟩

/-- A path of one internal node: `Through` is met beyond the empty path. -/
theorem test_hyps_Through :
    Through (Arena.reset.node.set 1 ⟨.internal, 0, 0, some 1, none⟩) 1 [false] 1 :=
  ⟨1, by decide +kernel, by decide +kernel, rfl⟩

/-- V-PACK-8: the third bit of `0x20` at the one-symbol root ends with `CorruptBody`, two symbols standing on `OUT`. -/
theorem test_dcmpHuf_absent_child :
    nextHolds (fun t => statusWord t.status == 0x00000702#32 && t.output == [0x78, 0x78] && t.outCount == 2)
      (exec .dcmpHuf { atOneSymbol (.emit 0x20 6) 0 [] with output := [0x78], outCount := 1, decoded := 1 }) = true := by
  decide +kernel

/-- The write of the last of one symbol. -/
def lastSymbol : State := { busyIn (.hufBody (.emit 0x40 6)) with cur := some 0, decoded := 0, origSize := 1 }

theorem test_hyps_BodyStopsAtTheSize :
    lastSymbol.phase = .hufBody (.emit 0x40 6) ∧ takeAnswer lastSymbol = some (.ok, lastSymbol) ∧
      lastSymbol.cur = some 0 ∧ lastSymbol.decoded + 1 = lastSymbol.origSize :=
  ⟨rfl, rfl, rfl, by decide⟩

/-! ## The invariants' hypotheses: each before a step that touches what the invariant is about -/

theorem test_hyps_StepKeepsStatus :
    ∃ t, StatusInv (busyIn (.rleDec .count)) ∧ step (busyIn (.rleDec .count)) = .next t :=
  ⟨_, by unfold StatusInv; decide, rfl⟩

theorem test_hyps_StepKeepsRanges :
    ∃ t, RangeInv (reading (.rleEnc .read) [5]) ∧ step (reading (.rleEnc .read) [5]) = .next t :=
  ⟨_, by unfold RangeInv; decide, rfl⟩

/-- A run of 254, one below the cap. -/
def longRun : State := { reading (.rleEnc .read) [5] with runVal := 5, runCnt := 254, runValid := true }

theorem test_hyps_StepKeepsRunCounts : ∃ t, StatusInv longRun ∧ RunInv longRun ∧ step longRun = .next t :=
  ⟨_, by unfold StatusInv; decide, by simp [RunInv, longRun, reading, busyIn], rfl⟩

/-- Seven bits in the accumulator, one below a byte. -/
def sevenBits : State := { busyIn .hufFlush with acc := 0x7F, bitCnt := 7 }

theorem test_hyps_StepKeepsThePacker : ∃ t, StatusInv sevenBits ∧ PackerInv sevenBits ∧ step sevenBits = .next t :=
  ⟨_, by unfold StatusInv; decide, by simp [PackerInv, sevenBits, busyIn], rfl⟩

theorem test_hyps_StepKeepsDecodedBelowSize :
    ∃ t, StatusInv lastSymbol ∧ DecodedInv lastSymbol ∧ step lastSymbol = .next t :=
  ⟨_, by unfold StatusInv; decide, by simp only [DecodedInv, lastSymbol, busyIn]; decide, rfl⟩

theorem test_hyps_StepKeepsFrequencySum :
    ∃ t, StatusInv (reading .hufPass1 [5]) ∧ FreqInv (reading .hufPass1 [5]) ∧ step (reading .hufPass1 [5]) = .next t :=
  ⟨_, by unfold StatusInv; decide, by intro; unfold freqSum; decide +kernel, rfl⟩

/-- Two idle machines that differ in `ACC`. -/
theorem test_hyps_NothingPersistsAcrossCommands :
    State.reset.phase = .idle ∧ hideTables State.reset = hideTables { State.reset with acc := 1 } ∧
      State.reset.acc ≠ { State.reset with acc := 1 }.acc :=
  ⟨rfl, rfl, by decide⟩

/-! ## The heap, the tree and the codes -/

/-- No entry, and room for 256. -/
theorem test_hyps_HeapInsertKeepsTheHeap : Arena.reset.hsize < 256 ∧ HeapOrdered Arena.reset :=
  ⟨by decide, fun i _ h => absurd h (Nat.not_lt_zero i)⟩

/-- A heap of three entries with equal keys: two of them are left to sink in. -/
theorem test_hyps_HeapExtractMinTakesTheLeast :
    0 < { Arena.reset with hsize := 3 }.hsize ∧ { Arena.reset with hsize := 3 }.hsize ≤ 256 ∧
      HeapOrdered { Arena.reset with hsize := 3 } ∧
      ∃ r, heapExtractMin { Arena.reset with hsize := 3 } = some r ∧ 0 < r.2.hsize := by
  refine ⟨by decide, by decide, fun i h0 h1 => ?_, _, rfl, by decide +kernel⟩
  obtain rfl | rfl : i = 1 ∨ i = 2 := by simp only at h1; omega
  all_goals decide +kernel

/-- The frequencies of one symbol, and of two. -/
def oneFrequency : Vector Word 256 := entryPut (Vector.replicate 256 0) 0x78 1000
def twoFrequencies : Vector Word 256 := entryPut oneFrequency 0x79 1

theorem test_hyps_BuildTreeNodeCount :
    distinctCount (Vector.replicate 256 0) = 0 ∧ distinctCount oneFrequency = 1 ∧ 2 ≤ distinctCount twoFrequencies := by
  decide +kernel

theorem test_hyps_SingleSymbolTree :
    entryAt oneFrequency 0x78 ≠ 0 ∧ ∀ c, c ≠ 0x78 → entryAt oneFrequency c = 0 := by
  decide +kernel

theorem test_hyps_TreeShape :
    (∃ a, 2 ≤ distinctCount twoFrequencies ∧ buildTree twoFrequencies Arena.reset = some a) ∧
      fourInserted.any (fun a => decide (a.nnodes < 511 ∧ a.hsize ≤ 256) &&
        (heapExtractMin a).any fun r => (heapExtractMin r.2).isSome) = true := by
  obtain ⟨a, h, -⟩ := buildTree_spec twoFrequencies Arena.reset
  exact ⟨⟨a, by decide +kernel, h⟩, by decide +kernel⟩

theorem test_hyps_BuildTreeDependsOnFrequenciesOnly :
    ∃ a b, buildTree twoFrequencies Arena.reset = some a ∧ buildTree twoFrequencies fourLeaves = some b := by
  obtain ⟨a, h, -⟩ := buildTree_spec twoFrequencies Arena.reset
  obtain ⟨b, g, -⟩ := buildTree_spec twoFrequencies fourLeaves
  exact ⟨a, b, h, g⟩

theorem test_hyps_CodeTableProperties :
    ∃ a b, buildTree twoFrequencies Arena.reset = some a ∧ 2 ≤ distinctCount twoFrequencies ∧
      entryAt twoFrequencies 0x78 ≠ 0 ∧ entryAt twoFrequencies 0x79 ≠ 0 ∧ (0x78 : Byte) ≠ 0x79 ∧
      buildTree oneFrequency Arena.reset = some b ∧ distinctCount oneFrequency = 1 := by
  obtain ⟨a, h, -⟩ := buildTree_spec twoFrequencies Arena.reset
  obtain ⟨b, g, -⟩ := buildTree_spec oneFrequency Arena.reset
  exact ⟨a, b, h, by decide +kernel, by decide +kernel, by decide +kernel, by decide, g, by decide +kernel⟩

/-! ## The commands, run to their end -/

/-- The premises of the RLE and Huffman runs: an idle machine, an honest host, an input at position 0. -/
theorem test_hyps_CmpRleWritesTheRunPairs :
    (holding [5, 5]).phase = .idle ∧ Honest (holding [5, 5]) ∧ (holding [5, 5]).inPos = 0 := by
  exact ⟨rfl, ⟨rfl, rfl⟩, rfl⟩

theorem test_hyps_RleStreamLaws :
    2 * 2 < (rleStream [5, 6, 7]).length ∧ 2 * 0 + 3 < (rleStream (List.replicate 256 5)).length ∧
      (rleStream (List.replicate 256 5))[2 * 0 + 1]? = (rleStream (List.replicate 256 5))[2 * 0 + 3]? ∧
      (5, 2) ∈ runsOf [5, 5] := by
  decide +kernel

/-- An even and an odd length. -/
theorem test_hyps_DcmpRleExpandsThePairs :
    ∀ bytes ∈ [[2, 5], [2, 5, 1]],
      (holding bytes).phase = .idle ∧ Honest (holding bytes) ∧ (holding bytes).inPos = 0 := by
  intro bytes _
  exact ⟨rfl, ⟨rfl, rfl⟩, rfl⟩

theorem test_hyps_RleRoundTrip :
    (holding [5, 5]).phase = .idle ∧ Honest (holding [5, 5]) ∧ (holding [5, 5]).inPos = 0 ∧ (holding [5, 5]).output = [] := by
  exact ⟨rfl, ⟨rfl, rfl⟩, rfl, rfl⟩

theorem test_hyps_EmptyInputGivesTheEmptyContainer :
    State.reset.phase = .idle ∧ Honest State.reset ∧ State.reset.input = [] :=
  ⟨rfl, ⟨rfl, rfl⟩, rfl⟩

theorem countsFit_short {bytes : List Byte} (h : bytes.length < 2 ^ 32) : CountsFit bytes :=
  fun _ => Nat.lt_of_le_of_lt List.count_le_length h

theorem test_hyps_CmpHufWritesTheContainer :
    (holding [5, 6]).phase = .idle ∧ Honest (holding [5, 6]) ∧ (holding [5, 6]).inPos = 0 ∧ (holding [5, 6]).input ≠ [] ∧
      CountsFit (holding [5, 6]).input :=
  ⟨rfl, ⟨rfl, rfl⟩, rfl, by decide, countsFit_short (by decide)⟩

theorem test_hyps_ContainerLayout :
    ([5] : List Byte) ≠ [] ∧ CountsFit [5] ∧ 0 < ([5] : List Byte).count 5 :=
  ⟨by decide, countsFit_short (by decide), by decide⟩

/-- V-CONT-1: the entry of `b`, with one smaller symbol present, and the sizes of its fields. -/
theorem test_presentBelow : presentBelow [0x61, 0x62] 0x62 = 1 ∧ leValue [0x0A, 0x01] = 266 := by decide +kernel

/-- The empty input too. -/
theorem test_hyps_HuffmanRoundTrip :
    ∀ bytes ∈ [[], [5], [5, 6]],
      (holding bytes).phase = .idle ∧ Honest (holding bytes) ∧ (holding bytes).inPos = 0 ∧ (holding bytes).output = [] ∧
        CountsFit (holding bytes).input := by
  intro bytes h
  refine ⟨rfl, ⟨rfl, rfl⟩, rfl, rfl, countsFit_short ?_⟩
  simp only [List.mem_cons, List.not_mem_nil, or_false] at h
  rcases h with rfl | rfl | rfl <;> decide

/-- Four bytes that differ from `MAGIC` in the first. -/
def badMagic : List Byte := [Config.magic[0] + 1, 0, 0, 0]

theorem badMagic_ne : badMagic.take 4 ≠ Config.magic.toList := by
  intro h
  have h0 : Config.magic.toList[0]? = some Config.magic[0] := by simp
  rw [← h] at h0
  simp [badMagic] at h0

theorem test_hyps_BadMagicIsRejected :
    (holding badMagic).phase = .idle ∧ Honest (holding badMagic) ∧ (holding badMagic).inPos = 0 ∧
      4 ≤ (holding badMagic).input.length ∧ (holding badMagic).input.take 4 ≠ Config.magic.toList :=
  ⟨rfl, ⟨rfl, rfl⟩, rfl, by decide, badMagic_ne⟩

/-- No byte at all, and twelve bytes with the right magic. -/
theorem test_hyps_TruncatedHeaderIsRejected :
    ∀ bytes ∈ [[], Config.magic.toList ++ List.replicate 8 0],
      (holding bytes).phase = .idle ∧ Honest (holding bytes) ∧ (holding bytes).inPos = 0 ∧
        (holding bytes).input.length < 13 ∧
        (4 ≤ (holding bytes).input.length → (holding bytes).input.take 4 = Config.magic.toList) := by
  simp only [List.mem_cons, List.not_mem_nil, or_false]
  rintro bytes (rfl | rfl) <;> refine ⟨rfl, ⟨rfl, rfl⟩, rfl, by simp [holding], ?_⟩
  · intro h; simp [holding] at h
  · intro; simp [holding]

theorem test_hyps_SizeZeroEndsAfterTheHeader :
    let bytes := Config.magic.toList ++ [3] ++ List.replicate 8 0 ++ [0x6A]
    (holding bytes).phase = .idle ∧ Honest (holding bytes) ∧ (holding bytes).inPos = 0 ∧
      (holding bytes).input = Config.magic.toList ++ [3] ++ List.replicate 8 0 ++ [0x6A] :=
  ⟨rfl, ⟨rfl, rfl⟩, rfl, rfl⟩

/-- The eight size bytes of 1. -/
def sizeOne : List Byte := [1, 0, 0, 0, 0, 0, 0, 0]

theorem sizeOne_spec : sizeOne.length = 8 ∧ leValue sizeOne ≠ 0 := by decide

/-- One entry declared and none there, and 256 declared (count byte 0) and all but the last byte there. -/
theorem test_hyps_TruncatedTableIsRejected :
    ∀ q ∈ [((1 : Byte), ([] : List Byte)), (0, List.replicate 1279 0)],
      let bytes := Config.magic.toList ++ [q.1] ++ sizeOne ++ q.2
      (holding bytes).phase = .idle ∧ Honest (holding bytes) ∧ (holding bytes).inPos = 0 ∧
        (sizeOne.length = 8 ∧ leValue sizeOne ≠ 0) ∧
        (holding bytes).input = bytes ∧ q.2.length < 5 * (if q.1 = 0 then 256 else q.1.toNat) := by
  simp only [List.mem_cons, List.not_mem_nil, or_false]
  rintro q (rfl | rfl)
  · exact ⟨rfl, ⟨rfl, rfl⟩, rfl, sizeOne_spec, rfl, by decide⟩
  · exact ⟨rfl, ⟨rfl, rfl⟩, rfl, sizeOne_spec, rfl, by rw [List.length_replicate]; decide⟩

theorem test_hyps_AllZeroTableIsRejected :
    ∀ q ∈ [((1 : Byte), ([7] : List Byte)), (0, List.replicate 256 7)],
      let bytes := Config.magic.toList ++ [q.1] ++ sizeOne ++ (q.2.flatMap fun c => [c, 0, 0, 0, 0]) ++ [0]
      (holding bytes).phase = .idle ∧ Honest (holding bytes) ∧ (holding bytes).inPos = 0 ∧
        (sizeOne.length = 8 ∧ leValue sizeOne ≠ 0) ∧
        q.2.length = (if q.1 = 0 then 256 else q.1.toNat) ∧ (holding bytes).input = bytes := by
  simp only [List.mem_cons, List.not_mem_nil, or_false]
  rintro q (rfl | rfl)
  · exact ⟨rfl, ⟨rfl, rfl⟩, rfl, sizeOne_spec, by decide, rfl⟩
  · exact ⟨rfl, ⟨rfl, rfl⟩, rfl, sizeOne_spec, by rw [List.length_replicate]; decide, rfl⟩

/-- A host that answers `Err` first still answers every transaction. -/
theorem test_hyps_EveryAnsweredCommandEnds :
    { State.reset with answers := [.err 0 false] }.phase = .idle ∧ Answering { State.reset with answers := [.err 0 false] } :=
  ⟨rfl, rfl⟩

theorem test_hyps_TransactionBounds :
    (holding [5]).phase = .idle ∧ Honest (holding [5]) ∧ (holding [5]).inPos = 0 :=
  ⟨rfl, ⟨rfl, rfl⟩, rfl⟩

theorem test_hyps_MachineRunsTheCommandToItsEnd :
    ∃ t, phaseCommand (busyIn (.rleDec .count)).phase = some .dcmpRle ∧ Honest (busyIn (.rleDec .count)) ∧
      (busyIn (.rleDec .count)).turns = [] ∧ commandRun .dcmpRle 1 (busyIn (.rleDec .count)) = .next t ∧ t.phase = .idle :=
  ⟨_, rfl, ⟨rfl, rfl⟩, rfl, rfl, rfl⟩

end Sys2Proof.Tests
end

/-! The statements of 10_state.md: the status invariant, the one transaction of an engine step, the register window, reset,
and that no command sees what an earlier one left. -/

namespace Sys2Proof.Machine

/-! ## Small facts about phases and statuses -/

theorem phaseCommand_ne_idle {p : Phase} {i : Instr} (h : phaseCommand p = some i) : p ≠ .idle := by
  rintro rfl; cases h

theorem errorCode_le (e : Error) : (errorCode e).toNat ≤ 9 := by cases e <;> decide

/-! ## The status invariant (R33, R51, R600) -/

/-- The invariant speaks of `STATUS` and `PHASE` alone. -/
theorem StatusInv.congr {s t : State} (h : StatusInv s) (hs : t.status = s.status) (hp : t.phase = s.phase) :
    StatusInv t := by
  unfold StatusInv
  rw [hs, hp]
  exact h

theorem StatusInv.idle {s : State} (h : StatusInv s) (hb : s.status.busy = false) : s.phase = .idle := by
  by_contra hp
  exact absurd (h.1.mpr hp) (by simp [hb])

theorem StatusInv.busy {s : State} (h : StatusInv s) {i : Instr} (hi : phaseCommand s.phase = some i) :
    s.status.busy = true := h.1.mpr (phaseCommand_ne_idle hi)

/-- In `IDLE`, with `BUSY` 0 and a code of R600, the invariant holds. -/
theorem statusInv_of_idle {s : State} (hp : s.phase = .idle) (hb : s.status.busy = false)
    (he : s.status.err.toNat ≤ 9) : StatusInv s := by
  simp [StatusInv, hp, hb, he]

/-- In a phase of a command, with the status that `StartCommand` set (R510), the invariant holds. -/
theorem statusInv_of_started {s : State} {i : Instr} (hi : phaseCommand s.phase = some i)
    (hs : s.status = statusStarted) : StatusInv s := by
  simp [StatusInv, hs, statusStarted, phaseCommand_ne_idle hi]

/-- A command that has ended left a status that meets the invariant (R604, R605). -/
theorem statusInv_of_ended {s : State} (hp : s.phase = .idle)
    (hs : s.status = statusFinished ∨ ∃ e, s.status = statusRaised e) : StatusInv s := by
  rcases hs with hs | ⟨e, hs⟩
  · exact statusInv_of_idle hp (by rw [hs]; rfl) (by rw [hs]; decide)
  · exact statusInv_of_idle hp (by rw [hs]; rfl) (by rw [hs]; exact errorCode_le e)

/-- A transaction of a running command keeps the status invariant. -/
theorem exec_running_statusInv {i : Instr} {s t : State} (h : StatusInv s) (hi : phaseCommand s.phase = some i)
    (he : exec i s = .next t) : StatusInv t := by
  rcases exec_continues hi he with ⟨hp, hs⟩ | ⟨hp, hs⟩
  · have hb := h.busy hi
    obtain ⟨-, hd, herr, hle⟩ := h
    unfold StatusInv
    rw [hs]
    exact ⟨iff_of_true hb (phaseCommand_ne_idle hp), hd, herr, hle⟩
  · exact statusInv_of_ended hp (hs.imp_right fun ⟨e, _, hr⟩ => ⟨e, hr⟩)

/-- The start step of a command (R510, R511) establishes the status invariant. -/
theorem exec_start_statusInv {i : Instr} {v : Word} {s t : State} (hp : s.phase = .idle)
    (he : exec i (startCommand v s) = .next t) : StatusInv t := by
  rcases exec_idle_cases (s := startCommand v s) hp he with
    ⟨-, rfl⟩ | ⟨-, rfl⟩ | ⟨-, rfl⟩ | ⟨-, rfl⟩ | ⟨w, -, rfl⟩
  · exact statusInv_of_started (i := .cmpRle) rfl rfl
  · exact statusInv_of_started (i := .dcmpRle) rfl rfl
  · exact statusInv_of_started (i := .cmpHuf) rfl rfl
  · exact statusInv_of_started (i := .dcmpHuf) rfl rfl
  · exact statusInv_of_ended rfl (.inr ⟨_, rfl⟩)

theorem reset_statusInv : StatusInv State.reset := statusInv_of_idle rfl rfl (by decide)

/-- A host operation or a reset keeps the status invariant. -/
theorem runHostOp_statusInv {op : HostOp} {s t : State} (h : StatusInv s) (he : runHostOp op s = .next t) :
    StatusInv t := by
  rcases runHostOp_cases he with ⟨o, rfl⟩ | rfl | rfl | ⟨v, hb, hx⟩ |
    ⟨-, ⟨bytes, rfl⟩ | ⟨bytes, rfl⟩ | rfl | rfl⟩ | ⟨pos, kept, -, rfl⟩
  · exact h.congr rfl rfl
  · exact h
  · exact h.congr rfl rfl
  · exact exec_start_statusInv (h.idle hb) hx
  · exact h.congr rfl rfl
  · exact h.congr rfl rfl
  · exact h.congr rfl rfl
  · exact h.congr rfl rfl
  · exact reset_statusInv.congr rfl rfl

/-- Settles O31: a step is a transaction of the running command, the host's operation, or nothing, and each keeps the
invariant. -/
theorem stepKeepsStatus : Obligations.StepKeepsStatus := by
  intro s t h he
  rcases step_cases he with ⟨i, hi, hx⟩ | rfl | ⟨op, rest, -, hx⟩
  · refine exec_running_statusInv ?_ (i := i) ?_ hx
    exacts [h.congr rfl rfl, hi]
  · exact h.congr rfl rfl
  · refine runHostOp_statusInv ?_ hx
    exact h.congr rfl rfl

/-! ## The one transaction of an engine step (R30, R101 to R103, R120) -/

/-- The state once the host has given the answer `a` to the transaction in flight, before the computation after it. -/
def answered (f : InFlight) (a : Answer) (s : State) : State :=
  match f with
  | .nothing => s
  | .read => (inRead a s).2
  | .rewind => (inRewind a s).2
  | .write b => (outWrite a b s).2

/-- What follows a read leaves the streams as the read left them. -/
theorem rd_sameStreams {a : Answer} {e : State → Result} {f : Byte → State → Result} {s t : State} (he : Quiet e)
    (hf : ∀ b, Quiet (f b)) (h : rd a e f s = .next t) : SameStreams (answered .read a s) t := by
  unfold rd at h
  split at h <;> rename_i hr <;> rw [answered, hr]
  · exact raise_quiet _ _ _ h
  · exact he _ _ h
  · exact hf _ _ _ h

theorem rdOr_sameStreams {a : Answer} {e : Error} {f : Byte → State → Result} {s t : State} (hf : ∀ b, Quiet (f b))
    (h : rdOr a e f s = .next t) : SameStreams (answered .read a s) t := rd_sameStreams (raise_quiet e) hf h

/-- What follows a write leaves the streams as the write left them. -/
theorem wr_sameStreams {a : Answer} {b : Byte} {k : State → Result} {s t : State} (hk : Quiet k)
    (h : wr a b k s = .next t) : SameStreams (answered (.write b) a s) t := by
  unfold wr at h
  split at h <;> rename_i hw <;> rw [answered, hw]
  · exact raise_quiet _ _ _ h
  · exact hk _ _ h

theorem rewindStep_sameStreams {a : Answer} {s t : State} (h : rewindStep a s = .next t) :
    SameStreams (answered .rewind a s) t := by
  unfold rewindStep at h
  split at h <;> rename_i hr <;> rw [answered, hr]
  · exact raise_quiet _ _ _ h
  · exact pass2Start_quiet _ _ h

theorem finishPacked_quiet : Quiet fun s => .next (finish (packInit s)) := by
  intro s t h; cases h; exact ⟨rfl, rfl, rfl, rfl, rfl, rfl, rfl, rfl, rfl, rfl, rfl⟩

theorem packRest_quiet (rest : List Bool) : Quiet fun s => packBits pass2Packed rest (packInit s) := fun s _ h =>
  (packBits_quiet pass2Packed_quiet rest).after (s := s) h ⟨rfl, rfl, rfl, rfl, rfl, rfl, rfl, rfl, rfl, rfl, rfl⟩

/-- While a command runs, a transaction is in flight (R106). -/
theorem inFlight_ne_nothing {s : State} {i : Instr} (hi : phaseCommand s.phase = some i) : inFlight s ≠ .nothing := by
  intro h
  unfold inFlight at h
  split at h
  case h_1 hp => exact phaseCommand_ne_idle hi hp
  all_goals cases h

/-- A step of a running command leaves the streams and the host's side as the answer to the transaction in flight left
them. -/
theorem exec_sameStreams {i : Instr} {s s1 t : State} {a : Answer} (hi : phaseCommand s.phase = some i)
    (ha : takeAnswer s = some (a, s1)) (h : exec i s = .next t) : SameStreams (answered (inFlight s) a s1) t := by
  have hs := takeAnswer_state ha
  have hk : ∀ {k : Answer → State → Result}, exec i s = transact k s → k a s1 = .next t := fun he => by
    rw [← h, he, transact_some ha]
  refine running_cases hi ?_ ?_ ?_ ?_ ?_ ?_ ?_ ?_ ?_ ?_ ?_
  · rintro p rfl hp
    have h1 := hk (exec_rleEnc hp)
    cases p <;> simp only [inFlight, hp]
    · exact rd_sameStreams encEof_quiet encByte_quiet h1
    · rw [hs] at h1 ⊢; exact wr_sameStreams (issue_quiet _) h1
    · rw [hs] at h1 ⊢; exact wr_sameStreams (encClosed_quiet _) h1
  · rintro p rfl hp
    have h1 := hk (exec_rleDec hp)
    cases p <;> simp only [inFlight, hp]
    · exact rd_sameStreams finish_quiet (fun c => issue_quiet _) h1
    · exact rdOr_sameStreams (fun v => decEmit_quiet v _) h1
    · exact wr_sameStreams (decEmit_quiet _ _) h1
  · rintro rfl hp
    simp only [inFlight, hp]
    exact rd_sameStreams pass1Eof_quiet pass1Byte_quiet (hk (exec_hufPass1 hp))
  · rintro b rest rfl hp
    simp only [inFlight, hp]
    exact wr_sameStreams (writeAll_quiet headerWritten_quiet _) (hk (exec_hufHdrW hp))
  · rintro b rest rfl hp
    simp only [inFlight, hp]
    exact wr_sameStreams (writeAll_quiet (issue_quiet _) _) (hk (exec_hufTabW hp))
  · rintro rfl hp
    simp only [inFlight, hp]
    exact rewindStep_sameStreams (hk (exec_hufRewind hp))
  · rintro p rfl hp
    have h1 := hk (exec_hufPass2 hp)
    cases p <;> simp only [inFlight, hp]
    · exact rdOr_sameStreams pass2Byte_quiet h1
    · rw [hs] at h1 ⊢; exact wr_sameStreams (packRest_quiet _) h1
  · rintro rfl hp
    have h1 := hk (exec_hufFlush hp)
    simp only [inFlight, hp]
    rw [hs] at h1 ⊢; exact wr_sameStreams finishPacked_quiet h1
  · rintro got rfl hp
    simp only [inFlight, hp]
    exact rdOr_sameStreams (headerByte_quiet got) (hk (exec_hufHdrR hp))
  · rintro left got rfl hp
    simp only [inFlight, hp]
    exact rdOr_sameStreams (tableByte_quiet left got) (hk (exec_hufTabR hp))
  · rintro p rfl hp
    have h1 := hk (exec_hufBody hp)
    cases p <;> simp only [inFlight, hp]
    · exact rdOr_sameStreams (fun byte => walkBits_quiet byte 8) h1
    · rw [hs] at h1 ⊢; exact wr_sameStreams (bodyWritten_quiet _ _) h1

/-- An answered `InRead` takes a byte before the end of `IN`, and changes nothing at the end (R101). -/
theorem answered_read_cases {a : Answer} (ha : a.good = true) (s : State) :
    (s.inPos < s.input.length ∧ answered .read a s = afterByte s) ∨
    (s.input.length ≤ s.inPos ∧ answered .read a s = s) := by
  rcases lt_or_ge s.inPos s.input.length with h | h
  · have hb : s.input[s.inPos]? = some s.input[s.inPos] := List.getElem?_eq_getElem h
    refine .inl ⟨h, ?_⟩
    cases a <;> simp_all [Answer.good, answered, inRead, afterByte]
  · have hb : s.input[s.inPos]? = none := List.getElem?_eq_none h
    refine .inr ⟨h, ?_⟩
    cases a <;> simp_all [Answer.good, answered, inRead]

/-- The answer changes the streams and counters, not the answers still to come. -/
theorem answered_answers (f : InFlight) (a : Answer) (s : State) : (answered f a s).answers = s.answers := by
  cases f with
  | nothing => rfl
  | read =>
    by_cases ha : a.good = true
    · rcases answered_read_cases ha s with ⟨-, h⟩ | ⟨-, h⟩ <;> rw [h]
      rfl
    · cases a <;> simp [Answer.good] at ha
      rfl
  | rewind => cases a <;> rfl
  | write b =>
    cases a with
    | err pos kept => cases kept <;> rfl
    | ok => rfl
    | okChanged bytes => rfl

/-- What an answered read does to the streams and counters (R101, R34). -/
theorem read_effect {a : Answer} {s t : State} (ha : a.good = true) (h : SameStreams (answered .read a s) t) :
    t.input = s.input ∧ t.output = s.output ∧ t.outCount = s.outCount ∧
      (s.inPos < s.input.length → t.inPos = s.inPos + 1 ∧ t.inCount = s.inCount + 1) ∧
      (s.input.length ≤ s.inPos → t.inPos = s.inPos ∧ t.inCount = s.inCount) := by
  rcases answered_read_cases ha s with ⟨hp, hr⟩ | ⟨hp, hr⟩ <;> rw [hr] at h
  · exact ⟨h.input, h.output, h.outCount, fun _ => ⟨h.inPos, h.inCount⟩, fun hge => absurd hp (not_lt.mpr hge)⟩
  · exact ⟨h.input, h.output, h.outCount, fun hlt => absurd hlt (not_lt.mpr hp), fun _ => ⟨h.inPos, h.inCount⟩⟩

/-- Settles O19: the streams and counters are as the answer left them, and the answer is what `InRead`, `InRewind` or
`OutWrite` makes of it. -/
theorem oneTransactionPerEngineStep : Obligations.OneTransactionPerEngineStep := by
  intro i s s1 t a hi ha h
  have ht := exec_sameStreams hi ha h
  have hne := inFlight_ne_nothing hi
  have hs := takeAnswer_state ha
  generalize inFlight s = f at ht hne ⊢
  generalize s1.answers = rest at hs ⊢
  subst hs
  have hans : t.answers = rest := ht.answers.trans (answered_answers f a _)
  cases f with
  | nothing => exact absurd rfl hne
  | read =>
    have hr : a.good = true → _ := fun hg => read_effect hg ht
    cases a with
    | ok => exact ⟨hans, hr rfl⟩
    | okChanged bytes => exact ⟨hans, hr rfl⟩
    | err pos kept => exact ⟨hans, ht.inPos, ht.inCount, ht.input, ht.output, ht.outCount⟩
  | rewind => cases a <;> exact ⟨hans, ht.inPos, ht.inCount, ht.input, ht.output, ht.outCount⟩
  | write b =>
    cases a with
    | ok => exact ⟨hans, ht.output, ht.outCount, ht.input, ht.inPos, ht.inCount⟩
    | okChanged bytes => exact ⟨hans, ht.output, ht.outCount, ht.input, ht.inPos, ht.inCount⟩
    | err pos kept => cases kept <;> exact ⟨hans, ht.output, ht.outCount, ht.input, ht.inPos, ht.inCount⟩

end Sys2Proof.Machine

namespace Sys2Proof.Machine

/-! ## The register window (R31 to R38, R110, R114) -/

/-- Settles O4: the engine's turn is the meaning of its phase's command. -/
theorem stepRunsTheRunningCommand : Obligations.StepRunsTheRunningCommand := by
  intro s i hi ha
  simp only [step, oneMove, ha, engineMove, hi]

theorem accessDefined_of_aligned {o : Nat} (h4 : o % 4 = 0) (ho : o ≤ 0x3C) : accessDefined o 4 = true := by
  simp [accessDefined, h4, ho]

/-- A host's read of an aligned word of the window appends that word to what it has read. -/
theorem step_memRead {s : State} {o : Nat} {rest : List HostOp} (ha : nextAgent s = .host) (h4 : o % 4 = 0)
    (ho : o ≤ 0x3C) (hp : s.program = .memRead (.offset o) 4 :: rest) :
    step s = .next { s with program := rest, turns := s.turns.tail, reads := s.reads ++ [windowRead s o] } := by
  rw [step_host ha hp]
  simp only [runHostOp, windowAccess, placeOffset, accessDefined_of_aligned h4 ho, ↓reduceIte]
  rfl

/-- A host's write of an aligned word of the window is the write of that register. -/
theorem step_memWrite {s : State} {o : Nat} {v : Word} {rest : List HostOp} (ha : nextAgent s = .host) (h4 : o % 4 = 0)
    (ho : o ≤ 0x3C) (hp : s.program = .memWrite (.offset o) 4 v :: rest) :
    step s = windowWrite o v { s with program := rest, turns := s.turns.tail } := by
  rw [step_host ha hp]
  simp only [runHostOp, windowAccess, placeOffset, accessDefined_of_aligned h4 ho, ↓reduceIte]

/-- Only a write to `CMD` has an effect (R38). -/
theorem windowWrite_ignored {o : Nat} (ho : 0 < o) (v : Word) (s : State) : windowWrite o v s = .next s := by
  cases o with
  | zero => exact absurd ho (lt_irrefl 0)
  | succ o => rfl

/-- An offset from 0x24 on is reserved: it reads 0 (R38). -/
theorem windowRead_reserved {o : Nat} (ho : 0x24 ≤ o) (s : State) : windowRead s o = 0#32 := by
  unfold windowRead
  split
  case h_10 => rfl
  all_goals omega

/-- Settles O7: the write does not reach a register, and the read is of a reserved offset. -/
theorem reservedAndReadOnlyOffsets : Obligations.ReservedAndReadOnlyOffsets := by
  intro s o v rest ha h4 h0 ho
  refine ⟨fun hp => ?_, fun hr hp => ?_⟩
  · rw [step_memWrite ha h4 ho hp, windowWrite_ignored h0]
  · rw [step_memRead ha h4 ho hp, windowRead_reserved hr]

theorem lowHalf_toNat (v : U64) : (lowHalf v).toNat = v.toNat % 2 ^ 32 := by
  simp [lowHalf]

theorem highHalf_toNat (v : U64) : (highHalf v).toNat = v.toNat / 2 ^ 32 := by
  have := v.isLt
  simp only [highHalf, BitVec.extractLsb'_toNat, Nat.shiftRight_eq_div_pow]
  omega

/-- Settles O8: the word appended is the register of its offset. -/
theorem windowReadsReturnTheRegisters : Obligations.WindowReadsReturnTheRegisters := by
  intro s o rest ha h4 ho hp
  refine ⟨windowRead s o, step_memRead ha h4 (by omega) hp, ?_, ?_, ?_, ?_, ?_, ?_, ?_, ?_, ?_⟩ <;> rintro rfl
  · rfl
  · rfl
  · exact lowHalf_toNat _
  · exact highHalf_toNat _
  · exact lowHalf_toNat _
  · exact highHalf_toNat _
  · exact lowHalf_toNat _
  · exact highHalf_toNat _
  · show (s.nsym.setWidth 32).toNat = _
    rw [BitVec.toNat_setWidth_of_le (by decide)]

/-- The fields of `STATUS`, from the lowest bit up. -/
theorem statusWord_getLsbD (t : Status) (k : Nat) :
    (statusWord t).getLsbD k =
      if k = 0 then t.busy else if k = 1 then t.done else decide (8 ≤ k ∧ k ≤ 15) && t.err.getLsbD (k - 8) := by
  have hk : k = 0 ∨ k = 1 ∨ (2 ≤ k ∧ k < 8) ∨ (8 ≤ k ∧ k < 16) ∨ 16 ≤ k := by omega
  simp only [statusWord, BitVec.getLsbD_setWidth, BitVec.getLsbD_append, BitVec.getLsbD_ofBool,
    BitVec.getLsbD_zero]
  rcases hk with rfl | rfl | ⟨h2, h8⟩ | ⟨h8, h16⟩ | h16
  · simp
  · simp
  · simp (disch := omega) [if_pos, if_neg, decide_eq_false]
  · have hb : k - 1 - 1 - 6 = k - 8 := by omega
    simp (disch := omega) [if_pos, if_neg, decide_eq_true, hb]
  · simp (disch := omega) [if_neg, decide_eq_false]

/-- Settles O9: each bit lies in one field of the word. -/
theorem statusWordLayout : Obligations.StatusWordLayout := by
  intro t
  refine ⟨statusWord_getLsbD t 0, statusWord_getLsbD t 1, fun k h8 h15 => ?_, fun k hk => ?_⟩
  · rw [statusWord_getLsbD, if_neg (by omega), if_neg (by omega), decide_eq_true ⟨h8, h15⟩, Bool.true_and]
  · rw [statusWord_getLsbD, if_neg (by omega), if_neg (by omega), decide_eq_false (by omega), Bool.false_and]

/-! ## Reset (R52, R700) -/

/-- Settles O14: the registers of the window are 0 in `State.reset`. -/
theorem resetValues : Obligations.ResetValues := ⟨rfl, by decide, rfl, rfl, rfl, rfl, rfl⟩

/-- Settles O30: in `IDLE` the invariants about phases say nothing, and the counts are 0. -/
theorem resetMeetsTheInvariants : Obligations.ResetMeetsTheInvariants := by
  refine ⟨reset_statusInv, ⟨?_, ?_, ?_, ?_, ?_⟩, trivial, ⟨?_, trivial⟩, trivial, fun h => nomatch h⟩ <;> decide

end Sys2Proof.Machine

namespace Sys2Proof.Machine

/-! ## `BuildTree` and `GenCodes` do not see what the arena held before (R338)

Two arenas agree when they hold the same allocated nodes and the same heap. Every operation of `BuildTree` reads only those,
so it keeps the agreement; a new build starts with nothing allocated, where any two arenas agree. -/

/-- A handle that is `NONE` or one of the first `k` nodes. -/
def Below (k : Nat) (h : Handle) : Prop := ∀ x, h = some x → x.val < k

/-- The arenas agree on the allocated nodes, the heap's entries and the root, and these lead to allocated nodes only. -/
structure AgreeLive (a b : Arena) : Prop where
  nnodes : b.nnodes = a.nnodes
  hsize : b.hsize = a.hsize
  root : b.root = a.root
  node : ∀ x : NodeId, x.val < a.nnodes → b.node[x] = a.node[x]
  heap : ∀ i, i < a.hsize → heapAt b i = heapAt a i
  room : a.hsize ≤ 256
  rootBelow : Below a.nnodes a.root
  childBelow : ∀ x : NodeId, x.val < a.nnodes → Below a.nnodes (a.node[x]).left ∧ Below a.nnodes (a.node[x]).right
  heapBelow : ∀ i, i < a.hsize → (heapAt a i).val < a.nnodes

theorem Below.mono {j k : Nat} (hjk : j ≤ k) {h : Handle} (hb : Below j h) : Below k h :=
  fun x hx => lt_of_lt_of_le (hb x hx) hjk

theorem below_none (k : Nat) : Below k none := fun _ h => nomatch h

theorem below_some {k : Nat} {x : NodeId} (hx : x.val < k) : Below k (some x) := fun _ h => by cases h; exact hx

section
variable {a b : Arena}

theorem AgreeLive.nodeKey_eq (h : AgreeLive a b) {x : NodeId} (hx : x.val < a.nnodes) : nodeKey b x = nodeKey a x := by
  simp only [nodeKey, h.node x hx]

theorem AgreeLive.heapKey_eq (h : AgreeLive a b) {i : Nat} (hi : i < a.hsize) : heapKey b i = heapKey a i := by
  rw [heapKey, heapKey, h.heap i hi, h.nodeKey_eq (h.heapBelow i hi)]

/-- The same live handle stored at the same index, with the heap then `n` entries long. -/
theorem AgreeLive.put (h : AgreeLive a b) {i n : Nat} {x : NodeId} (hi : i < 256) (hx : x.val < a.nnodes) (hn : n ≤ 256)
    (hlt : ∀ k, k < n → k ≠ i → k < a.hsize) :
    AgreeLive { heapPut a i x with hsize := n } { heapPut b i x with hsize := n } where
  nnodes := h.nnodes
  hsize := rfl
  root := h.root
  node := h.node
  heap k hk := by
    show heapAt (heapPut b i x) k = heapAt (heapPut a i x) k
    rw [heapAt_put _ _ hi, heapAt_put _ _ hi]
    split
    · rfl
    · exact h.heap k (hlt k hk ‹_›)
  room := hn
  rootBelow := h.rootBelow
  childBelow := h.childBelow
  heapBelow k hk := by
    show (heapAt (heapPut a i x) k).val < a.nnodes
    rw [heapAt_put _ _ hi]
    split
    · exact hx
    · exact h.heapBelow k (hlt k hk ‹_›)

/-- The same live handle stored at an index of the heap. -/
theorem AgreeLive.replace (h : AgreeLive a b) {i : Nat} {x : NodeId} (hi : i < a.hsize) (hx : x.val < a.nnodes) :
    AgreeLive (heapPut a i x) (heapPut b i x) := by
  have hp := h.put (lt_of_lt_of_le hi h.room) hx h.room fun _ hk _ => hk
  nth_rewrite 2 [← h.hsize] at hp
  exact hp

theorem AgreeLive.swap (h : AgreeLive a b) {i j : Nat} (hi : i < a.hsize) (hj : j < a.hsize) :
    AgreeLive (heapSwap a i j) (heapSwap b i j) := by
  unfold heapSwap
  rw [h.heap i hi, h.heap j hj]
  exact (h.replace hi (h.heapBelow j hj)).replace hj (h.heapBelow i hi)

/-- The heap with its last entry dropped. -/
theorem AgreeLive.dropLast (h : AgreeLive a b) :
    AgreeLive { a with hsize := a.hsize - 1 } { b with hsize := a.hsize - 1 } where
  nnodes := h.nnodes
  hsize := rfl
  root := h.root
  node := h.node
  heap i hi := h.heap i (lt_of_lt_of_le hi (Nat.sub_le _ 1))
  room := (Nat.sub_le _ 1).trans h.room
  rootBelow := h.rootBelow
  childBelow := h.childBelow
  heapBelow i hi := h.heapBelow i (lt_of_lt_of_le hi (Nat.sub_le _ 1))

theorem AgreeLive.withRoot (h : AgreeLive a b) {x : NodeId} (hx : x.val < a.nnodes) :
    AgreeLive { a with root := some x } { b with root := some x } :=
  { h with root := rfl, rootBelow := below_some hx }

theorem siftUp_agree (fuel i : Nat) (h : AgreeLive a b) (hi : i < a.hsize) :
    AgreeLive (siftUp fuel i a) (siftUp fuel i b) := by
  induction fuel generalizing i a b with
  | zero => exact h
  | succ fuel ih =>
    have hp : heapParent i < a.hsize := by unfold heapParent; omega
    unfold siftUp
    rw [h.heapKey_eq hi, h.heapKey_eq hp]
    split
    · exact ih _ (h.swap hi hp) hp
    · exact h

theorem AgreeLive.smallerChild_eq (h : AgreeLive a b) {i : Nat} (hi : heapLeft i < a.hsize) :
    smallerChild b i = smallerChild a i := by
  unfold smallerChild
  rw [h.hsize]
  by_cases hr : heapRight i < a.hsize
  · rw [h.heapKey_eq hr, h.heapKey_eq hi]
  · simp only [hr, false_and, ↓reduceIte]

theorem siftDown_agree (fuel i : Nat) (h : AgreeLive a b) (hi : i < a.hsize) :
    AgreeLive (siftDown fuel i a) (siftDown fuel i b) := by
  induction fuel generalizing i a b with
  | zero => exact h
  | succ fuel ih =>
    unfold siftDown
    rw [h.hsize]
    split
    · exact h
    · have hl : heapLeft i < a.hsize := by omega
      have hc := smallerChild_lt hl
      rw [h.smallerChild_eq hl, h.heapKey_eq hc, h.heapKey_eq hi]
      split
      · exact ih _ (h.swap hi hc) hc
      · exact h

theorem heapInsert_agree (h : AgreeLive a b) {x : NodeId} (hx : x.val < a.nnodes) {a' : Arena}
    (ha : heapInsert x a = some a') : ∃ b', heapInsert x b = some b' ∧ AgreeLive a' b' := by
  unfold heapInsert at ha ⊢
  rw [h.hsize]
  split at ha
  · rename_i hs
    cases ha
    rw [if_pos hs]
    exact ⟨_, rfl, siftUp_agree _ _ (h.put hs hx hs fun k hk hne => by omega) (Nat.lt_succ_self _)⟩
  · cases ha

theorem heapRefill_agree (h : AgreeLive a b) (h0 : 0 < a.hsize) :
    AgreeLive (heapRefill { a with hsize := a.hsize - 1 }) (heapRefill { b with hsize := a.hsize - 1 }) := by
  unfold heapRefill
  split
  · rename_i hpos
    refine siftDown_agree _ _ ?_ hpos
    show AgreeLive (heapPut _ 0 (heapAt a (a.hsize - 1))) (heapPut _ 0 (heapAt b (a.hsize - 1)))
    rw [h.heap _ (Nat.sub_lt h0 Nat.one_pos)]
    exact h.dropLast.replace hpos (h.heapBelow _ (Nat.sub_lt h0 Nat.one_pos))
  · exact h.dropLast

theorem heapExtractMin_agree (h : AgreeLive a b) {x : NodeId} {a' : Arena} (ha : heapExtractMin a = some (x, a')) :
    ∃ b', heapExtractMin b = some (x, b') ∧ AgreeLive a' b' ∧ x.val < a.nnodes ∧ a'.nnodes = a.nnodes := by
  have h0 : 0 < a.hsize := by
    by_contra hn
    simp [heapExtractMin, hn] at ha
  obtain ⟨c, hc, -, -, -, hn, -⟩ := heapExtractMin_spec h0 h.room
  unfold heapExtractMin at ha hc ⊢
  rw [if_pos h0] at ha hc
  rw [h.hsize, if_pos h0, h.heap 0 h0]
  cases ha
  cases hc
  exact ⟨_, rfl, heapRefill_agree h h0, h.heapBelow 0 h0, hn⟩

/-- `NodeAlloc` (R331) takes the first node that is not allocated, if there is one. -/
theorem nodeAlloc_eq_some {n : Node} {x : NodeId} {a a' : Arena} :
    nodeAlloc n a = some (x, a') ↔
      x.val = a.nnodes ∧ a' = { a with node := a.node.set x.val n x.isLt, nnodes := a.nnodes + 1 } := by
  unfold nodeAlloc
  constructor
  · intro h
    split at h
    · cases h; exact ⟨rfl, rfl⟩
    · cases h
  · rintro ⟨hx, rfl⟩
    obtain ⟨k, hk⟩ := x
    subst hx
    rw [dif_pos hk]

theorem getElem_set_node (v : Vector Node 511) (x y : NodeId) (n : Node) :
    (v.set x.val n x.isLt)[y] = if y = x then n else v[y] := by
  simp only [Fin.getElem_fin, Vector.getElem_set, Fin.ext_iff, eq_comm]

theorem nodeAlloc_agree (h : AgreeLive a b) {n : Node} (hn : Below a.nnodes n.left ∧ Below a.nnodes n.right)
    {x : NodeId} {a' : Arena} (ha : nodeAlloc n a = some (x, a')) :
    ∃ b', nodeAlloc n b = some (x, b') ∧ AgreeLive a' b' ∧ x.val < a'.nnodes := by
  obtain ⟨hx, rfl⟩ := nodeAlloc_eq_some.mp ha
  have hlt {y : NodeId} (hy : y.val < a.nnodes + 1) (hne : y ≠ x) : y.val < a.nnodes := by
    have := Fin.val_ne_of_ne hne
    omega
  refine ⟨_, nodeAlloc_eq_some.mpr ⟨hx.trans h.nnodes.symm, rfl⟩, ?_, by simp [hx]⟩
  exact {
    nnodes := congrArg (· + 1) h.nnodes
    hsize := h.hsize
    root := h.root
    node := fun y hy => by
      show (b.node.set x.val n x.isLt)[y] = (a.node.set x.val n x.isLt)[y]
      rw [getElem_set_node, getElem_set_node]
      split
      · rfl
      · exact h.node y (hlt hy ‹_›)
    heap := h.heap
    room := h.room
    rootBelow := h.rootBelow.mono (Nat.le_succ _)
    childBelow := fun y hy => by
      show Below (a.nnodes + 1) ((a.node.set x.val n x.isLt)[y]).left ∧
        Below (a.nnodes + 1) ((a.node.set x.val n x.isLt)[y]).right
      rw [getElem_set_node]
      split
      · exact hn.imp (.mono (Nat.le_succ _)) (.mono (Nat.le_succ _))
      · exact (h.childBelow y (hlt hy ‹_›)).imp (.mono (Nat.le_succ _)) (.mono (Nat.le_succ _))
    heapBelow := fun i hi => Nat.lt_succ_of_lt (h.heapBelow i hi) }

theorem addLeaf_agree (h : AgreeLive a b) {freq : Vector Word 256} {s : Byte} {a' : Arena}
    (ha : addLeaf freq s a = some a') : ∃ b', addLeaf freq s b = some b' ∧ AgreeLive a' b' := by
  unfold addLeaf at ha ⊢
  split at ha
  · cases ha
    rw [if_pos ‹_›]
    exact ⟨b, rfl, h⟩
  · rw [if_neg ‹_›]
    split at ha
    · rename_i x a1 h1
      obtain ⟨b1, e1, k1, hx⟩ := nodeAlloc_agree h ⟨below_none _, below_none _⟩ h1
      rw [e1]
      exact heapInsert_agree k1 hx ha
    · cases ha

theorem addLeaves_agree (ss : List Byte) (h : AgreeLive a b) {freq : Vector Word 256} {a' : Arena}
    (ha : addLeaves freq ss a = some a') : ∃ b', addLeaves freq ss b = some b' ∧ AgreeLive a' b' := by
  induction ss generalizing a b with
  | nil => cases ha; exact ⟨b, rfl, h⟩
  | cons s rest ih =>
    unfold addLeaves at ha ⊢
    split at ha
    · rename_i a1 h1
      obtain ⟨b1, e1, k1⟩ := addLeaf_agree h h1
      rw [e1]
      exact ih k1 ha
    · cases ha

theorem mergeOnce_agree (h : AgreeLive a b) {a' : Arena} (ha : mergeOnce a = some a') :
    ∃ b', mergeOnce b = some b' ∧ AgreeLive a' b' := by
  unfold mergeOnce at ha ⊢
  split at ha
  · cases ha
  rename_i x a1 h1
  obtain ⟨b1, e1, k1, hx, n1⟩ := heapExtractMin_agree h h1
  split at ha
  · cases ha
  rename_i y a2 h2
  obtain ⟨b2, e2, k2, hy, n2⟩ := heapExtractMin_agree k1 h2
  split at ha
  · cases ha
  rename_i z a3 h3
  have hx2 : x.val < a2.nnodes := by omega
  have hy2 : y.val < a2.nnodes := by omega
  obtain ⟨b3, e3, k3, hz⟩ := nodeAlloc_agree k2 ⟨below_some hx2, below_some hy2⟩ h3
  have hm : mergedNode b2 x y = mergedNode a2 x y := by
    simp only [mergedNode, k2.nodeKey_eq hx2, k2.nodeKey_eq hy2]
  simp only [e1, e2, hm, e3]
  exact heapInsert_agree k3 hz ha

theorem mergeAll_agree (fuel : Nat) (h : AgreeLive a b) {a' : Arena} (ha : mergeAll fuel a = some a') :
    ∃ b', mergeAll fuel b = some b' ∧ AgreeLive a' b' := by
  induction fuel generalizing a b with
  | zero => cases ha; exact ⟨b, rfl, h⟩
  | succ fuel ih =>
    unfold mergeAll at ha ⊢
    rw [h.hsize]
    split at ha
    · rw [if_pos ‹_›]
      split at ha
      · rename_i a1 h1
        obtain ⟨b1, e1, k1⟩ := mergeOnce_agree h h1
        rw [e1]
        exact ih k1 ha
      · cases ha
    · cases ha
      rw [if_neg ‹_›]
      exact ⟨b, rfl, h⟩

theorem wrapSingle_agree (h : AgreeLive a b) (h0 : 0 < a.nnodes) {a' : Arena} (ha : wrapSingle a = some a') :
    ∃ b', wrapSingle b = some b' ∧ AgreeLive a' b' := by
  unfold wrapSingle at ha ⊢
  rw [h.nodeKey_eq (x := 0) h0]
  split at ha
  · rename_i x a1 h1
    obtain ⟨b1, e1, k1, hx⟩ := nodeAlloc_agree h ⟨below_some (x := 0) h0, below_none _⟩ h1
    cases ha
    rw [e1]
    exact ⟨_, rfl, k1.withRoot hx⟩
  · cases ha

theorem takeRoot_agree (h : AgreeLive a b) {a' : Arena} (ha : takeRoot a = some a') :
    ∃ b', takeRoot b = some b' ∧ AgreeLive a' b' := by
  unfold takeRoot at ha ⊢
  split at ha
  · rename_i x a1 h1
    obtain ⟨b1, e1, k1, hx, n1⟩ := heapExtractMin_agree h h1
    cases ha
    rw [e1]
    exact ⟨_, rfl, k1.withRoot (by omega)⟩
  · cases ha

end

/-- Nothing is allocated where `BuildTree` begins, so any two arenas agree there. -/
theorem emptied_agree (a b : Arena) :
    AgreeLive { heapInit a with nnodes := 0, root := none } { heapInit b with nnodes := 0, root := none } where
  nnodes := rfl
  hsize := rfl
  root := rfl
  node _ hx := absurd hx (Nat.not_lt_zero _)
  heap _ hi := absurd hi (Nat.not_lt_zero _)
  room := Nat.zero_le _
  rootBelow := below_none _
  childBelow _ hx := absurd hx (Nat.not_lt_zero _)
  heapBelow _ hi := absurd hi (Nat.not_lt_zero _)

/-- R338: `BuildTree` builds agreeing arenas from one frequency table, whatever the arenas held. -/
theorem buildTree_agree {freq : Vector Word 256} {a a' : Arena} (b : Arena) (ha : buildTree freq a = some a') :
    ∃ b', buildTree freq b = some b' ∧ AgreeLive a' b' := by
  unfold buildTree at ha ⊢
  split at ha
  · cases ha
  rename_i a1 h1
  obtain ⟨b1, e1, k1⟩ := addLeaves_agree allSymbols (emptied_agree a b) h1
  simp only [e1, k1.nnodes, k1.hsize]
  split at ha
  · cases ha
    rw [if_pos ‹_›]
    exact ⟨b1, rfl, k1⟩
  · rw [if_neg ‹_›]
    split at ha
    · rw [if_pos ‹_›]
      exact wrapSingle_agree k1 (by omega) ha
    · rw [if_neg ‹_›]
      split at ha
      · rename_i a2 h2
        obtain ⟨b2, e2, k2⟩ := mergeAll_agree _ k1 h2
        rw [e2]
        exact takeRoot_agree k2 ha
      · cases ha

theorem walkCodes_agree {a b : Arena} (h : AgreeLive a b) (fuel : Nat) {x : Handle} (hx : Below a.nnodes x)
    (len : BitVec 8) (val : BitVec 255) (c : Vector CodeEntry 256) :
    walkCodes b.node fuel x len val c = walkCodes a.node fuel x len val c := by
  induction fuel generalizing x len val c with
  | zero => rfl
  | succ fuel ih =>
    cases x with
    | none => rfl
    | some y =>
      have hy := hx y rfl
      obtain ⟨hl, hr⟩ := h.childBelow y hy
      unfold walkCodes
      rw [h.node y hy]
      cases (a.node[y]).kind with
      | leaf => rfl
      | internal => simp only [ih hl, ih hr]

/-- `GenCodes` (R381) reads the tree only. -/
theorem AgreeLive.genCodes_eq {a b : Arena} (h : AgreeLive a b) : genCodes b = genCodes a := by
  unfold genCodes
  rw [h.root]
  exact walkCodes_agree h _ h.rootBelow 0 0 _

/-- A child in the tree (R470) is the same in both arenas, and allocated. -/
theorem AgreeLive.childOf_eq {a b : Arena} (h : AgreeLive a b) {x : Handle} (hx : Below a.nnodes x) (bit : Bool) :
    childOf b x bit = childOf a x bit ∧ Below a.nnodes (childOf a x bit) := by
  cases x with
  | none => exact ⟨rfl, below_none _⟩
  | some y =>
    have hy := hx y rfl
    obtain ⟨hl, hr⟩ := h.childBelow y hy
    rw [childOf_some, childOf_some, branch, branch, h.node y hy]
    cases bit
    · exact ⟨rfl, hl⟩
    · exact ⟨rfl, hr⟩

end Sys2Proof.Machine

namespace Sys2Proof.Machine

/-! ## No value carries over from one command to the next (R49)

Two machines are twins when a host sees the same of both, and the registers and tables that the rest of the running command
still reads agree. Twins answer every step alike, with twins again. In `IDLE` nothing is still to be read, so there two
machines that a host cannot tell apart are twins. -/

/-- What a host can observe is the same, and so is the sequencing. States that differ from alike ones in hidden registers only
are alike by unfolding `hideTables`; below, `by exact h` is that step. -/
def Alike (s t : State) : Prop := hideTables s = hideTables t

/-- An update whose visible part is computed from what is visible keeps the likeness. -/
theorem Alike.update {s t : State} (h : Alike s t) (f : State → State)
    (hf : ∀ u, hideTables (f u) = hideTables (f (hideTables u)) := by intro u; rfl) : Alike (f s) (f t) :=
  (hf s).trans ((congrArg (fun u => hideTables (f u)) h).trans (hf t).symm)

/-- What is computed from the visible part is the same. -/
theorem Alike.same {s t : State} (h : Alike s t) {α : Type} (f : State → α)
    (hf : ∀ u, f (hideTables u) = f u := by intro u; rfl) : f t = f s :=
  (hf t).symm.trans ((congrArg f h.symm).trans (hf s))

theorem windowRead_hideTables (o : Nat) (s : State) : windowRead (hideTables s) o = windowRead s o := by
  unfold windowRead; split <;> rfl

/-- The answer taken, with the answers then left. -/
def answerTaken (s : State) : Option (Answer × List Answer) := (takeAnswer s).map fun r => (r.1, r.2.answers)

theorem answerTaken_hideTables (s : State) : answerTaken (hideTables s) = answerTaken s := by
  have ha : (hideTables s).answers = s.answers := rfl
  have hs : (hideTables s).serves = s.serves := rfl
  unfold answerTaken takeAnswer
  rw [ha, hs]
  split
  · rfl
  · split <;> simp [ha]

theorem nextAgent_hideTables (s : State) : nextAgent (hideTables s) = nextAgent s := by
  have hready (u : State) : engineReady u = (u.phase != .idle && (answerTaken u).isSome) := by
    rw [engineReady, answerTaken, Option.isSome_map]
  unfold nextAgent
  rw [hready, hready, answerTaken_hideTables]
  rfl

theorem takeAnswer_of_taken {s : State} {a : Answer} {rest : List Answer} (h : answerTaken s = some (a, rest)) :
    takeAnswer s = some (a, { s with answers := rest }) := by
  obtain ⟨⟨a', s1⟩, hs, he⟩ := Option.map_eq_some_iff.mp h
  cases he
  rw [hs, ← takeAnswer_state hs]

/-- The hidden registers and tables that a command in the phase `p` still reads are the same. -/
@[reducible] def LiveIn (p : Phase) (s t : State) : Prop :=
  match p with
  | .idle => True
  | .rleEnc at' => t.runValid = s.runValid ∧
      (at' ≠ .read ∨ s.runValid = true → t.runVal = s.runVal ∧ t.runCnt = s.runCnt)
  | .rleDec _ => True
  | .hufPass1 => t.freq = s.freq ∧ t.total = s.total
  | .hufHdrW _ _ => t.freq = s.freq ∧ t.total = s.total ∧ (s.total ≠ 0 → t.code = s.code)
  | .hufTabW _ _ => t.total = s.total ∧ t.code = s.code
  | .hufRewind => t.total = s.total ∧ t.code = s.code
  | .hufPass2 _ => t.code = s.code ∧ t.remain = s.remain ∧ t.acc = s.acc ∧ t.bitCnt = s.bitCnt
  | .hufFlush => t.acc = s.acc ∧ t.bitCnt = s.bitCnt
  | .hufHdrR got => 5 ≤ got.length → t.nsRaw = s.nsRaw
  | .hufTabR _ _ => t.freq = s.freq
  | .hufBody _ =>
    t.cur = s.cur ∧ t.decoded = s.decoded ∧ AgreeLive s.arena t.arena ∧ Below s.arena.nnodes s.cur

/-- Alike machines, with what the running command still reads. -/
structure Twin (s t : State) : Prop where
  alike : Alike s t
  live : LiveIn s.phase s t

/-- Outcomes of twins: twins, or the same fault or refusal. -/
inductive TwinResult : Result → Result → Prop where
  | next {s t : State} (h : Twin s t) : TwinResult (.next s) (.next t)
  | fault (f : Fault) : TwinResult (.fault f) (.fault f)
  | refused (r : Refusal) : TwinResult (.refused r) (.refused r)

section
variable {s t : State} (h : Alike s t)
include h

theorem issue_twin {p : Phase} (hl : LiveIn p s t) : TwinResult (issue p s) (issue p t) := by
  refine .next ⟨h.update fun u => { u with phase := p }, ?_⟩
  cases p <;> exact hl

theorem finish_twin : TwinResult (.next (finish s)) (.next (finish t)) := .next ⟨h.update finish, trivial⟩

theorem raise_twin (e : Error) : TwinResult (.next (raise e s)) (.next (raise e t)) :=
  .next ⟨h.update (raise e), trivial⟩

/-- One transaction of twins: the host gives both the same answer, or neither (R106). -/
theorem transact_twin {k : Answer → State → Result}
    (hk : ∀ a rest, Alike { s with answers := rest } { t with answers := rest } →
      TwinResult (k a { s with answers := rest }) (k a { t with answers := rest })) :
    TwinResult (transact k s) (transact k t) := by
  have ht := h.same answerTaken answerTaken_hideTables
  cases ha : answerTaken s with
  | none =>
    rw [transact_none (Option.map_eq_none_iff.mp ha), transact_none (Option.map_eq_none_iff.mp (ht.trans ha))]
    exact .fault _
  | some r =>
    rw [transact_some (takeAnswer_of_taken ha), transact_some (takeAnswer_of_taken (ht.trans ha))]
    exact hk _ _ (h.update fun u => { u with answers := r.2 })

/-- Twins read the same byte, or both meet the end, or both are answered `Err` (R101). -/
theorem rd_twin {a : Answer} {e : State → Result} {f : Byte → State → Result} (he : TwinResult (e s) (e t))
    (hf : ∀ b, Alike (afterByte s) (afterByte t) → TwinResult (f b (afterByte s)) (f b (afterByte t))) :
    TwinResult (rd a e f s) (rd a e f t) := by
  have hin := h.same State.input
  have hpos := h.same State.inPos
  rcases rd_cases a e f s with ⟨pos, kept, rfl, hr⟩ | ⟨ha, hp, hr⟩ | ⟨b, ha, hb, hr⟩ <;> rw [hr]
  · exact raise_twin (h.update (errPosition pos)) _
  · rw [rd_eof ha (by rw [hin, hpos]; exact hp)]
    exact he
  · rw [rd_byte ha (by rw [hin, hpos]; exact hb)]
    exact hf b (h.update afterByte)

theorem rdOr_twin {a : Answer} {e : Error} {f : Byte → State → Result}
    (hf : ∀ b, Alike (afterByte s) (afterByte t) → TwinResult (f b (afterByte s)) (f b (afterByte t))) :
    TwinResult (rdOr a e f s) (rdOr a e f t) := rd_twin h (raise_twin h e) hf

/-- Twins write the same byte, and both are answered `Ok` or `Err` (R103). -/
theorem wr_twin {a : Answer} {b c : Byte} {k : State → Result} (hc : c = b)
    (hk : Alike (afterWrite b s) (afterWrite b t) → TwinResult (k (afterWrite b s)) (k (afterWrite b t))) :
    TwinResult (wr a b k s) (wr a c k t) := by
  subst hc
  rcases wr_cases a c k s with ⟨pos, kept, rfl, hr⟩ | ⟨ha, hr⟩ <;> rw [hr]
  · cases kept
    · exact raise_twin h _
    · exact raise_twin (h.update fun u => { u with output := u.output ++ [c] }) _
  · rw [wr_ok ha]
    exact hk (h.update (afterWrite c))

/-! ### The RLE commands -/

theorem encLoopEnd_twin (hv : t.runValid = s.runValid) (hr : t.runVal = s.runVal ∧ t.runCnt = s.runCnt) :
    TwinResult (encLoopEnd s) (encLoopEnd t) := by
  unfold encLoopEnd
  rw [hr.2]
  split <;> exact issue_twin h ⟨hv, fun _ => hr⟩

theorem encByte_twin (b : Byte) (hv : t.runValid = s.runValid)
    (hr : s.runValid = true → t.runVal = s.runVal ∧ t.runCnt = s.runCnt) :
    TwinResult (encByte b s) (encByte b t) := by
  unfold encByte
  by_cases hopen : s.runValid = false
  · rw [if_pos hopen, if_pos (hv.trans hopen)]
    exact encLoopEnd_twin (by exact h) rfl ⟨rfl, rfl⟩
  · obtain ⟨hval, hcnt⟩ := hr (Bool.eq_true_of_not_eq_false hopen)
    rw [if_neg hopen, if_neg (hv.trans_ne hopen)]
    by_cases hb : b = s.runVal
    · rw [if_pos hb, if_pos (hb.trans hval.symm)]
      exact encLoopEnd_twin (by exact h) hv ⟨hval, congrArg (· + 1) hcnt⟩
    · rw [if_neg hb, if_neg (hval ▸ hb)]
      exact issue_twin h ⟨hv, fun _ => ⟨hval, hcnt⟩⟩

theorem encEof_twin (hv : t.runValid = s.runValid)
    (hr : s.runValid = true → t.runVal = s.runVal ∧ t.runCnt = s.runCnt) :
    TwinResult (encEof s) (encEof t) := by
  unfold encEof
  rw [hv]
  split
  · exact issue_twin h ⟨hv, fun _ => hr ‹_›⟩
  · exact finish_twin h

theorem encClosed_twin (why : RunClose) (hv : t.runValid = s.runValid) :
    TwinResult (encClosed why s) (encClosed why t) := by
  cases why with
  | differs b => exact encLoopEnd_twin (by exact h) hv ⟨rfl, rfl⟩
  | cap => exact issue_twin (by exact h) ⟨rfl, fun hr => by simp at hr⟩
  | atEof => exact finish_twin h

theorem decEmit_twin (v : Byte) (left : Nat) : TwinResult (decEmit v left s) (decEmit v left t) := by
  cases left <;> exact issue_twin h trivial

/-! ### Huffman compression -/

theorem packFlush_twin (ha : t.acc = s.acc) (hb : t.bitCnt = s.bitCnt) : TwinResult (packFlush s) (packFlush t) := by
  unfold packFlush
  rw [hb]
  split
  · exact issue_twin h ⟨ha, hb⟩
  · exact finish_twin h

theorem pass2Loop_twin (hl : LiveIn (.hufPass2 .read) s t) : TwinResult (pass2Loop s) (pass2Loop t) := by
  obtain ⟨hc, hr, ha, hb⟩ := hl
  unfold pass2Loop
  rw [hr]
  split
  · exact packFlush_twin h ha hb
  · exact issue_twin h ⟨hc, hr, ha, hb⟩

theorem packBits_twin (bits : List Bool) (hl : LiveIn (.hufPass2 .read) s t) :
    TwinResult (packBits pass2Packed bits s) (packBits pass2Packed bits t) := by
  obtain ⟨hc, hr, ha, hb⟩ := hl
  induction bits generalizing s t with
  | nil =>
    exact pass2Loop_twin (by exact h) ⟨hc, congrArg (· - 1) hr, ha, hb⟩
  | cons b rest ih =>
    have ha' : (packShift b t).acc = (packShift b s).acc := by simp [ha]
    unfold packBits
    rw [hb]
    split
    · exact issue_twin (by exact h) ⟨hc, hr, ha', congrArg (· + 1) hb⟩
    · exact ih (by exact h) hc hr ha' (congrArg (· + 1) hb)

theorem pass2Byte_twin (b : Byte) (hl : LiveIn (.hufPass2 .read) s t) : TwinResult (pass2Byte b s) (pass2Byte b t) := by
  unfold pass2Byte
  rw [hl.1]
  split
  · exact raise_twin h _
  · exact packBits_twin h _ hl

theorem rewindStep_twin (a : Answer) (hl : LiveIn .hufRewind s t) : TwinResult (rewindStep a s) (rewindStep a t) := by
  obtain ⟨ht, hc⟩ := hl
  cases a with
  | err pos kept => exact raise_twin (h.update (errPosition pos)) _
  | ok =>
    exact pass2Loop_twin (by exact h.update fun u => { u with inPos := 0 }) ⟨hc, ht, rfl, rfl⟩
  | okChanged bytes =>
    exact pass2Loop_twin (by exact h.update fun u => { u with input := bytes, inPos := 0 }) ⟨hc, ht, rfl, rfl⟩

theorem tableWritten_twin (bytes : List Byte) (hl : LiveIn .hufRewind s t) :
    TwinResult (writeAll .hufTabW (issue .hufRewind) bytes s) (writeAll .hufTabW (issue .hufRewind) bytes t) := by
  cases bytes <;> exact issue_twin h hl

theorem headerWritten_twin (hf : t.freq = s.freq) (ht : t.total = s.total) (hc : s.total ≠ 0 → t.code = s.code) :
    TwinResult (headerWritten s) (headerWritten t) := by
  unfold headerWritten writeTable
  rw [ht, hf]
  split
  · exact finish_twin h
  · exact tableWritten_twin h _ ⟨ht, hc ‹_›⟩

theorem headerBytesWritten_twin (bytes : List Byte) (hf : t.freq = s.freq) (ht : t.total = s.total)
    (hc : s.total ≠ 0 → t.code = s.code) :
    TwinResult (writeAll .hufHdrW headerWritten bytes s) (writeAll .hufHdrW headerWritten bytes t) := by
  cases bytes with
  | nil => exact headerWritten_twin h hf ht hc
  | cons b rest => exact issue_twin h ⟨hf, ht, hc⟩

theorem writeHeader_twin (hn : t.n = s.n) (hf : t.freq = s.freq) (ht : t.total = s.total)
    (hc : s.total ≠ 0 → t.code = s.code) : TwinResult (writeHeader s) (writeHeader t) := by
  unfold writeHeader
  rw [hn, ht]
  exact headerBytesWritten_twin h _ hf ht hc

/-- `EndOfPass1` (R304) shows the host values computed from `TOTAL` and `FREQ`. -/
theorem endOfPass1_alike (hf : t.freq = s.freq) (ht : t.total = s.total) : Alike (endOfPass1 s) (endOfPass1 t) := by
  have he : endOfPass1 t = { t with
      origSize := s.total
      n := BitVec.ofNat 9 (distinctCount s.freq)
      nsym := BitVec.ofNat 9 (distinctCount s.freq) } := by
    simp only [endOfPass1, hf, ht]
  rw [he]
  exact h.update fun u => { u with
    origSize := s.total
    n := BitVec.ofNat 9 (distinctCount s.freq)
    nsym := BitVec.ofNat 9 (distinctCount s.freq) }

theorem pass1Eof_twin (hf : t.freq = s.freq) (ht : t.total = s.total) : TwinResult (pass1Eof s) (pass1Eof t) := by
  have he := endOfPass1_alike h hf ht
  have hn : (endOfPass1 t).n = (endOfPass1 s).n := by rw [endOfPass1_n, endOfPass1_n, hf]
  obtain ⟨a, ha, -⟩ := buildTree_spec s.freq s.arena
  obtain ⟨b, hb, hab⟩ := buildTree_agree t.arena ha
  rw [← hf] at hb
  unfold pass1Eof
  rw [ha, hb]
  by_cases h0 : s.total = 0
  · rw [if_pos h0, if_pos (ht.trans h0)]
    exact writeHeader_twin he hn hf ht fun hne => absurd h0 hne
  · rw [if_neg h0, if_neg (ht.trans_ne h0)]
    exact writeHeader_twin (by exact he) hn hf ht fun _ => hab.genCodes_eq

theorem pass1Byte_twin (b : Byte) (hf : t.freq = s.freq) (ht : t.total = s.total) :
    TwinResult (pass1Byte b s) (pass1Byte b t) := by
  unfold pass1Byte
  rw [hf, ht]
  split
  · exact raise_twin h _
  · exact issue_twin (by exact h) ⟨rfl, rfl⟩

/-! ### Huffman decompression -/

omit h in
/-- The symbol in flight is the same (R470). -/
theorem curSym_eq_of_bodyLive (hl : LiveIn (.hufBody .read) s t) : curSym t = curSym s := by
  obtain ⟨hc, -, ha, hb⟩ := hl
  unfold curSym
  rw [hc]
  cases hx : s.cur with
  | none => rfl
  | some x => simp only [ha.node x (hb x hx)]

theorem walkBits_twin (byte : Byte) (k : Nat) (hl : LiveIn (.hufBody .read) s t) :
    TwinResult (walkBits byte k s) (walkBits byte k t) := by
  obtain ⟨hc, hd, ha, hb⟩ := hl
  induction k generalizing s t with
  | zero => exact issue_twin h ⟨hc, hd, ha, hb⟩
  | succ k ih =>
    obtain ⟨he, hx⟩ := ha.childOf_eq hb (byte.getLsbD k)
    unfold walkBits
    rw [hc, he]
    cases hchild : childOf s.arena s.cur (byte.getLsbD k) with
    | none => exact raise_twin h _
    | some x =>
      have hx' : x.val < s.arena.nnodes := hx x hchild
      simp only [ha.node x hx']
      split
      · exact issue_twin (by exact h) ⟨rfl, hd, ha, below_some hx'⟩
      · exact ih (by exact h) rfl hd ha (below_some hx')

theorem bodyWritten_twin (byte : Byte) (left : Nat) (hl : LiveIn (.hufBody .read) s t) :
    TwinResult (bodyWritten byte left s) (bodyWritten byte left t) := by
  obtain ⟨hc, hd, ha, hb⟩ := hl
  have hend : t.decoded + 1 = t.origSize ↔ s.decoded + 1 = s.origSize := by rw [hd, h.same State.origSize]
  unfold bodyWritten
  simp only [hend]
  split
  · exact finish_twin (by exact h)
  · exact walkBits_twin (by exact h) byte left ⟨ha.root, congrArg (· + 1) hd, ha, ha.rootBelow⟩

theorem tableRead_twin (hf : t.freq = s.freq) : TwinResult (tableRead s) (tableRead t) := by
  obtain ⟨a, ha, -⟩ := buildTree_spec s.freq s.arena
  obtain ⟨b, hb, hab⟩ := buildTree_agree t.arena ha
  unfold tableRead
  rw [hf, ha, hb]
  split
  · exact raise_twin h _
  · exact issue_twin (by exact h) ⟨hab.root, rfl, hab, hab.rootBelow⟩

theorem tableByte_twin (left : Nat) (got : List Byte) (b : Byte) (hf : t.freq = s.freq) :
    TwinResult (tableByte left got b s) (tableByte left got b t) := by
  have hf' := congrArg (loadEntry (got ++ [b])) hf
  unfold tableByte
  split
  · exact issue_twin h hf
  · split
    · exact tableRead_twin (by exact h) hf'
    · exact issue_twin (by exact h) hf'

/-- `InterpretCount` (R417) shows the host a count computed from `NSRAW`. -/
theorem interpretCount_alike (hr : t.nsRaw = s.nsRaw) :
    Alike (interpretCount s) (interpretCount t) ∧ (interpretCount t).n = (interpretCount s).n := by
  have hz : t.origSize = 0 ↔ s.origSize = 0 := by rw [h.same State.origSize]
  unfold interpretCount
  simp only [hz, hr]
  split
  · exact ⟨h.update fun u => { u with n := 0, nsym := 0 }, rfl⟩
  · exact ⟨h.update fun u => { u with n := interpretedCount s.nsRaw, nsym := interpretedCount s.nsRaw }, rfl⟩

theorem headerRead_twin (hn : t.n = s.n) : TwinResult (headerRead s) (headerRead t) := by
  unfold headerRead
  rw [h.same State.origSize, hn]
  split
  · exact finish_twin h
  · exact issue_twin (by exact h) rfl

theorem headerByte_twin (got : List Byte) (b : Byte) (hl : LiveIn (.hufHdrR got) s t) :
    TwinResult (headerByte got b s) (headerByte got b t) := by
  have hlen : (got ++ [b]).length = got.length + 1 := by simp
  unfold headerByte
  split_ifs with h3 hm h4 h12
  · exact issue_twin h fun h5 => by omega
  · exact raise_twin h _
  · exact issue_twin (by exact h) fun _ => rfl
  · obtain ⟨ha, hn⟩ := interpretCount_alike
      (h.update fun u => { u with origSize := assembleLe 64 ((got ++ [b]).drop 5) }) (hl (by omega))
    exact headerRead_twin ha hn
  · exact issue_twin h fun h5 => hl (by omega)

end

/-! ### The machine -/

/-- Twins wait on the same transaction, with the same byte in a write (R106). -/
theorem Twin.inFlight_eq {s t : State} (h : Twin s t) : inFlight t = inFlight s := by
  obtain ⟨h, hl⟩ := h
  unfold inFlight
  rw [h.same State.phase]
  generalize s.phase = p at hl ⊢
  cases p with
  | rleEnc at' =>
    obtain ⟨-, hr⟩ := hl
    cases at' with
    | read => rfl
    | count why => exact congrArg InFlight.write (hr (.inl nofun)).2
    | value why => exact congrArg InFlight.write (hr (.inl nofun)).1
  | rleDec at' => cases at' <;> rfl
  | hufPass2 at' =>
    obtain ⟨-, -, ha, -⟩ := hl
    cases at' with
    | read => rfl
    | flush bits => exact congrArg InFlight.write ha
  | hufFlush => simp only [flushByte, hl]
  | hufBody at' =>
    cases at' with
    | read => rfl
    | emit byte left => exact congrArg InFlight.write (curSym_eq_of_bodyLive hl)
  | _ => rfl

/-- From `IDLE`, twins start a command alike. -/
theorem exec_idle_twin {s t : State} (i : Instr) (h : Alike s t) (hp : s.phase = .idle) :
    TwinResult (exec i s) (exec i t) := by
  have hpt := (h.same State.phase).trans hp
  cases i with
  | cmpRle =>
    simp only [exec, execCmpRle, hp, hpt]
    exact issue_twin (h.update fun u => { u with phase := .idle, runValid := false }) ⟨rfl, fun hr => by simp at hr⟩
  | dcmpRle =>
    simp only [exec, execDcmpRle, hp, hpt]
    exact issue_twin h trivial
  | cmpHuf =>
    simp only [exec, execCmpHuf, hp, hpt]
    exact issue_twin (by exact h) ⟨rfl, rfl⟩
  | dcmpHuf =>
    simp only [exec, execDcmpHuf, hp, hpt]
    exact issue_twin h fun h5 => by simp at h5
  | invalid w =>
    simp only [exec, execInvalid, hp, hpt]
    exact raise_twin h _

/-- A transaction of a running command, with the computation after it, is alike for twins. -/
theorem exec_running_twin {s t : State} {i : Instr} (h : Twin s t) (hi : phaseCommand s.phase = some i) :
    TwinResult (exec i s) (exec i t) := by
  obtain ⟨h, hl⟩ := h
  have hpt := h.same State.phase
  refine running_cases hi ?_ ?_ ?_ ?_ ?_ ?_ ?_ ?_ ?_ ?_ ?_
  · rintro p rfl hp
    rw [exec_rleEnc hp, exec_rleEnc (hpt.trans hp)]
    rw [hp] at hl
    obtain ⟨hv, hr⟩ := hl
    refine transact_twin h fun a rest ha => ?_
    cases p with
    | read =>
      exact rd_twin ha (encEof_twin ha hv fun h1 => hr (.inr h1)) fun b hb => encByte_twin hb b hv fun h1 => hr (.inr h1)
    | count why => exact wr_twin ha (hr (.inl nofun)).2 fun hb => issue_twin hb ⟨hv, fun _ => hr (.inl nofun)⟩
    | value why => exact wr_twin ha (hr (.inl nofun)).1 fun hb => encClosed_twin hb why hv
  · rintro p rfl hp
    rw [exec_rleDec hp, exec_rleDec (hpt.trans hp)]
    refine transact_twin h fun a rest ha => ?_
    cases p with
    | count => exact rd_twin ha (finish_twin ha) fun c hb => issue_twin hb trivial
    | value c => exact rdOr_twin ha fun v hb => decEmit_twin hb v c.toNat
    | emit v left => exact wr_twin ha rfl fun hb => decEmit_twin hb v left
  · rintro rfl hp
    rw [exec_hufPass1 hp, exec_hufPass1 (hpt.trans hp)]
    rw [hp] at hl
    obtain ⟨hf, ht⟩ := hl
    exact transact_twin h fun a rest ha =>
      rd_twin ha (pass1Eof_twin ha hf ht) fun b hb => pass1Byte_twin hb b hf ht
  · rintro b rest rfl hp
    rw [exec_hufHdrW hp, exec_hufHdrW (hpt.trans hp)]
    rw [hp] at hl
    obtain ⟨hf, ht, hc⟩ := hl
    exact transact_twin h fun a _ ha => wr_twin ha rfl fun hb => headerBytesWritten_twin hb rest hf ht hc
  · rintro b rest rfl hp
    rw [exec_hufTabW hp, exec_hufTabW (hpt.trans hp)]
    rw [hp] at hl
    exact transact_twin h fun a _ ha => wr_twin ha rfl fun hb => tableWritten_twin hb rest hl
  · rintro rfl hp
    rw [exec_hufRewind hp, exec_hufRewind (hpt.trans hp)]
    rw [hp] at hl
    exact transact_twin h fun a _ ha => rewindStep_twin ha a hl
  · rintro p rfl hp
    rw [exec_hufPass2 hp, exec_hufPass2 (hpt.trans hp)]
    rw [hp] at hl
    obtain ⟨hc, hr, hacc, hbit⟩ := hl
    refine transact_twin h fun a _ ha => ?_
    cases p with
    | read => exact rdOr_twin ha fun b hb => pass2Byte_twin hb b ⟨hc, hr, hacc, hbit⟩
    | flush rest =>
      exact wr_twin ha hacc fun hb => packBits_twin (hb.update packInit) rest ⟨hc, hr, rfl, rfl⟩
  · rintro rfl hp
    rw [exec_hufFlush hp, exec_hufFlush (hpt.trans hp)]
    rw [hp] at hl
    obtain ⟨hacc, hbit⟩ := hl
    refine transact_twin h fun a _ ha => wr_twin ha ?_ fun hb => finish_twin (hb.update packInit)
    simp only [flushByte, hacc, hbit]
  · rintro got rfl hp
    rw [exec_hufHdrR hp, exec_hufHdrR (hpt.trans hp)]
    rw [hp] at hl
    exact transact_twin h fun a _ ha => rdOr_twin ha fun b hb => headerByte_twin hb got b hl
  · rintro left got rfl hp
    rw [exec_hufTabR hp, exec_hufTabR (hpt.trans hp)]
    rw [hp] at hl
    exact transact_twin h fun a _ ha => rdOr_twin ha fun b hb => tableByte_twin hb left got b hl
  · rintro p rfl hp
    rw [exec_hufBody hp, exec_hufBody (hpt.trans hp)]
    rw [hp] at hl
    refine transact_twin h fun a _ ha => ?_
    cases p with
    | read => exact rdOr_twin ha fun byte hb => walkBits_twin hb byte 8 hl
    | emit byte left =>
      exact wr_twin ha (curSym_eq_of_bodyLive hl) fun hb => bodyWritten_twin hb byte left hl

/-- Asked for a command in a phase of another one, `exec` has no meaning (log 11). -/
theorem exec_otherCommand {s : State} {i : Instr} (h0 : s.phase ≠ .idle) (hi : phaseCommand s.phase ≠ some i) :
    exec i s = .fault .otherCommand := by
  cases i with
  | cmpRle => simp only [exec, execCmpRle]; split <;> simp_all [phaseCommand]
  | dcmpRle => simp only [exec, execDcmpRle]; split <;> simp_all [phaseCommand]
  | cmpHuf => simp only [exec, execCmpHuf]; split <;> simp_all [phaseCommand]
  | dcmpHuf => simp only [exec, execDcmpHuf]; split <;> simp_all [phaseCommand]
  | invalid w => simp only [exec, execInvalid]

/-- The meaning of any command is alike for twins. -/
theorem exec_twin {s t : State} (i : Instr) (h : Twin s t) : TwinResult (exec i s) (exec i t) := by
  have hpt := h.alike.same State.phase
  by_cases h0 : s.phase = .idle
  · exact exec_idle_twin i h.alike h0
  · by_cases hi : phaseCommand s.phase = some i
    · exact exec_running_twin h hi
    · rw [exec_otherCommand h0 hi, exec_otherCommand (hpt.trans_ne h0) (by rw [hpt]; exact hi)]
      exact .fault _

theorem windowAccess_twin {place : Place} {size : Nat} {k l : Nat → Result} (hk : ∀ o, TwinResult (k o) (l o)) :
    TwinResult (windowAccess place size k) (windowAccess place size l) := by
  unfold windowAccess
  split
  · exact .refused _
  · split
    · exact hk _
    · exact .refused _

theorem streamChange_twin {s t s' t' : State} (h : Alike s t) (h' : Twin s' t') :
    TwinResult (streamChange s' s) (streamChange t' t) := by
  unfold streamChange
  rw [h.same State.status]
  split
  · exact .refused _
  · exact .next h'

theorem windowWrite_twin {s t : State} (o : Nat) (v : Word) (h : Twin s t) :
    TwinResult (windowWrite o v s) (windowWrite o v t) := by
  unfold windowWrite
  rw [h.alike.same State.status]
  split
  · split
    · exact .next h
    · exact exec_twin (decode v) ⟨h.alike.update (startCommand v), h.live⟩
  · exact .next h

/-- What a reset leaves of the transaction in flight (R700) is the same for twins. -/
theorem Twin.withdraw_alike {s t : State} (pos : Nat) (kept : Bool) (h : Twin s t) :
    Alike (withdraw pos kept s) (withdraw pos kept t) := by
  unfold withdraw
  rw [h.inFlight_eq]
  split
  · exact h.alike
  · exact h.alike.update (errPosition pos)
  · exact h.alike.update (errPosition pos)
  · rename_i b _
    cases kept
    · exact h.alike
    · exact h.alike.update fun u => { u with output := u.output ++ [b] }

/-- A reset makes twins equal (R700). -/
theorem resetEngine_twin {s t : State} (pos : Nat) (kept : Bool) (h : Twin s t) :
    resetEngine pos kept t = resetEngine pos kept s := by
  have hw := h.withdraw_alike pos kept
  simp only [resetEngine, hw.same State.input, hw.same State.inPos, hw.same State.output, h.alike.same State.answers,
    h.alike.same State.serves, h.alike.same State.program, h.alike.same State.turns, h.alike.same State.reads]

theorem runHostOp_twin {s t : State} (op : HostOp) (h : Twin s t) : TwinResult (runHostOp op s) (runHostOp op t) := by
  have hr (o : Nat) := h.alike.same (windowRead · o) (windowRead_hideTables o)
  cases op with
  | memRead place size =>
    refine windowAccess_twin fun o => ?_
    simp only [hr]
    exact .next ⟨h.alike.update fun u => { u with reads := u.reads ++ [windowRead s o] }, h.live⟩
  | memWrite place size v => exact windowAccess_twin fun o => windowWrite_twin o v h
  | poll o hi lo v =>
    simp only [runHostOp, hr]
    refine windowAccess_twin fun o' => ?_
    split
    · exact .next h
    · exact .next ⟨h.alike.update fun u => { u with program := .poll o hi lo v :: u.program }, h.live⟩
  | bindIn bytes =>
    exact streamChange_twin h.alike ⟨h.alike.update fun u => { u with input := bytes, inPos := 0 }, h.live⟩
  | bindOut bytes => exact streamChange_twin h.alike ⟨h.alike.update fun u => { u with output := bytes }, h.live⟩
  | rewindIn => exact streamChange_twin h.alike ⟨h.alike.update fun u => { u with inPos := 0 }, h.live⟩
  | rewindOut =>
    exact streamChange_twin h.alike ⟨h.alike.update fun u => { u with input := u.output, inPos := 0 }, h.live⟩
  | reset pos kept =>
    simp only [runHostOp, resetEngine_twin pos kept h]
    exact .next ⟨rfl, trivial⟩

theorem hostMove_twin {s t : State} (h : Twin s t) : TwinResult (hostMove s) (hostMove t) := by
  unfold hostMove
  rw [h.alike.same State.program]
  split
  · exact .next h
  · rename_i op rest _
    exact runHostOp_twin op ⟨h.alike.update fun u => { u with program := rest }, h.live⟩

theorem engineMove_twin {s t : State} (h : Twin s t) : TwinResult (engineMove s) (engineMove t) := by
  unfold engineMove
  rw [h.alike.same State.phase]
  split
  · exact exec_twin _ h
  · exact .next h

/-- Twins step alike. -/
theorem step_twin {s t : State} (h : Twin s t) : TwinResult (step s) (step t) := by
  have hu : Twin { s with turns := s.turns.tail } { t with turns := t.turns.tail } :=
    ⟨h.alike.update fun u => { u with turns := u.turns.tail }, h.live⟩
  unfold step oneMove
  rw [h.alike.same nextAgent nextAgent_hideTables]
  split
  · exact hostMove_twin hu
  · exact engineMove_twin hu

theorem run_twin {s t : State} (k : Nat) (h : Twin s t) : TwinResult (core.run k s) (core.run k t) := by
  induction k generalizing s t with
  | zero => exact .next h
  | succ k ih =>
    have hs : TwinResult (core.step s) (core.step t) := step_twin h
    simp only [Host.Core.run]
    generalize core.step s = r at hs ⊢
    generalize core.step t = r' at hs ⊢
    cases hs with
    | next h' => exact ih h'
    | fault f => exact .fault f
    | refused r => exact .refused r

/-- Settles O37: machines alike in `IDLE` are twins, and twins stay twins. -/
theorem nothingPersistsAcrossCommands : Obligations.NothingPersistsAcrossCommands := by
  intro s t k hp h
  have hr := run_twin k (s := s) (t := t) ⟨h, by rw [hp]; trivial⟩
  generalize core.run k s = r at hr ⊢
  generalize core.run k t = r' at hr ⊢
  cases hr with
  | next h' => exact h'.alike
  | fault f => rfl
  | refused r => rfl

end Sys2Proof.Machine

/-! The statements of 20_memory.md: what an access outside the window does, a transaction without an answer, the host's side
of a command, the ranges of the counts, and the machine's run of a command. -/

namespace Sys2Proof.Machine

/-! ## Accesses of the window (R110, R111) -/

theorem accessDefined_iff {o size : Nat} : accessDefined o size = true ↔ size = 4 ∧ o % 4 = 0 ∧ o ≤ 0x3C := by
  simp [accessDefined, and_assoc]

theorem windowAccess_offset_refused {o size : Nat} (h : ¬(size = 4 ∧ o % 4 = 0 ∧ o ≤ 0x3C)) (k : Nat → Result) :
    windowAccess (.offset o) size k = .refused .badAccess := by
  have hd : ¬accessDefined o size = true := mt accessDefined_iff.mp h
  simp only [windowAccess, placeOffset, if_neg hd]

theorem windowAccess_platform_refused {a : Nat} (h : ¬(Config.hceBase ≤ a ∧ a < Config.hceBase + 64)) (size : Nat)
    (k : Nat → Result) : windowAccess (.platform a) size k = .refused .outsideWindow := by
  simp only [windowAccess, placeOffset, Config.windowLen, if_neg h]

/-- The window stands at `HCE_BASE` (R111). -/
theorem placeOffset_platform {o : Nat} (h : o < 64) : placeOffset (.platform (Config.hceBase + o)) = some o := by
  have hin : Config.hceBase ≤ Config.hceBase + o ∧ Config.hceBase + o < Config.hceBase + 64 := by omega
  simp only [placeOffset, Config.windowLen, if_pos hin, Nat.add_sub_cancel_left]

theorem windowAccess_platform {o : Nat} (h : o < 64) (size : Nat) (k : Nat → Result) :
    windowAccess (.platform (Config.hceBase + o)) size k = windowAccess (.offset o) size k := by
  rw [windowAccess, placeOffset_platform h, windowAccess, placeOffset]

/-- Settles O10: a read and a write of the window are both one `windowAccess`. -/
theorem undefinedAccessesAreRefused : Obligations.UndefinedAccessesAreRefused := by
  refine ⟨fun s o size v rest op ha hp => ⟨fun hbad hop => ?_, fun hout hop => ?_⟩, fun s o size v ho => ⟨?_, ?_⟩⟩
  · rw [step_host ha hp]
    rcases hop with rfl | rfl <;> simp only [runHostOp, windowAccess_offset_refused hbad]
  · rw [step_host ha hp]
    rcases hop with rfl | rfl <;> simp only [runHostOp, windowAccess_platform_refused hout]
  · exact windowAccess_platform ho size _
  · exact windowAccess_platform ho size _

/-! ## A transaction and its answer (R106) -/

/-- A step of a running command is one transaction (R720). -/
theorem exec_eq_transact {s : State} {i : Instr} (hi : phaseCommand s.phase = some i) :
    ∃ k, exec i s = transact k s := by
  refine running_cases hi ?_ ?_ ?_ ?_ ?_ ?_ ?_ ?_ ?_ ?_ ?_
  · rintro p rfl hp; exact ⟨_, exec_rleEnc hp⟩
  · rintro p rfl hp; exact ⟨_, exec_rleDec hp⟩
  · rintro rfl hp; exact ⟨_, exec_hufPass1 hp⟩
  · rintro b rest rfl hp; exact ⟨_, exec_hufHdrW hp⟩
  · rintro b rest rfl hp; exact ⟨_, exec_hufTabW hp⟩
  · rintro rfl hp; exact ⟨_, exec_hufRewind hp⟩
  · rintro p rfl hp; exact ⟨_, exec_hufPass2 hp⟩
  · rintro rfl hp; exact ⟨_, exec_hufFlush hp⟩
  · rintro got rfl hp; exact ⟨_, exec_hufHdrR hp⟩
  · rintro left got rfl hp; exact ⟨_, exec_hufTabR hp⟩
  · rintro p rfl hp; exact ⟨_, exec_hufBody hp⟩

theorem exec_unanswered {s : State} {i : Instr} (hi : phaseCommand s.phase = some i) (ha : takeAnswer s = none) :
    exec i s = .fault .unanswered := by
  obtain ⟨k, hk⟩ := exec_eq_transact hi
  rw [hk, transact_none ha]

theorem takeAnswer_eq_none {s : State} (ha : s.answers = []) (hs : s.serves = false) : takeAnswer s = none := by
  simp [takeAnswer, ha, hs]

/-- An engine that waits for an answer leaves the turn to the host, whoever is listed (R122). -/
theorem nextAgent_unanswered {s : State} (ha : takeAnswer s = none) :
    nextAgent s = if hostReady s then .host else .engine := by
  have he : engineReady s = false := by simp [engineReady, ha]
  unfold nextAgent
  rw [he]
  split <;> rfl

/-- Settles O12: no transaction of the command goes on, and the host moves if it can. -/
theorem unansweredTransactionBlocksTheEngine : Obligations.UnansweredTransactionBlocksTheEngine := by
  intro s i hi ha hs
  have hn := takeAnswer_eq_none ha hs
  refine ⟨exec_unanswered hi hn, fun hp => ?_, fun hp => ?_⟩
  · have hagent : nextAgent s = .engine := by rw [nextAgent_unanswered hn]; simp [hostReady, hp]
    rw [stepRunsTheRunningCommand s i hi hagent]
    exact exec_unanswered hi (takeAnswer_eq_none ha hs)
  · have hagent : nextAgent s = .host := by rw [nextAgent_unanswered hn]; simp [hostReady, hp]
    simp only [step, oneMove, hagent]

/-! ## The host's side of a command (R125, R521, R30) -/

/-- `exec` has a meaning only where no command runs or its own does (R710). -/
theorem exec_next_phase {i : Instr} {s t : State} (h : exec i s = .next t) :
    s.phase = .idle ∨ phaseCommand s.phase = some i := by
  by_contra hn
  obtain ⟨h0, hi⟩ := not_or.mp hn
  rw [exec_otherCommand h0 hi] at h
  cases h

/-- A step of a running command has taken an answer. -/
theorem exec_next_answered {i : Instr} {s t : State} (hi : phaseCommand s.phase = some i) (h : exec i s = .next t) :
    ∃ a s1, takeAnswer s = some (a, s1) := by
  cases ha : takeAnswer s with
  | none => rw [exec_unanswered hi ha] at h; cases h
  | some r => exact ⟨r.1, r.2, rfl⟩

/-- `t` has `CMD` and the host's side of `s`, and the bytes that `OUT` held. -/
structure HostSideKept (s t : State) : Prop where
  cmd : t.cmd = s.cmd
  program : t.program = s.program
  turns : t.turns = s.turns
  reads : t.reads = s.reads
  serves : t.serves = s.serves
  output : s.output <+: t.output

theorem hostSideKept_of_eq {s t : State} (hc : t.cmd = s.cmd) (hp : t.program = s.program) (ht : t.turns = s.turns)
    (hr : t.reads = s.reads) (hs : t.serves = s.serves) (ho : t.output = s.output) : HostSideKept s t :=
  ⟨hc, hp, ht, hr, hs, ho ▸ List.prefix_rfl⟩

/-- The answer to a transaction only appends to `OUT` (R103), and leaves the host's side. -/
theorem answered_hostSide (f : InFlight) (a : Answer) (s : State) : HostSideKept s (answered f a s) := by
  cases f with
  | nothing => exact hostSideKept_of_eq rfl rfl rfl rfl rfl rfl
  | read =>
    by_cases ha : a.good = true
    · rcases answered_read_cases ha s with ⟨-, h⟩ | ⟨-, h⟩ <;> rw [h] <;>
        exact hostSideKept_of_eq rfl rfl rfl rfl rfl rfl
    · cases a <;> simp [Answer.good] at ha
      exact hostSideKept_of_eq rfl rfl rfl rfl rfl rfl
  | rewind => cases a <;> exact hostSideKept_of_eq rfl rfl rfl rfl rfl rfl
  | write b =>
    cases a with
    | ok => exact ⟨rfl, rfl, rfl, rfl, rfl, List.prefix_append _ _⟩
    | okChanged bytes => exact ⟨rfl, rfl, rfl, rfl, rfl, List.prefix_append _ _⟩
    | err pos kept =>
      cases kept with
      | false => exact hostSideKept_of_eq rfl rfl rfl rfl rfl rfl
      | true => exact ⟨rfl, rfl, rfl, rfl, rfl, List.prefix_append _ _⟩

theorem exec_idle_hostSide {i : Instr} {s t : State} (hp : s.phase = .idle) (h : exec i s = .next t) :
    HostSideKept s t := by
  rcases exec_idle_cases hp h with ⟨-, rfl⟩ | ⟨-, rfl⟩ | ⟨-, rfl⟩ | ⟨-, rfl⟩ | ⟨w, -, rfl⟩ <;>
    exact hostSideKept_of_eq rfl rfl rfl rfl rfl rfl

theorem exec_running_hostSide {i : Instr} {s t : State} (hi : phaseCommand s.phase = some i) (h : exec i s = .next t) :
    HostSideKept s t := by
  obtain ⟨a, s1, ha⟩ := exec_next_answered hi h
  have hq := exec_sameStreams hi ha h
  have hs := takeAnswer_state ha
  generalize s1.answers = rest at hs
  subst hs
  obtain ⟨hcmd, hprogram, hturns, hreads, hserves, hout⟩ := answered_hostSide (inFlight s) a { s with answers := rest }
  exact ⟨hq.cmd.trans hcmd, hq.program.trans hprogram, hq.turns.trans hturns, hq.reads.trans hreads,
    hq.serves.trans hserves, hq.output ▸ hout⟩

/-- Settles O23: only the answer to a transaction touches `OUT`, and that appends. -/
theorem commandsLeaveTheHostSide : Obligations.CommandsLeaveTheHostSide := by
  intro i s t h
  have hk : HostSideKept s t := by
    rcases exec_next_phase h with h0 | hi
    · exact exec_idle_hostSide h0 h
    · exact exec_running_hostSide hi h
  exact ⟨hk.cmd, hk.program, hk.turns, hk.reads, hk.serves, hk.output⟩

/-! ## The machine runs a command to its end (R122, R720) -/

/-- An honest host that lists no turn lets the engine make the next step. -/
theorem step_eq_exec {s : State} {i : Instr} (hi : phaseCommand s.phase = some i) (hh : Honest s) (ht : s.turns = []) :
    step s = exec i s := by
  have hready : engineReady s = true := by
    simp [engineReady, takeAnswer_honest hh, phaseCommand_ne_idle hi]
  have hagent : nextAgent s = .engine := by simp [nextAgent, ht, hready]
  have hs : { s with turns := s.turns.tail } = s := by rw [ht, List.tail_nil, ← ht]
  rw [stepRunsTheRunningCommand s i hi hagent, hs]

/-- A host that is honest stays so across a step of a command. -/
theorem exec_honest {s t : State} {i : Instr} (hi : phaseCommand s.phase = some i) (hh : Honest s)
    (h : exec i s = .next t) : Honest t := by
  have hq := exec_sameStreams hi (takeAnswer_honest hh) h
  exact ⟨by rw [hq.answers, answered_answers, hh.1], by rw [(exec_running_hostSide hi h).serves, hh.2]⟩

/-- Settles O60, by induction on the command's steps: each is the machine's next step, and the command's state after it meets
the same premises until it is in `IDLE`. -/
theorem machineRunsTheCommandToItsEnd : Obligations.MachineRunsTheCommandToItsEnd := by
  intro i k
  induction k with
  | zero => intro s t _ _ _ hr _; exact ⟨0, le_rfl, hr⟩
  | succ k ih =>
    intro s t hi hh ht hr hidle
    have hstep : core.step s = exec i s := step_eq_exec hi hh ht
    unfold commandRun at hr
    split at hr
    · rename_i u hu
      rw [hu] at hstep
      split at hr
      · cases hr
        exact ⟨1, by omega, by simp only [Host.Core.run, hstep]⟩
      · rename_i hne
        have hui : phaseCommand u.phase = some i := by
          rcases exec_continues hi hu with ⟨hp, -⟩ | ⟨hp, -⟩
          · exact hp
          · exact absurd hp hne
        have hut : u.turns = [] := (exec_running_hostSide hi hu).turns.trans ht
        obtain ⟨j, hj, hrun⟩ := ih u t hui (exec_honest hi hh hu) hut hr hidle
        exact ⟨j + 1, by omega, by simp only [Host.Core.run, hstep]; exact hrun⟩
    · cases hr
    · cases hr

end Sys2Proof.Machine

namespace Sys2Proof.Machine

/-! ## The ranges of the read position and the counts (R101, R37, R39, R255, R336)

Of the fields that `RangeInv` reads, the computation after a transaction writes `NSYM`, `N` and the arena alone, and those at
the end of pass 1, with the header and where the tree is built. An update of other fields keeps `RangeInv` by unfolding
it, which is what `exact h` does below. -/

/-- If the result is a next state, `P` holds there. -/
def Yields (P : State → Prop) : Result → Prop
  | .next t => P t
  | .fault _ => True
  | .refused _ => True

theorem Yields.of_next {P : State → Prop} {r : Result} {t : State} (h : Yields P r) (hr : r = .next t) : P t := by
  subst hr; exact h

/-- A continuation that keeps the ranges. -/
def KeepsRanges (f : State → Result) : Prop := ∀ s, RangeInv s → Yields RangeInv (f s)

theorem bitVec9_ofNat_le {k : Nat} (h : k ≤ 256) : (BitVec.ofNat 9 k).toNat ≤ 256 := by
  rw [BitVec.toNat_ofNat]; omega

theorem distinctCount_le (freq : Vector Word 256) : distinctCount freq ≤ 256 :=
  (List.countP_le_length).trans_eq freq.length_toList

theorem interpretedCount_le (ns : Byte) : (interpretedCount ns).toNat ≤ 256 := by
  unfold interpretedCount
  split
  · decide
  · have := ns.isLt
    rw [BitVec.toNat_setWidth]; omega

/-- What `BuildTree` leaves fits the heap and the arena (R255, R336). -/
theorem buildTree_bounds {freq : Vector Word 256} {a b : Arena} (h : buildTree freq a = some b) :
    b.hsize ≤ 256 ∧ b.nnodes ≤ 511 := by
  obtain ⟨b', -, hagree⟩ := buildTree_agree a h
  refine ⟨hagree.room, ?_⟩
  obtain ⟨c, hc, hbuilt⟩ := buildTree_spec freq a
  obtain rfl : b = c := Option.some.inj (h.symm.trans hc)
  have hn := presentSymbols_length_le freq
  rcases hbuilt with ⟨-, h0, -⟩ | ⟨-, -, h2, -⟩ | ⟨-, -, -, -, -, hcount, -⟩ <;> omega

section
variable {s : State}

theorem RangeInv.errPosition (h : RangeInv s) (pos : Nat) : RangeInv (errPosition pos s) :=
  ⟨min_le_right _ _, h.2⟩

/-- A byte is read below the end of `IN`, so the position after it is at most the end (R101). -/
theorem RangeInv.afterByte (h : RangeInv s) {b : Byte} (hb : s.input[s.inPos]? = some b) : RangeInv (afterByte s) :=
  ⟨(List.getElem?_eq_some_iff.mp hb).1, h.2⟩

theorem RangeInv.withArena (h : RangeInv s) {a : Arena} (ha : a.hsize ≤ 256 ∧ a.nnodes ≤ 511) :
    RangeInv { s with arena := a } := by
  obtain ⟨hpos, hsym, hn, -, -⟩ := h
  exact ⟨hpos, hsym, hn, ha⟩

theorem RangeInv.endOfPass1 (h : RangeInv s) : RangeInv (endOfPass1 s) := by
  obtain ⟨hpos, -, -, harena⟩ := h
  have hcount := bitVec9_ofNat_le (distinctCount_le s.freq)
  exact ⟨hpos, hcount, hcount, harena⟩

theorem RangeInv.interpretCount (h : RangeInv s) : RangeInv (interpretCount s) := by
  obtain ⟨hpos, -, -, harena⟩ := h
  unfold Machine.interpretCount
  split
  · exact ⟨hpos, Nat.zero_le _, Nat.zero_le _, harena⟩
  · exact ⟨hpos, interpretedCount_le _, interpretedCount_le _, harena⟩

theorem RangeInv.startCommand (h : RangeInv s) (v : Word) : RangeInv (startCommand v s) := by
  obtain ⟨hpos, -, hrest⟩ := h
  exact ⟨hpos, Nat.zero_le _, hrest⟩

/-! ### The stream transactions -/

theorem issue_keepsRanges (p : Phase) : KeepsRanges (issue p) := fun _ h => h

theorem finish_keepsRanges : KeepsRanges fun s => .next (finish s) := fun _ h => h

theorem raise_keepsRanges (e : Error) : KeepsRanges fun s => .next (raise e s) := fun _ h => h

theorem rd_keepsRanges {a : Answer} {e : State → Result} {f : Byte → State → Result} (he : KeepsRanges e)
    (hf : ∀ b, KeepsRanges (f b)) : KeepsRanges (rd a e f) := by
  intro s h
  rcases rd_cases a e f s with ⟨pos, kept, -, hr⟩ | ⟨-, -, hr⟩ | ⟨b, -, hb, hr⟩ <;> rw [hr]
  · exact h.errPosition pos
  · exact he s h
  · exact hf b _ (h.afterByte hb)

theorem rdOr_keepsRanges {a : Answer} {e : Error} {f : Byte → State → Result} (hf : ∀ b, KeepsRanges (f b)) :
    KeepsRanges (rdOr a e f) := rd_keepsRanges (raise_keepsRanges e) hf

theorem wr_keepsRanges {a : Answer} {b : Byte} {k : State → Result} (hk : KeepsRanges k) : KeepsRanges (wr a b k) := by
  intro s h
  rcases wr_cases a b k s with ⟨pos, kept, -, hr⟩ | ⟨-, hr⟩ <;> rw [hr]
  · cases kept <;> exact h
  · exact hk _ h

theorem transact_keepsRanges {k : Answer → State → Result} (hk : ∀ a, KeepsRanges (k a)) : KeepsRanges (transact k) := by
  intro s h
  cases ha : takeAnswer s with
  | none => rw [transact_none ha]; trivial
  | some r =>
    rw [transact_some ha]
    refine hk r.1 r.2 ?_
    rw [takeAnswer_state ha]
    exact h

/-! ### The RLE commands -/

theorem encLoopEnd_keepsRanges : KeepsRanges encLoopEnd := by
  intro s h
  unfold encLoopEnd
  split <;> exact h

theorem encByte_keepsRanges (b : Byte) : KeepsRanges (encByte b) := by
  intro s h
  unfold encByte
  split
  · exact encLoopEnd_keepsRanges _ h
  · split
    · exact encLoopEnd_keepsRanges _ h
    · exact h

theorem encEof_keepsRanges : KeepsRanges encEof := by
  intro s h
  unfold encEof
  split <;> exact h

theorem encClosed_keepsRanges (why : RunClose) : KeepsRanges (encClosed why) := by
  intro s h
  cases why with
  | differs b => exact encLoopEnd_keepsRanges _ h
  | cap => exact h
  | atEof => exact h

theorem encStep_keepsRanges (p : EncAt) (a : Answer) : KeepsRanges (encStep p a) := by
  cases p with
  | read => exact rd_keepsRanges encEof_keepsRanges encByte_keepsRanges
  | count why => exact fun s h => wr_keepsRanges (issue_keepsRanges _) s h
  | value why => exact fun s h => wr_keepsRanges (encClosed_keepsRanges why) s h

theorem decEmit_keepsRanges (v : Byte) (left : Nat) : KeepsRanges (decEmit v left) := by
  intro s h
  cases left <;> exact h

theorem decStep_keepsRanges (p : DecAt) (a : Answer) : KeepsRanges (decStep p a) := by
  cases p with
  | count => exact rd_keepsRanges finish_keepsRanges fun c => issue_keepsRanges _
  | value c => exact rdOr_keepsRanges fun v => decEmit_keepsRanges v _
  | emit v left => exact wr_keepsRanges (decEmit_keepsRanges v left)

/-! ### `CMP.HUF` -/

theorem writeAll_keepsRanges {mk : Byte → List Byte → Phase} {done : State → Result} (hd : KeepsRanges done)
    (bytes : List Byte) : KeepsRanges (writeAll mk done bytes) := by
  intro s h
  cases bytes with
  | nil => exact hd s h
  | cons b rest => exact h

theorem headerWritten_keepsRanges : KeepsRanges headerWritten := by
  intro s h
  unfold headerWritten
  split
  · exact h
  · exact writeAll_keepsRanges (issue_keepsRanges _) _ s h

theorem pass1Eof_keepsRanges : KeepsRanges pass1Eof := by
  intro s h
  have hw : KeepsRanges writeHeader := fun u hu => writeAll_keepsRanges headerWritten_keepsRanges _ u hu
  unfold pass1Eof
  split
  · exact hw _ h.endOfPass1
  · split
    · trivial
    · rename_i a ha
      exact hw _ (h.endOfPass1.withArena (buildTree_bounds ha))

theorem pass1Byte_keepsRanges (b : Byte) : KeepsRanges (pass1Byte b) := by
  intro s h
  unfold pass1Byte
  split <;> exact h

theorem pass2Loop_keepsRanges : KeepsRanges pass2Loop := by
  intro s h
  unfold pass2Loop packFlush
  split
  · split <;> exact h
  · exact h

theorem packBits_keepsRanges (bits : List Bool) : KeepsRanges (packBits pass2Packed bits) := by
  induction bits with
  | nil => exact fun _ h => pass2Loop_keepsRanges _ h
  | cons b rest ih =>
    intro s h
    unfold packBits
    split
    · exact h
    · exact ih _ h

theorem pass2Byte_keepsRanges (b : Byte) : KeepsRanges (pass2Byte b) := by
  intro s h
  unfold pass2Byte
  split
  · exact h
  · exact packBits_keepsRanges _ s h

theorem pass2Step_keepsRanges (p : PackAt) (a : Answer) : KeepsRanges (pass2Step p a) := by
  cases p with
  | read => exact rdOr_keepsRanges pass2Byte_keepsRanges
  | flush rest => exact fun s h => wr_keepsRanges (fun u hu => packBits_keepsRanges rest (packInit u) hu) s h

theorem rewindStep_keepsRanges (a : Answer) : KeepsRanges (rewindStep a) := by
  intro s h
  cases a with
  | err pos kept => exact h.errPosition pos
  | ok => exact pass2Loop_keepsRanges _ ⟨Nat.zero_le _, h.2⟩
  | okChanged bytes => exact pass2Loop_keepsRanges _ ⟨Nat.zero_le _, h.2⟩

/-! ### `DCMP.HUF` -/

theorem headerByte_keepsRanges (got : List Byte) (b : Byte) : KeepsRanges (headerByte got b) := by
  intro s h
  have hread : KeepsRanges headerRead := by
    intro u hu
    unfold headerRead
    split <;> exact hu
  unfold headerByte
  split
  · split <;> exact h
  · split
    · exact h
    · split
      · exact hread _ (RangeInv.interpretCount h)
      · exact h

theorem tableRead_keepsRanges : KeepsRanges tableRead := by
  intro s h
  unfold tableRead
  split
  · exact h
  · split
    · trivial
    · rename_i a ha
      exact h.withArena (buildTree_bounds ha)

theorem tableByte_keepsRanges (left : Nat) (got : List Byte) (b : Byte) : KeepsRanges (tableByte left got b) := by
  intro s h
  unfold tableByte
  split
  · exact h
  · split
    · exact tableRead_keepsRanges _ h
    · exact h

theorem walkBits_keepsRanges (byte : Byte) (k : Nat) : KeepsRanges (walkBits byte k) := by
  induction k with
  | zero => exact fun _ h => h
  | succ k ih =>
    intro s h
    unfold walkBits
    split
    · exact h
    · split
      · exact h
      · exact ih _ h

theorem bodyWritten_keepsRanges (byte : Byte) (left : Nat) : KeepsRanges (bodyWritten byte left) := by
  intro s h
  unfold bodyWritten
  split
  · exact h
  · exact walkBits_keepsRanges byte left _ h

theorem bodyStep_keepsRanges (p : BodyAt) (a : Answer) : KeepsRanges (bodyStep p a) := by
  cases p with
  | read => exact rdOr_keepsRanges fun byte => walkBits_keepsRanges byte 8
  | emit byte left => exact fun s h => wr_keepsRanges (bodyWritten_keepsRanges byte left) s h

/-! ### The step -/

theorem exec_running_rangeInv {i : Instr} (hi : phaseCommand s.phase = some i) (h : RangeInv s) :
    Yields RangeInv (exec i s) := by
  have hk : ∀ {k : Answer → State → Result}, exec i s = transact k s → (∀ a, KeepsRanges (k a)) →
      Yields RangeInv (exec i s) := fun he hk => he ▸ transact_keepsRanges hk s h
  refine running_cases hi ?_ ?_ ?_ ?_ ?_ ?_ ?_ ?_ ?_ ?_ ?_
  · rintro p rfl hp; exact hk (exec_rleEnc hp) (encStep_keepsRanges p)
  · rintro p rfl hp; exact hk (exec_rleDec hp) (decStep_keepsRanges p)
  · rintro rfl hp; exact hk (exec_hufPass1 hp) fun a => rd_keepsRanges pass1Eof_keepsRanges pass1Byte_keepsRanges
  · rintro b rest rfl hp
    exact hk (exec_hufHdrW hp) fun a => wr_keepsRanges (writeAll_keepsRanges headerWritten_keepsRanges rest)
  · rintro b rest rfl hp
    exact hk (exec_hufTabW hp) fun a => wr_keepsRanges (writeAll_keepsRanges (issue_keepsRanges _) rest)
  · rintro rfl hp; exact hk (exec_hufRewind hp) rewindStep_keepsRanges
  · rintro p rfl hp; exact hk (exec_hufPass2 hp) (pass2Step_keepsRanges p)
  · rintro rfl hp
    exact hk (exec_hufFlush hp) fun a s h => wr_keepsRanges (fun u hu => finish_keepsRanges (packInit u) hu) s h
  · rintro got rfl hp; exact hk (exec_hufHdrR hp) fun a => rdOr_keepsRanges (headerByte_keepsRanges got)
  · rintro left got rfl hp; exact hk (exec_hufTabR hp) fun a => rdOr_keepsRanges (tableByte_keepsRanges left got)
  · rintro p rfl hp; exact hk (exec_hufBody hp) (bodyStep_keepsRanges p)

theorem exec_rangeInv {i : Instr} {t : State} (h : RangeInv s) (he : exec i s = .next t) : RangeInv t := by
  rcases exec_next_phase he with h0 | hi
  · rcases exec_idle_cases h0 he with ⟨-, rfl⟩ | ⟨-, rfl⟩ | ⟨-, rfl⟩ | ⟨-, rfl⟩ | ⟨w, -, rfl⟩ <;> exact h
  · exact (exec_running_rangeInv hi h).of_next he

/-- A withdrawn read or rewind leaves a position of the stream (R700). -/
theorem withdraw_inPos_le (h : RangeInv s) (pos : Nat) (kept : Bool) :
    (withdraw pos kept s).inPos ≤ (withdraw pos kept s).input.length := by
  have hpos := h.1
  unfold withdraw
  split
  · exact hpos
  · exact min_le_right _ _
  · exact min_le_right _ _
  · cases kept <;> exact hpos

theorem runHostOp_rangeInv {op : HostOp} {t : State} (h : RangeInv s) (he : runHostOp op s = .next t) : RangeInv t := by
  rcases runHostOp_cases he with ⟨o, rfl⟩ | rfl | rfl | ⟨v, -, hx⟩ |
    ⟨-, ⟨bytes, rfl⟩ | ⟨bytes, rfl⟩ | rfl | rfl⟩ | ⟨pos, kept, -, rfl⟩
  · exact h
  · exact h
  · exact h
  · exact exec_rangeInv (h.startCommand v) hx
  · exact ⟨Nat.zero_le _, h.2⟩
  · exact h
  · exact ⟨Nat.zero_le _, h.2⟩
  · exact ⟨Nat.zero_le _, h.2⟩
  · obtain ⟨-, ⟨-, hcounts⟩, -⟩ := resetMeetsTheInvariants
    exact ⟨withdraw_inPos_le h pos kept, hcounts⟩

end

/-- Settles O32: a step is a transaction of the running command, the host's operation, or nothing, and each keeps the
ranges. -/
theorem stepKeepsRanges : Obligations.StepKeepsRanges := by
  intro s t h he
  rcases step_cases he with ⟨i, -, hx⟩ | rfl | ⟨op, rest, -, hx⟩
  · exact exec_rangeInv (s := { s with turns := s.turns.tail }) h hx
  · exact h
  · exact runHostOp_rangeInv (s := { s with program := rest, turns := s.turns.tail }) h hx

end Sys2Proof.Machine

/-! The statements of 30_encoding.md: the command words and the bytes of the container. -/

namespace Sys2Proof

/-! ## Command words (R150 to R152) -/

/-- The four fields hold all 32 bits (R150). -/
theorem toNat_eq_fields (w : Word) :
    w.toNat = (fieldDir w).toNat + 2 * (fieldRsv0 w).toNat + 256 * (fieldAlg w).toNat + 65536 * (fieldRsv1 w).toNat := by
  simp only [fieldDir, fieldRsv0, fieldAlg, fieldRsv1, BitVec.extractLsb'_toNat, Nat.shiftRight_eq_div_pow]
  omega

theorem fieldAlg_toNat (w : Word) : (fieldAlg w).toNat = w.toNat / 256 % 256 := by
  simp [fieldAlg, BitVec.extractLsb'_toNat, Nat.shiftRight_eq_div_pow]

/-- A field is not 0 exactly when one of its bits is set. -/
theorem extractLsb'_ne_zero_iff {w : Word} {lo n : Nat} :
    w.extractLsb' lo n ≠ 0 ↔ ∃ k, lo ≤ k ∧ k < lo + n ∧ w.getLsbD k = true := by
  constructor
  · intro h
    by_contra hno
    refine h (BitVec.eq_of_getLsbD_eq fun i hi => ?_)
    have hbit : w.getLsbD (lo + i) ≠ true := fun hb => hno ⟨lo + i, by omega, by omega, hb⟩
    simp [BitVec.getLsbD_extractLsb', hbit]
  · rintro ⟨k, hlo, hhi, hb⟩ h
    have hk := congrArg (fun v : BitVec n => v.getLsbD (k - lo)) h
    simp [show k - lo < n by omega, show lo + (k - lo) = k by omega, hb] at hk

/-- The fields of a word that is no command (R151): a reserved bit is set or `ALG` names no algorithm. -/
def NoCommandFields (w : Word) : Prop := fieldRsv1 w ≠ 0 ∨ fieldRsv0 w ≠ 0 ∨ 2 ≤ (fieldAlg w).toNat

theorem mem_commandWords {w : Word} :
    w ∈ commandWords ↔ w = 0x00000000#32 ∨ w = 0x00000001#32 ∨ w = 0x00000100#32 ∨ w = 0x00000101#32 := by
  simp [commandWords]

theorem noCommandFields_iff {w : Word} : NoCommandFields w ↔ w ∉ commandWords := by
  constructor
  · intro h hm
    rcases mem_commandWords.mp hm with rfl | rfl | rfl | rfl <;> revert h <;> unfold NoCommandFields <;> decide
  · intro hm
    by_contra h
    obtain ⟨h1, h0, ha⟩ : fieldRsv1 w = 0#16 ∧ fieldRsv0 w = 0#7 ∧ (fieldAlg w).toNat < 2 := by
      simpa [NoCommandFields] using h
    have hw := toNat_eq_fields w
    have hdir := (fieldDir w).isLt
    rw [h1, h0, BitVec.toNat_zero, BitVec.toNat_zero] at hw
    refine hm (mem_commandWords.mpr ?_)
    simp only [← BitVec.toNat_inj, BitVec.toNat_ofNat]
    omega

/-- A word that is no command decodes to `invalid`, which keeps it (R152). -/
theorem decode_noCommand {w : Word} (h : w ∉ commandWords) : decode w = .invalid w := by
  rcases noCommandFields_iff.mpr h with h1 | h0 | ha
  · rw [decode, if_pos (.inl h1)]
  · rw [decode, if_pos (.inr h0)]
  · have ha0 : fieldAlg w ≠ 0x00 := fun e => by simp [e] at ha
    have ha1 : fieldAlg w ≠ 0x01 := fun e => by simp [e] at ha
    rw [decode, if_neg ha0, if_neg ha1, ite_self]

/-- The clause of R151's pseudocode that answers `INVALID`, bit by bit. -/
theorem noCommandFields_iff_bits {w : Word} :
    NoCommandFields w ↔ (∃ k, 16 ≤ k ∧ k ≤ 31 ∧ w.getLsbD k = true) ∨ (∃ k, 1 ≤ k ∧ k ≤ 7 ∧ w.getLsbD k = true) ∨
      2 ≤ w.toNat / 256 % 256 := by
  simp only [NoCommandFields, fieldRsv1, fieldRsv0, extractLsb'_ne_zero_iff, fieldAlg_toNat, ← Nat.lt_succ_iff]

/-- Settles O1: the four commands and four words that are none. -/
theorem vectorWordsDecode : Obligations.VectorWordsDecode := by
  unfold Obligations.VectorWordsDecode
  decide

/-- Settles O2: a command word is one of four, and any other word is kept by `invalid`. -/
theorem encodeAndDecodeAreInverse : Obligations.EncodeAndDecodeAreInverse := by
  refine ⟨fun i hi => ?_, fun w => ?_⟩
  · cases i with
    | cmpRle | dcmpRle | cmpHuf | dcmpHuf => decide
    | invalid w => exact decode_noCommand (w := w) (by simpa [Instr.wf] using hi)
  · by_cases hm : w ∈ commandWords
    · rcases mem_commandWords.mp hm with rfl | rfl | rfl | rfl <;> decide
    · rw [decode_noCommand hm]
      exact ⟨by simp [Instr.wf, hm], rfl⟩

/-- Settles O3: each command word decodes to its command, and the words outside the table are those with the fields of no
command. -/
theorem eachCommandHasOneWord : Obligations.EachCommandHasOneWord := by
  intro w
  rw [← noCommandFields_iff_bits, noCommandFields_iff]
  by_cases hm : w ∈ commandWords
  · have hnot : ¬ w ∉ commandWords := not_not_intro hm
    obtain ⟨hrle, hdrle, hhuf, hdhuf, -⟩ := vectorWordsDecode
    rcases mem_commandWords.mp hm with rfl | rfl | rfl | rfl
    · simp [hrle, hm]
    · simp [hdrle, hm]
    · simp [hhuf, hm]
    · simp [hdhuf, hm]
  · rw [decode_noCommand hm]
    have hne := mt mem_commandWords.mpr hm
    simp only [not_or] at hne
    simp [hne, hm, eq_comm]

end Sys2Proof

namespace Sys2Proof.Machine

/-! ## The bytes of the container (R160 to R165) -/

/-! ### The body -/

/-- Bits shifted in one by one stand with the last one lowest (R112). -/
theorem shiftedBits_getLsbD (f : Nat → Bool) (k i : Nat) :
    ((List.range k).foldl (fun (v : Byte) j => v <<< 1 ||| (BitVec.ofBool (f j)).setWidth 8) 0).getLsbD i =
      (decide (i < 8 ∧ i < k) && f (k - 1 - i)) := by
  induction k generalizing i with
  | zero => simp
  | succ k ih =>
    rw [List.range_succ, List.foldl_append, List.foldl_cons, List.foldl_nil, BitVec.getLsbD_or,
      BitVec.getLsbD_shiftLeft, ih]
    cases i with
    | zero => simp
    | succ i =>
      rw [show k + 1 - 1 - (i + 1) = k - 1 - i by omega]
      by_cases h : i + 1 < 8
      · simp [h, show i < 8 by omega]
      · simp [h]

/-- Bit `j` of a byte, from bit 7 down (R112). -/
theorem byteOfBits_getLsbD (bits : List Bool) {j : Nat} (h : j < 8) :
    (byteOfBits bits).getLsbD (7 - j) = bits.getD j false := by
  rw [byteOfBits, shiftedBits_getLsbD (fun j => bits.getD j false)]
  simp [show 7 - j < 8 by omega, show 8 - 1 - (7 - j) = j by omega]

theorem packedBytes_length (bits : List Bool) : (packedBytes bits).length = (bits.length + 7) / 8 := by
  simp [packedBytes]

/-- Bit `j` of a packed bit string, from bit 7 of its first byte down (R163). -/
theorem packedBytes_bit {bits : List Bool} {j : Nat} {b : Byte} (h : (packedBytes bits)[j / 8]? = some b) :
    b.getLsbD (7 - j % 8) = bits.getD j false := by
  obtain ⟨hj, rfl⟩ := List.getElem?_eq_some_iff.mp h
  simp only [packedBytes, List.getElem_map, List.getElem_range]
  rw [byteOfBits_getLsbD _ (Nat.mod_lt _ (by omega))]
  simp [List.getD_eq_getElem?_getD, List.getElem?_drop, Nat.div_add_mod]

/-! ### The table -/

theorem bytesLe_length {w : Nat} (k : Nat) (v : BitVec w) : (bytesLe k v).length = k := by simp [bytesLe]

theorem entryBytes_length (freq : Vector Word 256) (s : Byte) : (entryBytes freq s).length = 5 := by
  simp [entryBytes, bytesLe_length]

theorem flatMap_entryBytes_length (freq : Vector Word 256) (ss : List Byte) :
    (ss.flatMap (entryBytes freq)).length = 5 * ss.length := by
  simp [entryBytes_length, Nat.mul_comm]

theorem tableBytes_eq (freq : Vector Word 256) : tableBytes freq = (presentSymbols freq).flatMap (entryBytes freq) := by
  unfold tableBytes presentSymbols
  induction allSymbols with
  | nil => rfl
  | cons s ss ih =>
    rw [List.flatMap_cons, ih]
    by_cases h : entryAt freq s = 0
    · rw [if_pos h, List.filter_cons_of_neg (by simpa using h), List.nil_append]
    · rw [if_neg h, List.filter_cons_of_pos (by simpa using h), List.flatMap_cons]

theorem map_entryAt_allSymbols {α : Type} (t : Vector α 256) : allSymbols.map (entryAt t) = t.toList := by
  apply List.ext_getElem
  · simp [allSymbols]
  · intro i h1 h2
    have : i < 256 := by simpa using h2
    simp [allSymbols, entryAt, Nat.mod_eq_of_lt this]

theorem distinctCount_eq (freq : Vector Word 256) : distinctCount freq = (presentSymbols freq).length := by
  rw [distinctCount, ← map_entryAt_allSymbols freq, List.countP_map, List.countP_eq_length_filter]
  rfl

theorem tableBytes_length (freq : Vector Word 256) : (tableBytes freq).length = 5 * distinctCount freq := by
  rw [tableBytes_eq, flatMap_entryBytes_length, distinctCount_eq]

theorem entryAt_frequencies (bytes : List Byte) (s : Byte) :
    entryAt (frequencies bytes) s = BitVec.ofNat 32 (bytes.count s) := by
  simp [entryAt, frequencies]

theorem allSymbols_split (s : Byte) :
    ∃ above, allSymbols = (List.range s.toNat).map (BitVec.ofNat 8) ++ s :: above := by
  have hs := s.isLt
  obtain ⟨m, hm⟩ : ∃ m, 256 = s.toNat + (m + 1) := ⟨255 - s.toNat, by omega⟩
  rw [allSymbols, hm, List.range_add, List.range_succ_eq_map, List.map_append]
  simp

theorem entryAt_frequencies_toNat {bytes : List Byte} (h : CountsFit bytes) (s : Byte) :
    (entryAt (frequencies bytes) s).toNat = bytes.count s := by
  rw [entryAt_frequencies, BitVec.toNat_ofNat, Nat.mod_eq_of_lt (h s)]

theorem entryAt_frequencies_ne_zero {bytes : List Byte} (h : CountsFit bytes) (s : Byte) :
    entryAt (frequencies bytes) s ≠ 0 ↔ 0 < bytes.count s := by
  rw [← entryAt_frequencies_toNat h s, Nat.pos_iff_ne_zero, ne_eq, ne_eq, ← BitVec.toNat_inj]
  rfl

theorem presentBelow_eq {bytes : List Byte} (h : CountsFit bytes) (s : Byte) :
    presentBelow bytes s =
      (((List.range s.toNat).map (BitVec.ofNat 8)).filter fun c => entryAt (frequencies bytes) c ≠ 0).length := by
  rw [← List.countP_eq_length_filter, List.countP_map, presentBelow]
  refine List.countP_congr fun c _ => ?_
  simp only [Function.comp, decide_eq_true_eq, entryAt_frequencies_ne_zero h]

/-- The entry of a symbol stands behind those of the smaller symbols present (R162). -/
theorem tableBytes_split {bytes : List Byte} (h : CountsFit bytes) {s : Byte} (hs : 0 < bytes.count s) :
    ∃ below above, tableBytes (frequencies bytes) = below ++ (entryBytes (frequencies bytes) s ++ above) ∧
      below.length = 5 * presentBelow bytes s := by
  obtain ⟨above, hsplit⟩ := allSymbols_split s
  have hpresent := (entryAt_frequencies_ne_zero h s).mpr hs
  rw [tableBytes_eq, presentSymbols, hsplit, List.filter_append, List.flatMap_append,
    List.filter_cons_of_pos (by simpa using hpresent), List.flatMap_cons]
  refine ⟨_, _, rfl, ?_⟩
  rw [flatMap_entryBytes_length, presentBelow_eq h]

/-! ### The header -/

theorem headerBytes_length (magic : Vector Byte 4) (n : BitVec 9) (total : U64) :
    (headerBytes magic n total).length = 13 := by simp [headerBytes, bytesLe_length]

theorem headerBytes_magic (magic : Vector Byte 4) (n : BitVec 9) (total : U64) (i : Fin 4) :
    (headerBytes magic n total)[i.val]? = some magic[i] := by
  rw [headerBytes, List.append_assoc, List.getElem?_append_left (by simp)]
  simp

theorem headerBytes_count (magic : Vector Byte 4) (n : BitVec 9) (total : U64) :
    (headerBytes magic n total)[4]? = some (n.setWidth 8) := by
  simp [headerBytes]

theorem headerBytes_size (magic : Vector Byte 4) (n : BitVec 9) (total : U64) {i : Nat} (h : i < 8) :
    (headerBytes magic n total)[5 + i]? = some (BitVec.ofNat 8 (total.toNat / 256 ^ i)) := by
  rw [headerBytes, List.getElem?_append_right (by simp), ← bytesLe_getElem 8 total h]
  simp

/-- A byte of a 64-bit field does not see the bits above it. -/
theorem ofNat_mod_two_pow_div (x : Nat) {i : Nat} (h : i < 8) :
    BitVec.ofNat 8 (x % 2 ^ 64 / 256 ^ i) = BitVec.ofNat 8 (x / 256 ^ i) := by
  obtain ⟨m, hm⟩ : 256 ^ (i + 1) ∣ 2 ^ 64 := pow_dvd_pow 256 (by omega : i + 1 ≤ 8)
  apply BitVec.eq_of_toNat_eq
  rw [BitVec.toNat_ofNat, BitVec.toNat_ofNat, hm, Nat.pow_succ, Nat.mul_assoc, Nat.mod_mul_right_div_self,
    Nat.mod_mod_of_dvd _ (Nat.dvd_mul_right 256 m)]

/-! ### The container of a non-empty input -/

theorem container_of_ne_nil (magic : Vector Byte 4) {bytes : List Byte} (h : bytes ≠ []) :
    container magic bytes =
      headerBytes magic (BitVec.ofNat 9 (distinctCount (frequencies bytes))) (BitVec.ofNat 64 bytes.length) ++
        (tableBytes (frequencies bytes) ++ packedBytes (bodyBits (codesOf (frequencies bytes)) bytes)) := by
  rw [container, if_neg h]

theorem container_header {magic : Vector Byte 4} {bytes : List Byte} (h : bytes ≠ []) {k : Nat} (hk : k < 13) :
    (container magic bytes)[k]? =
      (headerBytes magic (BitVec.ofNat 9 (distinctCount (frequencies bytes))) (BitVec.ofNat 64 bytes.length))[k]? := by
  rw [container_of_ne_nil magic h, List.getElem?_append_left (by rwa [headerBytes_length])]

theorem container_table {magic : Vector Byte 4} {bytes : List Byte} (h : bytes ≠ []) {k : Nat}
    (hk : k < 5 * distinctCount (frequencies bytes)) :
    (container magic bytes)[13 + k]? = (tableBytes (frequencies bytes))[k]? := by
  rw [container_of_ne_nil magic h, List.getElem?_append_right (by rw [headerBytes_length]; omega), headerBytes_length,
    Nat.add_sub_cancel_left, List.getElem?_append_left (by rwa [tableBytes_length])]

theorem container_body {magic : Vector Byte 4} {bytes : List Byte} (h : bytes ≠ []) (k : Nat) :
    (container magic bytes)[13 + 5 * distinctCount (frequencies bytes) + k]? =
      (packedBytes (bodyBits (codesOf (frequencies bytes)) bytes))[k]? := by
  rw [container_of_ne_nil magic h, ← List.append_assoc, List.getElem?_append_right
    (by rw [List.length_append, headerBytes_length, tableBytes_length]; omega), List.length_append, headerBytes_length,
    tableBytes_length, Nat.add_sub_cancel_left]

/-- The entry of a symbol (R162) in the container. -/
theorem container_entry {magic : Vector Byte 4} {bytes : List Byte} (h : bytes ≠ []) (hfit : CountsFit bytes) {s : Byte}
    (hs : 0 < bytes.count s) {k : Nat} (hk : k < 5) :
    (container magic bytes)[13 + (5 * presentBelow bytes s + k)]? = (entryBytes (frequencies bytes) s)[k]? := by
  obtain ⟨below, above, hsplit, hbelow⟩ := tableBytes_split hfit hs
  have hlen := tableBytes_length (frequencies bytes)
  rw [hsplit, List.length_append, List.length_append, entryBytes_length, hbelow] at hlen
  rw [container_table h (by omega), hsplit, List.getElem?_append_right (by omega), hbelow, Nat.add_sub_cancel_left,
    List.getElem?_append_left (by rwa [entryBytes_length])]

/-- Settles O51: each byte is the header's, the table's or the packed body's, and the entry of a symbol stands behind those of
the smaller symbols present. -/
theorem containerLayout : Obligations.ContainerLayout := by
  intro magic bytes hne hfit
  refine ⟨?_, fun i => ?_, ?_, fun i hi => ?_, fun s hs => ⟨?_, fun i hi => ?_⟩, fun j b hb => ?_⟩
  · rw [container_of_ne_nil magic hne, List.length_append, List.length_append, headerBytes_length, tableBytes_length,
      packedBytes_length, Nat.add_assoc]
  · rw [container_header hne (by omega), headerBytes_magic]
  · rw [container_header hne (by omega), headerBytes_count, BitVec.setWidth_ofNat_of_le (by decide)]
  · rw [container_header hne (by omega), headerBytes_size _ _ _ hi, BitVec.toNat_ofNat, ofNat_mod_two_pow_div _ hi]
  · exact container_entry hne hfit hs (k := 0) (by omega)
  · rw [show 13 + 5 * presentBelow bytes s + 1 + i = 13 + (5 * presentBelow bytes s + (i + 1)) by omega,
      container_entry hne hfit hs (by omega), entryBytes, List.getElem?_cons_succ, bytesLe_getElem 4 _ hi,
      entryAt_frequencies_toNat hfit]
  · rw [container_body hne] at hb
    exact packedBytes_bit hb

end Sys2Proof.Machine

/-! The statements of 41_rle.md: the frame and the run counts of the RLE commands, and the RLE stream and its round trip. -/

namespace Sys2Proof.Machine

/-! ## What an engine step yields, transaction by transaction (R101, R103, R106)

To show that every next state of a transaction meets `P`, show it for each of the answers' outcomes. -/

section
variable {P : State → Prop} {a : Answer} {s : State}

theorem yields_rd {e : State → Result} {f : Byte → State → Result}
    (herr : ∀ pos, P (raise .ioFailure (errPosition pos s))) (heof : Yields P (e s))
    (hbyte : ∀ b, Yields P (f b (afterByte s))) : Yields P (rd a e f s) := by
  rcases rd_cases a e f s with ⟨pos, kept, -, hr⟩ | ⟨-, -, hr⟩ | ⟨b, -, -, hr⟩ <;> rw [hr]
  · exact herr pos
  · exact heof
  · exact hbyte b

theorem yields_wr {b : Byte} {k : State → Result} (herr : ∀ out, P (raise .ioFailure { s with output := out }))
    (hok : Yields P (k (afterWrite b s))) : Yields P (wr a b k s) := by
  rcases wr_cases a b k s with ⟨pos, kept, -, hr⟩ | ⟨-, hr⟩ <;> rw [hr]
  · cases kept
    · exact herr s.output
    · exact herr (s.output ++ [b])
  · exact hok

theorem yields_transact {k : Answer → State → Result} (hk : ∀ a rest, Yields P (k a { s with answers := rest })) :
    Yields P (transact k s) := by
  cases ha : takeAnswer s with
  | none => rw [transact_none ha]; trivial
  | some r =>
    rw [transact_some ha, takeAnswer_state ha]
    exact hk _ _

end

/-! ## The frame of the RLE commands (R201, R210) -/

/-- What `CMP.RLE` must leave. -/
def encFrame (s : State) : State × List Byte := (hideRleEnc s, s.input)

/-- What `DCMP.RLE` must leave. -/
def decFrame (s : State) : State × List Byte := (hideRleDec s, s.input)

theorem encLoopEnd_frame (s : State) : Yields (encFrame · = encFrame s) (encLoopEnd s) := by
  unfold encLoopEnd
  split <;> rfl

theorem encByte_frame (b : Byte) (s : State) : Yields (encFrame · = encFrame s) (encByte b s) := by
  unfold encByte
  split
  · exact encLoopEnd_frame (openRun b s)
  · split
    · exact encLoopEnd_frame { s with runCnt := s.runCnt + 1 }
    · rfl

theorem encEof_frame (s : State) : Yields (encFrame · = encFrame s) (encEof s) := by
  unfold encEof
  split <;> rfl

theorem encClosed_frame (why : RunClose) (s : State) : Yields (encFrame · = encFrame s) (encClosed why s) := by
  cases why with
  | differs b => exact encLoopEnd_frame { s with runVal := b, runCnt := 1 }
  | cap => rfl
  | atEof => rfl

theorem encStep_frame (p : EncAt) (a : Answer) (s : State) : Yields (encFrame · = encFrame s) (encStep p a s) := by
  cases p with
  | read => exact yields_rd (fun _ => rfl) (encEof_frame s) fun b => encByte_frame b (afterByte s)
  | count why => exact yields_wr (fun _ => rfl) rfl
  | value why => exact yields_wr (fun _ => rfl) (encClosed_frame why (afterWrite s.runVal s))

theorem decEmit_frame (v : Byte) (left : Nat) (s : State) : Yields (decFrame · = decFrame s) (decEmit v left s) := by
  cases left <;> rfl

theorem decStep_frame (p : DecAt) (a : Answer) (s : State) : Yields (decFrame · = decFrame s) (decStep p a s) := by
  cases p with
  | count => exact yields_rd (fun _ => rfl) rfl fun c => rfl
  | value c => exact yields_rd (fun _ => rfl) rfl fun v => decEmit_frame v c.toNat (afterByte s)
  | emit v left => exact yields_wr (fun _ => rfl) (decEmit_frame v left (afterWrite v s))

theorem execCmpRle_frame (s : State) : Yields (encFrame · = encFrame s) (execCmpRle s) := by
  unfold execCmpRle
  split
  · rfl
  · exact yields_transact fun a rest => encStep_frame _ a { s with answers := rest }
  · trivial

theorem execDcmpRle_frame (s : State) : Yields (decFrame · = decFrame s) (execDcmpRle s) := by
  unfold execDcmpRle
  split
  · rfl
  · exact yields_transact fun a rest => decStep_frame _ a { s with answers := rest }
  · trivial

/-- Settles O24: no transaction of an RLE command, and no computation after it, leaves its frame. -/
theorem rleCommandsFrame : Obligations.RleCommandsFrame := fun s _ =>
  ⟨fun h => Prod.mk.inj ((execCmpRle_frame s).of_next h), fun h => Prod.mk.inj ((execDcmpRle_frame s).of_next h)⟩

/-! ## The count of the open run (R203) -/

/-- A run that is open while `RLE_ENC` reads has a length in [1, 254]: `RunInv` in the phase `.rleEnc .read`. -/
def OpenRunFits (s : State) : Prop := s.runValid = true → 1 ≤ s.runCnt.toNat ∧ s.runCnt.toNat ≤ 254

/-- `RunInv` speaks of `PHASE`, `RUNVALID` and `RUNCNT` alone. -/
theorem RunInv.congr {s t : State} (h : RunInv s) (hp : t.phase = s.phase) (hv : t.runValid = s.runValid)
    (hc : t.runCnt = s.runCnt) : RunInv t := by
  unfold RunInv
  rw [hp, hv, hc]
  exact h

/-- Outside `RLE_ENC` there is no run to speak of. -/
theorem runInv_of_not_cmpRle {s : State} (h : phaseCommand s.phase ≠ some .cmpRle) : RunInv s := by
  unfold RunInv
  split
  case h_4 => trivial
  all_goals rename_i hp; exact absurd (by rw [hp]; rfl) h

theorem runInv_of_idle {s : State} (h : s.phase = .idle) : RunInv s :=
  runInv_of_not_cmpRle (by rw [h]; exact nofun)

theorem runCnt_le_of_ne_cap {c : Byte} (h : c ≠ Config.runCap) : c.toNat ≤ 254 := by
  have hne : c.toNat ≠ 255 := fun he => h (BitVec.eq_of_toNat_eq he)
  have hlt := c.isLt
  omega

/-- The loop reads on below the cap only, so an open run that is read on has at most 254 bytes. -/
theorem encLoopEnd_runInv {s : State} (h : 1 ≤ s.runCnt.toNat) : Yields RunInv (encLoopEnd s) := by
  unfold encLoopEnd
  split
  · exact h
  · rename_i hcap
    exact fun _ => ⟨h, runCnt_le_of_ne_cap hcap⟩

/-- The add never starts from 255, so it does not wrap (R201). -/
theorem runCnt_add_one {c : Byte} (h : c.toNat ≤ 254) : (c + 1).toNat = c.toNat + 1 := by
  rw [BitVec.toNat_add_of_lt (by simp; omega)]; rfl

section
variable {s : State}

theorem encByte_runInv (b : Byte) (h : OpenRunFits s) :
    Yields RunInv (encByte b s) := by
  unfold encByte
  split
  · exact encLoopEnd_runInv (s := openRun b s) (Nat.le_refl 1)
  · rename_i hv
    obtain ⟨h1, h254⟩ := h (Bool.eq_true_of_not_eq_false hv)
    split
    · refine encLoopEnd_runInv ?_
      show 1 ≤ (s.runCnt + 1).toNat
      rw [runCnt_add_one h254]; omega
    · exact h1

theorem encEof_runInv (h : OpenRunFits s) :
    Yields RunInv (encEof s) := by
  unfold encEof
  split
  · rename_i hv
    exact (h hv).1
  · trivial

theorem encClosed_runInv (why : RunClose) (s : State) : Yields RunInv (encClosed why s) := by
  cases why with
  | differs b => exact encLoopEnd_runInv (Nat.le_refl 1)
  | cap => exact fun hv => nomatch hv
  | atEof => trivial

theorem encStep_runInv {p : EncAt} (hp : s.phase = .rleEnc p) (h : RunInv s) (a : Answer) :
    Yields RunInv (encStep p a s) := by
  unfold RunInv at h
  rw [hp] at h
  cases p with
  | read => exact yields_rd (fun _ => trivial) (encEof_runInv h) fun b => encByte_runInv b h
  | count why => exact yields_wr (fun _ => trivial) h
  | value why => exact yields_wr (fun _ => trivial) (encClosed_runInv why _)

theorem exec_running_runInv {i : Instr} {t : State} (hi : phaseCommand s.phase = some i) (h : RunInv s)
    (he : exec i s = .next t) : RunInv t := by
  by_cases hc : i = .cmpRle
  · subst hc
    obtain ⟨p, hp⟩ : ∃ p, s.phase = .rleEnc p :=
      running_cases hi (fun p _ hp => ⟨p, hp⟩) nofun nofun nofun nofun nofun nofun nofun nofun nofun nofun
    have hy : Yields RunInv (exec .cmpRle s) := by
      rw [exec_rleEnc hp]
      exact yields_transact fun a rest => encStep_runInv (s := { s with answers := rest }) hp h a
    exact hy.of_next he
  · rcases exec_continues hi he with ⟨ht, -⟩ | ⟨ht, -⟩
    · exact runInv_of_not_cmpRle (by rw [ht]; exact fun h => hc (Option.some.inj h))
    · exact runInv_of_idle ht

theorem exec_idle_runInv {i : Instr} {t : State} (hp : s.phase = .idle) (he : exec i s = .next t) : RunInv t := by
  rcases exec_idle_cases hp he with ⟨-, rfl⟩ | ⟨-, rfl⟩ | ⟨-, rfl⟩ | ⟨-, rfl⟩ | ⟨w, -, rfl⟩
  · exact fun hv => nomatch hv
  · trivial
  · trivial
  · trivial
  · trivial

theorem runHostOp_runInv {op : HostOp} {t : State} (hs : StatusInv s) (h : RunInv s) (he : runHostOp op s = .next t) :
    RunInv t := by
  rcases runHostOp_cases he with ⟨o, rfl⟩ | rfl | rfl | ⟨v, hb, hx⟩ |
    ⟨-, ⟨bytes, rfl⟩ | ⟨bytes, rfl⟩ | rfl | rfl⟩ | ⟨pos, kept, -, rfl⟩
  · exact h.congr rfl rfl rfl
  · exact h
  · exact h.congr rfl rfl rfl
  · exact exec_idle_runInv (s := startCommand v s) (hs.idle hb) hx
  · exact h.congr rfl rfl rfl
  · exact h.congr rfl rfl rfl
  · exact h.congr rfl rfl rfl
  · exact h.congr rfl rfl rfl
  · trivial

end

/-- Settles O33: a step is a transaction of the running command, the host's operation, or nothing, and each keeps the counts
in range; a command starts from `IDLE`, with no run open. -/
theorem stepKeepsRunCounts : Obligations.StepKeepsRunCounts := by
  intro s t hs h he
  rcases step_cases he with ⟨i, hi, hx⟩ | rfl | ⟨op, rest, -, hx⟩
  · exact exec_running_runInv (s := { s with turns := s.turns.tail }) hi (h.congr rfl rfl rfl) hx
  · exact h.congr rfl rfl rfl
  · exact runHostOp_runInv (s := { s with program := rest, turns := s.turns.tail }) (hs.congr rfl rfl)
      (h.congr rfl rfl rfl) hx

end Sys2Proof.Machine

namespace Sys2Proof.Machine

/-! ## The maximal runs of an input (R204) -/

section
variable {b : Byte} {rest : List Byte}

theorem runsOf_cons_same {k : Nat} {more : List (Byte × Nat)} (h : runsOf rest = (b, k) :: more) :
    runsOf (b :: rest) = (b, k + 1) :: more := by
  simp [runsOf, h]

theorem runsOf_cons_new (h : ∀ r ∈ (runsOf rest).head?, r.1 ≠ b) : runsOf (b :: rest) = (b, 1) :: runsOf rest := by
  rw [runsOf]
  split
  · rename_i hr
    rw [hr]
  · rename_i c k more hr
    rw [if_neg (h (c, k) (by rw [hr]; rfl)).symm, hr]

/-- The first run is one of `v`, or there is none. -/
theorem runsOf_first_cases (v : Byte) (bytes : List Byte) :
    (∃ k more, runsOf bytes = (v, k) :: more) ∨ ∀ r ∈ (runsOf bytes).head?, r.1 ≠ v := by
  by_contra! h
  obtain ⟨hno, ⟨c, k⟩, hr, rfl⟩ := h
  obtain ⟨more, hm⟩ := List.head?_eq_some_iff.mp hr
  exact hno k more hm

/-- A byte is one more of the first run behind it, or a run of its own. -/
theorem runsOf_cons_cases (b : Byte) (rest : List Byte) :
    (∃ k more, runsOf rest = (b, k) :: more ∧ runsOf (b :: rest) = (b, k + 1) :: more) ∨
    ((∀ r ∈ (runsOf rest).head?, r.1 ≠ b) ∧ runsOf (b :: rest) = (b, 1) :: runsOf rest) := by
  rcases runsOf_first_cases b rest with ⟨k, more, h⟩ | h
  · exact .inl ⟨k, more, h, runsOf_cons_same h⟩
  · exact .inr ⟨h, runsOf_cons_new h⟩

/-- The first run is of the first byte. -/
theorem runsOf_head_fst (bytes : List Byte) : (runsOf bytes).head?.map Prod.fst = bytes.head? := by
  cases bytes with
  | nil => rfl
  | cons b rest => rcases runsOf_cons_cases b rest with ⟨k, more, -, h⟩ | ⟨-, h⟩ <;> rw [h] <;> rfl

end

theorem runsOf_expand (bytes : List Byte) : ((runsOf bytes).flatMap fun r => List.replicate r.2 r.1) = bytes := by
  induction bytes with
  | nil => rfl
  | cons b rest ih =>
    rcases runsOf_cons_cases b rest with ⟨k, more, hr, h⟩ | ⟨-, h⟩
    · rw [hr] at ih
      rw [h]
      exact congrArg (b :: ·) ih
    · rw [h, List.flatMap_cons, ih]
      rfl

theorem runsOf_pos (bytes : List Byte) : ∀ r ∈ runsOf bytes, 0 < r.2 := by
  induction bytes with
  | nil => exact nofun
  | cons b rest ih =>
    rcases runsOf_cons_cases b rest with ⟨k, more, hr, h⟩ | ⟨-, h⟩ <;> rw [h, List.forall_mem_cons]
    · rw [hr, List.forall_mem_cons] at ih
      exact ⟨Nat.succ_pos k, ih.2⟩
    · exact ⟨Nat.one_pos, ih⟩

theorem runsOf_chain (bytes : List Byte) : List.IsChain (fun r q => r.1 ≠ q.1) (runsOf bytes) := by
  induction bytes with
  | nil => exact .nil
  | cons b rest ih =>
    rcases runsOf_cons_cases b rest with ⟨k, more, hr, h⟩ | ⟨hne, h⟩ <;> rw [h, List.isChain_cons]
    · rw [hr, List.isChain_cons] at ih
      exact ih
    · exact ⟨fun q hq => (hne q hq).symm, ih⟩

/-! ## The pairs of the RLE stream (R166, R204)

The stream is a list of pairs, written out byte by byte. -/

/-- Pairs `(count, value)` as the bytes of a stream (R166). -/
def pairBytes (ps : List (Byte × Byte)) : List Byte := ps.flatMap fun p => [p.1, p.2]

/-- The pairs of one maximal run (R204). -/
def pairsOfRun (r : Byte × Nat) : List (Byte × Byte) :=
  List.replicate (r.2 / 255) (255, r.1) ++ if r.2 % 255 = 0 then [] else [(BitVec.ofNat 8 (r.2 % 255), r.1)]

/-- The pairs of an input's RLE stream. -/
def rlePairs (bytes : List Byte) : List (Byte × Byte) := (runsOf bytes).flatMap pairsOfRun

theorem pairBytes_pairsOfRun (r : Byte × Nat) : pairBytes (pairsOfRun r) = runPairs r.1 r.2 := by
  unfold pairBytes pairsOfRun runPairs
  rw [List.flatMap_append, List.flatMap_replicate]
  split <;> rfl

theorem rleStream_eq_pairBytes (bytes : List Byte) : rleStream bytes = pairBytes (rlePairs bytes) := by
  simp only [rleStream, rlePairs, pairBytes, List.flatMap_assoc, ← pairBytes_pairsOfRun]

theorem pairBytes_length (ps : List (Byte × Byte)) : (pairBytes ps).length = 2 * ps.length := by
  simp [pairBytes, List.length_flatMap, Nat.mul_comm]

theorem pairBytes_getElem_count (ps : List (Byte × Byte)) (k : Nat) :
    (pairBytes ps)[2 * k]? = ps[k]?.map Prod.fst := by
  induction ps generalizing k with
  | nil => rfl
  | cons p ps ih =>
    cases k with
    | zero => rfl
    | succ k => exact ih k

theorem pairBytes_getElem_value (ps : List (Byte × Byte)) (k : Nat) :
    (pairBytes ps)[2 * k + 1]? = ps[k]?.map Prod.snd := by
  induction ps generalizing k with
  | nil => rfl
  | cons p ps ih =>
    cases k with
    | zero => rfl
    | succ k => exact ih k

theorem pairsOfRun_length (r : Byte × Nat) : (pairsOfRun r).length = (r.2 + 254) / 255 := by
  unfold pairsOfRun
  rw [List.length_append, List.length_replicate]
  split
  · simp; omega
  · simp; omega

theorem pairsOfRun_value {r : Byte × Nat} {p : Byte × Byte} (h : p ∈ pairsOfRun r) : p.2 = r.1 := by
  rcases List.mem_append.mp h with h | h
  · rw [List.eq_of_mem_replicate h]
  · split at h <;> simp_all

/-- A count less than 255 is the number it stands for. -/
theorem count_toNat (k : Nat) : (BitVec.ofNat 8 (k % 255)).toNat = k % 255 := by
  rw [BitVec.toNat_ofNat]; omega

theorem pairsOfRun_count_ne_zero {r : Byte × Nat} {p : Byte × Byte} (h : p ∈ pairsOfRun r) : p.1 ≠ 0 := by
  rcases List.mem_append.mp h with h | h
  · rw [List.eq_of_mem_replicate h]
    exact (by decide : (255 : Byte) ≠ 0)
  · split at h
    · cases h
    · rename_i hk
      rw [List.mem_singleton.mp h]
      intro h0
      exact hk ((count_toNat r.2).symm.trans (congrArg BitVec.toNat h0))

/-- The second pair of two neighbours has another value, or the first is at the cap. -/
def CapsBefore (p q : Byte × Byte) : Prop := p.2 = q.2 → p.1 = 255

/-- Only the last pair of a run can be below the cap. -/
theorem pairsOfRun_chain (r : Byte × Nat) : List.IsChain CapsBefore (pairsOfRun r) := by
  refine List.isChain_append.mpr ⟨List.isChain_replicate_of_rel _ fun _ => rfl, ?_, ?_⟩
  · split
    · exact .nil
    · exact .singleton _
  · intro p hp _ _ _
    rw [List.eq_of_mem_replicate (List.mem_of_getLast? hp)]

theorem rlePairs_count_ne_zero {bytes : List Byte} {p : Byte × Byte} (h : p ∈ rlePairs bytes) : p.1 ≠ 0 := by
  obtain ⟨r, -, hp⟩ := List.mem_flatMap.mp h
  exact pairsOfRun_count_ne_zero hp

theorem rlePairs_chain (bytes : List Byte) : List.IsChain CapsBefore (rlePairs bytes) := by
  have hne : [] ∉ (runsOf bytes).map pairsOfRun := by
    intro h
    obtain ⟨r, hr, h0⟩ := List.mem_map.mp h
    have hpos := runsOf_pos bytes r hr
    have hlen := pairsOfRun_length r
    rw [h0, List.length_nil] at hlen
    omega
  rw [rlePairs, List.flatMap_def, List.isChain_flatten hne]
  refine ⟨List.forall_mem_map.mpr fun r _ => pairsOfRun_chain r, (List.isChain_map _).mpr ?_⟩
  refine (runsOf_chain bytes).imp fun r q hrq p hp p' hp' he => ?_
  have hr := pairsOfRun_value (List.mem_of_getLast? hp)
  have hq := pairsOfRun_value (List.mem_of_head? hp')
  exact absurd (hr.symm.trans (he.trans hq)) hrq

theorem rleStream_count_ne_zero (bytes : List Byte) (k : Nat) : (rleStream bytes)[2 * k]? ≠ some 0 := by
  rw [rleStream_eq_pairBytes, pairBytes_getElem_count]
  intro h
  obtain ⟨p, hp, h0⟩ := Option.map_eq_some_iff.mp h
  exact rlePairs_count_ne_zero (List.mem_of_getElem? hp) h0

theorem rleStream_length (bytes : List Byte) :
    (rleStream bytes).length = 2 * ((runsOf bytes).map fun r => (r.2 + 254) / 255).sum := by
  rw [rleStream_eq_pairBytes, pairBytes_length, rlePairs, List.length_flatMap]
  simp only [pairsOfRun_length]

/-- Settles O46: the laws are those of the runs, of the pairs of one run, and of the last and first pairs of two neighbouring
runs. -/
theorem rleStreamLaws : Obligations.RleStreamLaws := by
  intro bytes
  refine ⟨runsOf_expand bytes, runsOf_pos bytes, runsOf_chain bytes, rleStream_length bytes,
    fun k _ => rleStream_count_ne_zero bytes k, fun k hk hv => ?_⟩
  rw [rleStream_eq_pairBytes] at hk hv ⊢
  rw [pairBytes_length] at hk
  have hk1 : k + 1 < (rlePairs bytes).length := by omega
  rw [pairBytes_getElem_value, show 2 * k + 3 = 2 * (k + 1) + 1 by omega, pairBytes_getElem_value,
    List.getElem?_eq_getElem hk1, List.getElem?_eq_getElem (Nat.lt_of_succ_lt hk1)] at hv
  rw [pairBytes_getElem_count, List.getElem?_eq_getElem (Nat.lt_of_succ_lt hk1)]
  exact congrArg some (List.isChain_iff_getElem.mp (rlePairs_chain bytes) k hk1 (Option.some.inj hv))

/-! ## What the pairs stand for (R210, R213) -/

theorem rleBytes_pairBytes (ps : List (Byte × Byte)) :
    rleBytes (pairBytes ps) = ps.flatMap fun p => List.replicate p.1.toNat p.2 := by
  induction ps with
  | nil => rfl
  | cons p ps ih => rw [List.flatMap_cons, ← ih]; rfl

theorem pairsOfRun_expand (r : Byte × Nat) :
    ((pairsOfRun r).flatMap fun p => List.replicate p.1.toNat p.2) = List.replicate r.2 r.1 := by
  have htail : ((if r.2 % 255 = 0 then [] else [(BitVec.ofNat 8 (r.2 % 255), r.1)]).flatMap
      fun p : Byte × Byte => List.replicate p.1.toNat p.2) = List.replicate (r.2 % 255) r.1 := by
    split
    · simp [*]
    · rw [List.flatMap_singleton, count_toNat]
  rw [pairsOfRun, List.flatMap_append, htail, List.flatMap_replicate, List.flatten_replicate_replicate,
    List.replicate_append_replicate]
  congr 1
  show r.2 / 255 * 255 + r.2 % 255 = r.2
  omega

/-- Expanding the pairs in order rebuilds the runs (R213). -/
theorem rleBytes_rleStream (bytes : List Byte) : rleBytes (rleStream bytes) = bytes := by
  rw [rleStream_eq_pairBytes, rleBytes_pairBytes, rlePairs, List.flatMap_assoc]
  simp only [pairsOfRun_expand, runsOf_expand]

/-! ## The stream, pair by pair, as the encoder writes it (R201, R202) -/

theorem runsOf_replicate_append_same {bytes : List Byte} {v : Byte} {m : Nat} {more : List (Byte × Nat)}
    (h : runsOf bytes = (v, m) :: more) (k : Nat) : runsOf (List.replicate k v ++ bytes) = (v, m + k) :: more := by
  induction k with
  | zero => exact h
  | succ k ih => rw [List.replicate_succ, List.cons_append, runsOf_cons_same ih]; rfl

theorem runsOf_replicate_append_new {rest : List Byte} {v : Byte} {k : Nat} (hk : 0 < k)
    (h : ∀ r ∈ (runsOf rest).head?, r.1 ≠ v) : runsOf (List.replicate k v ++ rest) = (v, k) :: runsOf rest := by
  obtain ⟨j, rfl⟩ := Nat.exists_eq_succ_of_ne_zero hk.ne'
  rw [List.replicate_succ', List.append_assoc, List.singleton_append,
    runsOf_replicate_append_same (runsOf_cons_new h), Nat.add_comm]

theorem runPairs_cap_add (v : Byte) (k : Nat) : runPairs v (k + 255) = 255 :: v :: runPairs v k := by
  unfold runPairs
  rw [Nat.add_div_right k (by decide), Nat.add_mod_right]
  rfl

theorem runPairs_below_cap (v : Byte) {k : Nat} (h1 : 1 ≤ k) (h254 : k ≤ 254) :
    runPairs v k = [BitVec.ofNat 8 k, v] := by
  unfold runPairs
  rw [Nat.div_eq_of_lt (by omega), Nat.mod_eq_of_lt (by omega), if_neg (by omega)]
  rfl

/-- A run at the cap is written at once, whatever follows (R202). -/
theorem rleStream_capped_run (v : Byte) (rest : List Byte) :
    rleStream (List.replicate 255 v ++ rest) = 255 :: v :: rleStream rest := by
  unfold rleStream
  rcases runsOf_first_cases v rest with ⟨m, more, h⟩ | h
  · rw [runsOf_replicate_append_same h, h, List.flatMap_cons, runPairs_cap_add]
    rfl
  · have hcap : runPairs v 255 = [255, v] := runPairs_cap_add v 0
    rw [runsOf_replicate_append_new (by decide) h, List.flatMap_cons, hcap]
    rfl

/-- A run below the cap is one pair, if another byte or the end follows (R202). -/
theorem rleStream_closed_run {v c : Byte} {rest : List Byte} (h1 : 1 ≤ c.toNat) (h254 : c.toNat ≤ 254)
    (h : rest.head? ≠ some v) : rleStream (List.replicate c.toNat v ++ rest) = c :: v :: rleStream rest := by
  have hne : ∀ r ∈ (runsOf rest).head?, r.1 ≠ v := by
    rintro r hr rfl
    exact h (by rw [← runsOf_head_fst, hr]; rfl)
  unfold rleStream
  rw [runsOf_replicate_append_new h1 hne, List.flatMap_cons, runPairs_below_cap v h1 h254, BitVec.ofNat_toNat,
    BitVec.setWidth_eq]
  rfl

end Sys2Proof.Machine

namespace Sys2Proof.Machine

/-! ## A command run to its end, from what it still has to do -/

/-- The command `i`, having answered this result, goes on to an end in a state that meets `Q`. -/
inductive Leads (i : Instr) (Q : State → Prop) : Result → Prop where
  | ended {t : State} : t.phase = .idle → Q t → Leads i Q (.next t)
  | goesOn {u : State} : u.phase ≠ .idle → Leads i Q (exec i u) → Leads i Q (.next u)

theorem Leads.imp {i : Instr} {Q R : State → Prop} {r : Result} (h : Leads i Q r) (hqr : ∀ t, Q t → R t) :
    Leads i R r := by
  induction h with
  | ended hp hq => exact .ended hp (hqr _ hq)
  | goesOn hp _ ih => exact .goesOn hp ih

theorem Leads.exists_commandRun {i : Instr} {Q : State → Prop} {r : Result} (h : Leads i Q r) {s : State}
    (hr : exec i s = r) : ∃ k t, commandRun i (k + 1) s = .next t ∧ t.phase = .idle ∧ Q t := by
  induction h generalizing s with
  | @ended t hp hq => exact ⟨0, t, by simp only [commandRun, hr, if_pos hp], hp, hq⟩
  | @goesOn u hp _ ih =>
    obtain ⟨k, t, hk, ht⟩ := ih rfl
    exact ⟨k + 1, t, by rw [commandRun]; simp only [hr, if_neg hp, hk], ht⟩

/-- A command whose start step leads to an end ends there. -/
theorem Leads.endsIn {i : Instr} {Q : State → Prop} {s : State} (hp : s.phase = .idle) (h : Leads i Q (exec i s)) :
    ∃ k t, EndsIn i k s t ∧ Q t := by
  obtain ⟨k, t, hk, ht, hq⟩ := h.exists_commandRun rfl
  exact ⟨k + 1, t, ⟨Nat.succ_pos k, hp, hk, ht⟩, hq⟩

/-- `t` is after `s` once `n` bytes are read and the bytes `out` written, with the status `st` and the host still honest. It
reads the streams, the counters and the host's side of `s` alone, so from an update of other fields of `s` it follows by
unfolding. -/
def Streamed (st : Status) (n : Nat) (out : List Byte) (s t : State) : Prop :=
  t.status = st ∧ Honest t ∧ t.input = s.input ∧ t.inPos = s.inPos + n ∧ t.inCount = s.inCount + BitVec.ofNat 64 n ∧
    t.output = s.output ++ out ∧ t.outCount = s.outCount + BitVec.ofNat 64 out.length

section
variable {st : Status} {n : Nat} {out : List Byte} {Q : State → Prop} {s t : State}

theorem streamed_finish (hh : Honest s) : Streamed statusFinished 0 [] s (finish s) :=
  ⟨rfl, hh, rfl, rfl, (BitVec.add_zero _).symm, (List.append_nil _).symm, (BitVec.add_zero _).symm⟩

theorem streamed_raise (hh : Honest s) (e : Error) : Streamed (statusRaised e) 0 [] s (raise e s) :=
  ⟨rfl, hh, rfl, rfl, (BitVec.add_zero _).symm, (List.append_nil _).symm, (BitVec.add_zero _).symm⟩

theorem bitVec64_add_one_add (c : U64) (k : Nat) : c + 1 + BitVec.ofNat 64 k = c + BitVec.ofNat 64 (k + 1) := by
  rw [BitVec.ofNat_add, BitVec.add_assoc, BitVec.add_comm 1]
  rfl

/-- One byte read first (R101, R34). -/
theorem Streamed.of_afterByte (h : Streamed st n out (afterByte s) t) : Streamed st (n + 1) out s t := by
  obtain ⟨hst, hh, hin, hpos, hcnt, hrest⟩ := h
  exact ⟨hst, hh, hin, hpos.trans (by simp only [afterByte]; omega), hcnt.trans (bitVec64_add_one_add _ _), hrest⟩

/-- One byte written first (R103, R35). -/
theorem Streamed.of_afterWrite {b : Byte} (h : Streamed st n out (afterWrite b s) t) : Streamed st n (b :: out) s t := by
  obtain ⟨hst, hh, hin, hpos, hcnt, hout, hocnt⟩ := h
  exact ⟨hst, hh, hin, hpos, hcnt, hout.trans (List.append_cons ..).symm, hocnt.trans (bitVec64_add_one_add _ _)⟩

theorem unread_eq_nil_iff : unread s = [] ↔ s.input.length ≤ s.inPos := List.drop_eq_nil_iff

theorem unread_eq_cons {b : Byte} {rest : List Byte} (h : unread s = b :: rest) :
    s.input[s.inPos]? = some b ∧ unread (afterByte s) = rest := by
  have hhead := congrArg List.head? h
  have htail := congrArg List.tail h
  rw [unread, List.head?_drop] at hhead
  rw [unread, List.tail_drop] at htail
  exact ⟨hhead, htail⟩

/-! ## `RleEncodeStream` to its end (R201, R202) -/

/-- The host answers the transaction that the encoder issues, honestly. -/
theorem leads_encStep {p : EncAt} (hh : Honest s)
    (h : Leads .cmpRle Q (encStep p .ok { s with phase := .rleEnc p })) : Leads .cmpRle Q (issue (.rleEnc p) s) := by
  refine .goesOn nofun ?_
  rw [exec_rleEnc rfl, transact_honest (by exact hh)]
  exact h

/-- Both bytes of a pair are written before the computation goes on. -/
theorem leads_encPair {why : RunClose} (hh : Honest s)
    (h : ∀ p, Leads .cmpRle (Streamed st n out (afterWrite s.runVal (afterWrite s.runCnt s)))
      (encClosed why { afterWrite s.runVal (afterWrite s.runCnt s) with phase := p })) :
    Leads .cmpRle (Streamed st n (s.runCnt :: s.runVal :: out) s) (issue (.rleEnc (.count why)) s) := by
  refine leads_encStep hh ?_
  simp only [encStep]
  rw [wr_ok rfl]
  refine leads_encStep (by exact hh) ?_
  simp only [encStep]
  rw [wr_ok rfl]
  exact (h _).imp fun t ht => ht.of_afterWrite.of_afterWrite

/-- The bytes of the run that is open. -/
def openRunBytes (s : State) : List Byte := if s.runValid then List.replicate s.runCnt.toNat s.runVal else []

theorem openRunBytes_of_open (h : s.runValid = true) : openRunBytes s = List.replicate s.runCnt.toNat s.runVal :=
  if_pos h

theorem openRunBytes_of_closed (h : s.runValid = false) : openRunBytes s = [] := by simp [openRunBytes, h]

/-- From the loop's `InRead` on, with the bytes `rest` to be read: they are all read, and the pairs of the open run and of
them are written. -/
def EncodesFrom (rest : List Byte) : Prop :=
  ∀ s, Honest s → unread s = rest → OpenRunFits s →
    Leads .cmpRle (Streamed statusFinished rest.length (rleStream (openRunBytes s ++ rest)) s) (issue (.rleEnc .read) s)

/-- The end of the loop body: a run at the cap is written first (R202). -/
theorem leads_encLoopEnd {rest : List Byte} (ih : EncodesFrom rest) (hh : Honest s) (hu : unread s = rest)
    (hv : s.runValid = true) (h1 : 1 ≤ s.runCnt.toNat) :
    Leads .cmpRle (Streamed statusFinished rest.length (rleStream (List.replicate s.runCnt.toNat s.runVal ++ rest)) s)
      (encLoopEnd s) := by
  unfold encLoopEnd
  split
  · rename_i hcap
    rw [show s.runCnt.toNat = 255 by rw [hcap]; rfl, rleStream_capped_run, show (255 : Byte) = s.runCnt from hcap.symm]
    refine leads_encPair hh fun p => ?_
    exact ih { afterWrite s.runVal (afterWrite s.runCnt s) with phase := p, runValid := false } hh hu nofun
  · rename_i hcap
    have hread := ih s hh hu fun _ => ⟨h1, runCnt_le_of_ne_cap hcap⟩
    rwa [openRunBytes_of_open hv] at hread

/-- The end of `IN`: the open run is written (R202). -/
theorem leads_encEof (hh : Honest s) (hfit : OpenRunFits s) :
    Leads .cmpRle (Streamed statusFinished 0 (rleStream (openRunBytes s)) s) (encEof s) := by
  unfold encEof
  split
  · rename_i hv
    obtain ⟨h1, h254⟩ := hfit hv
    rw [openRunBytes_of_open hv, ← List.append_nil (List.replicate _ _), rleStream_closed_run h1 h254 (by simp)]
    exact leads_encPair hh fun p => .ended rfl (streamed_finish (by exact hh))
  · rename_i hv
    rw [openRunBytes_of_closed (Bool.eq_false_of_not_eq_true hv)]
    exact .ended rfl (streamed_finish hh)

/-- A byte `b` that is read opens a run, lengthens the open one, or closes it (R201). -/
theorem leads_encByte {rest : List Byte} (ih : EncodesFrom rest) (b : Byte) (hh : Honest s) (hu : unread s = rest)
    (hfit : OpenRunFits s) :
    Leads .cmpRle (Streamed statusFinished rest.length (rleStream (openRunBytes s ++ b :: rest)) s) (encByte b s) := by
  unfold encByte
  split
  · rename_i hv
    rw [openRunBytes_of_closed hv]
    exact leads_encLoopEnd (s := openRun b s) ih hh hu rfl (Nat.le_refl 1)
  · rename_i hv
    have hopen : s.runValid = true := Bool.eq_true_of_not_eq_false hv
    obtain ⟨h1, h254⟩ := hfit hopen
    rw [openRunBytes_of_open hopen]
    split
    · rename_i hsame
      have hcnt := runCnt_add_one h254
      rw [hsame, List.append_cons, ← List.replicate_succ', ← hcnt]
      exact leads_encLoopEnd (s := { s with runCnt := s.runCnt + 1 }) ih hh hu hopen
        (by show 1 ≤ (s.runCnt + 1).toNat; omega)
    · rename_i hdiff
      have hne : (b :: rest).head? ≠ some s.runVal := fun he => hdiff (Option.some.inj he)
      rw [rleStream_closed_run h1 h254 hne]
      refine leads_encPair hh fun p => ?_
      exact leads_encLoopEnd
        (s := { afterWrite s.runVal (afterWrite s.runCnt s) with phase := p, runVal := b, runCnt := 1 })
        ih hh hu hopen (Nat.le_refl 1)

theorem encodesFrom (rest : List Byte) : EncodesFrom rest := by
  induction rest with
  | nil =>
    intro s hh hu hfit
    refine leads_encStep hh ?_
    simp only [encStep]
    rw [rd_eof rfl (by exact unread_eq_nil_iff.mp hu), List.append_nil]
    exact leads_encEof (s := { s with phase := .rleEnc .read }) hh hfit
  | cons b rest ih =>
    intro s hh hu hfit
    obtain ⟨hb, hrest⟩ := unread_eq_cons hu
    refine leads_encStep hh ?_
    simp only [encStep]
    rw [rd_byte rfl (by exact hb)]
    exact (leads_encByte (s := afterByte { s with phase := .rleEnc .read }) ih b hh hrest hfit).imp
      fun t ht => ht.of_afterByte

/-! ## `RleDecodeStream` to its end (R210, R211) -/

/-- The host answers the transaction that the decoder issues, honestly. -/
theorem leads_decStep {p : DecAt} (hh : Honest s)
    (h : Leads .dcmpRle Q (decStep p .ok { s with phase := .rleDec p })) : Leads .dcmpRle Q (issue (.rleDec p) s) := by
  refine .goesOn nofun ?_
  rw [exec_rleDec rfl, transact_honest (by exact hh)]
  exact h

/-- How `RleDecodeStream` ends: an input of odd length lacks the last value byte (R210). -/
def decEndStatus (bytes : List Byte) : Status :=
  if bytes.length % 2 = 0 then statusFinished else statusRaised .corruptFormat

theorem decEndStatus_pair (c v : Byte) (rest : List Byte) : decEndStatus (c :: v :: rest) = decEndStatus rest := by
  unfold decEndStatus
  rw [List.length_cons, List.length_cons, Nat.add_assoc, Nat.add_mod_right]

/-- From the read of a count byte on, with the bytes `rest` to be read: they are all read, and the bytes that their pairs stand
for are written. -/
def DecodesFrom (rest : List Byte) : Prop :=
  ∀ s, Honest s → unread s = rest →
    Leads .dcmpRle (Streamed (decEndStatus rest) rest.length (rleBytes rest) s) (issue (.rleDec .count) s)

/-- The writes of one pair, then the next one. -/
theorem leads_decEmit {rest : List Byte} (ih : DecodesFrom rest) (v : Byte) (k : Nat) (hh : Honest s)
    (hu : unread s = rest) :
    Leads .dcmpRle (Streamed (decEndStatus rest) rest.length (List.replicate k v ++ rleBytes rest) s)
      (decEmit v k s) := by
  induction k generalizing s with
  | zero => exact ih s hh hu
  | succ k ihk =>
    refine leads_decStep hh ?_
    simp only [decStep]
    rw [wr_ok rfl]
    refine (ihk ?_ ?_).imp fun t ht => Streamed.of_afterWrite ht
    exacts [hh, hu]

theorem decodesFrom (rest : List Byte) : DecodesFrom rest := by
  induction rest using rleBytes.induct with
  | case1 c v rest ih =>
    intro s hh hu
    obtain ⟨hc, hu⟩ := unread_eq_cons hu
    obtain ⟨hv, hrest⟩ := unread_eq_cons hu
    refine leads_decStep hh ?_
    simp only [decStep]
    rw [rd_byte rfl (by exact hc)]
    refine leads_decStep (by exact hh) ?_
    simp only [decStep, rdOr]
    rw [rd_byte rfl (by exact hv), decEndStatus_pair]
    exact (leads_decEmit ih v c.toNat (by exact hh) hrest).imp fun t ht => ht.of_afterByte.of_afterByte
  | case2 c =>
    intro s hh hu
    obtain ⟨hc, hu⟩ := unread_eq_cons hu
    refine leads_decStep hh ?_
    simp only [decStep]
    rw [rd_byte rfl (by exact hc)]
    refine leads_decStep (by exact hh) ?_
    simp only [decStep, rdOr]
    rw [rd_eof rfl (by exact unread_eq_nil_iff.mp hu)]
    exact .ended rfl (streamed_raise (by exact hh) _).of_afterByte
  | case3 =>
    intro s hh hu
    refine leads_decStep hh ?_
    simp only [decStep]
    rw [rd_eof rfl (by exact unread_eq_nil_iff.mp hu)]
    exact .ended rfl (streamed_finish (by exact hh))

/-! ## The commands from `IDLE` (R512, R513) -/

theorem unread_of_inPos_zero (h : s.inPos = 0) : unread s = s.input := by
  rw [unread, h, List.drop_zero]

/-- `CMP.RLE` reads the whole input, writes its RLE stream and finishes. -/
theorem cmpRle_endsIn (w : Word) (hp : s.phase = .idle) (hh : Honest s) (h0 : s.inPos = 0) :
    ∃ k t, EndsIn .cmpRle k (startCommand w s) t ∧
      Streamed statusFinished s.input.length (rleStream s.input) (startCommand w s) t := by
  refine Leads.endsIn hp ?_
  rw [exec, execCmpRle, startCommand_phase, hp]
  exact encodesFrom s.input { startCommand w s with runValid := false } hh (unread_of_inPos_zero h0) nofun

/-- `DCMP.RLE` reads the whole input and writes the bytes that its pairs stand for. -/
theorem dcmpRle_endsIn (w : Word) (hp : s.phase = .idle) (hh : Honest s) (h0 : s.inPos = 0) :
    ∃ k t, EndsIn .dcmpRle k (startCommand w s) t ∧
      Streamed (decEndStatus s.input) s.input.length (rleBytes s.input) (startCommand w s) t := by
  refine Leads.endsIn hp ?_
  rw [exec, execDcmpRle, startCommand_phase, hp]
  exact decodesFrom s.input (startCommand w s) hh (unread_of_inPos_zero h0)

end

theorem decEndStatus_rleStream (bytes : List Byte) : decEndStatus (rleStream bytes) = statusFinished :=
  if_pos (by rw [rleStream_length]; omega)

/-- Settles O48: compression writes the RLE stream of the input, and the bytes that this stream stands for are the input. -/
theorem rleRoundTrip : Obligations.RleRoundTrip := by
  intro s hp hh h0 hout
  obtain ⟨k, t, hk, hst, hht, -, -, -, hto, -⟩ := cmpRle_endsIn 0x00000000#32 hp hh h0
  have hstream : t.output = rleStream s.input := by
    rw [hto, startCommand_output, hout, List.nil_append]
  have ⟨_, _, _, htp⟩ := hk
  obtain ⟨j, u, hj, hust, -, -, -, -, huo, -⟩ := dcmpRle_endsIn
    (s := { t with input := t.output, inPos := 0, output := [] }) 0x00000001#32 htp hht rfl
  rw [hstream] at hust huo
  refine ⟨k, t, hk, hst, ?_, ?_, j, u, hj, ?_, ?_⟩
  · rw [hstream, rleStream_length, Nat.mul_mod_right]
  · exact fun k _ => hstream ▸ rleStream_count_ne_zero _ k
  · exact hust.trans (decEndStatus_rleStream _)
  · exact huo.trans (rleBytes_rleStream _)

end Sys2Proof.Machine

/-! The statements of 42_minheap.md: the heap property through `HeapInsert` and `HeapExtractMin`, and that every command step
has a next state. -/

namespace Sys2Proof.Machine

/-! ## The heap property around one index (R256)

While a handle climbs or sinks, the heap property fails on one side of its index alone: above it in a climb, below it in a
descent. The children of that index are no less than its parent, so the swap repairs the one side and moves the gap on. -/

theorem heapKey_swap (a : Arena) {i j : Nat} (hi : i < 256) (hj : j < 256) (k : Nat) :
    heapKey (heapSwap a i j) k = if k = j then heapKey a i else if k = i then heapKey a j else heapKey a k := by
  simp only [heapKey, nodeKey_swap, heapAt_swap a hi hj]
  split
  · rfl
  · split <;> rfl

theorem heapKey_put_ne (a : Arena) {i k : Nat} (h : NodeId) (hi : i < 256) (hk : k ≠ i) :
    heapKey (heapPut a i h) k = heapKey a k :=
  heapKey_congr (heapPut_node a i h) ((heapAt_put a h hi k).trans (if_neg hk))

/-- `HEAP[k]` is no less than its parent (R256). -/
def OrderedAt (a : Arena) (k : Nat) : Prop := (heapKey a (heapParent k)).toNat ≤ (heapKey a k).toNat

/-- The children of `i` are no less than the parent of `i`. -/
def OrderedAcross (a : Arena) (i : Nat) : Prop :=
  ∀ k, 0 < k → k < a.hsize → heapParent k = i → 0 < i → (heapKey a (heapParent i)).toNat ≤ (heapKey a k).toNat

/-- The heap property, but perhaps not between `i` and its parent. -/
structure OrderedButAbove (a : Arena) (i : Nat) : Prop where
  edges : ∀ k, 0 < k → k < a.hsize → k ≠ i → OrderedAt a k
  across : OrderedAcross a i

/-- The heap property, but perhaps not between `i` and its children. -/
structure OrderedButBelow (a : Arena) (i : Nat) : Prop where
  edges : ∀ k, 0 < k → k < a.hsize → heapParent k ≠ i → OrderedAt a k
  across : OrderedAcross a i

theorem heapParent_lt {i : Nat} (h : 0 < i) : heapParent i < i := by unfold heapParent; omega

/-- The root is of least key. -/
theorem HeapOrdered.root_le {a : Arena} (h : HeapOrdered a) (i : Nat) (hi : i < a.hsize) :
    (heapKey a 0).toNat ≤ (heapKey a i).toNat := by
  induction i using Nat.strongRecOn with
  | ind i ih =>
    rcases Nat.eq_zero_or_pos i with rfl | h0
    · exact le_rfl
    · have hp := heapParent_lt h0
      exact (ih _ hp (hp.trans hi)).trans (h i h0 hi)

/-! ### The climb (R253) -/

/-- A handle that is no less than its parent has climbed far enough. -/
theorem OrderedButAbove.heapOrdered {a : Arena} {i : Nat} (h : OrderedButAbove a i) (hi : 0 < i → OrderedAt a i) :
    HeapOrdered a := by
  intro k h0 hk
  by_cases hki : k = i
  · subst hki; exact hi h0
  · exact h.edges k h0 hk hki

/-- A swap with a greater parent moves the gap up. -/
theorem OrderedButAbove.swap {a : Arena} {i : Nat} (h : OrderedButAbove a i) (hs : i < 256) (h0 : 0 < i)
    (hi : i < a.hsize) (hlt : (heapKey a i).toNat < (heapKey a (heapParent i)).toNat) :
    OrderedButAbove (heapSwap a i (heapParent i)) (heapParent i) := by
  have hp := heapParent_lt h0
  have key := heapKey_swap a hs (hp.trans hs)
  constructor
  · intro k hk0 hk hkp
    rw [heapSwap_hsize] at hk
    have hpk := heapParent_lt hk0
    rw [OrderedAt, key, key, if_neg hkp]
    by_cases hki : k = i
    · rw [if_pos (congrArg heapParent hki), if_pos hki]; exact hlt.le
    · have hord : (heapKey a (heapParent k)).toNat ≤ (heapKey a k).toNat := h.edges k hk0 hk hki
      rw [if_neg hki]
      split
      · rename_i hsib; rw [hsib] at hord; omega
      · split
        · rename_i hchild; exact h.across k hk0 hk hchild h0
        · exact hord
  · intro k hk0 hk hkp hp0
    rw [heapSwap_hsize] at hk
    have hpp := heapParent_lt hp0
    have hgrand : (heapKey a (heapParent (heapParent i))).toNat ≤ (heapKey a (heapParent i)).toNat :=
      h.edges _ hp0 (hp.trans hi) hp.ne
    have hpk := heapParent_lt hk0
    rw [key, key, if_neg hpp.ne, if_neg (hpp.trans hp).ne, if_neg (hkp ▸ hpk.ne')]
    split
    · exact hgrand
    · rename_i hki
      have hord : (heapKey a (heapParent k)).toNat ≤ (heapKey a k).toNat := h.edges k hk0 hk hki
      rw [hkp] at hord
      exact hgrand.trans hord

theorem siftUp_heapOrdered (fuel i : Nat) {a : Arena} (hf : i ≤ fuel) (hi : i < a.hsize) (hs : a.hsize ≤ 256)
    (h : OrderedButAbove a i) : HeapOrdered (siftUp fuel i a) := by
  induction fuel generalizing i a with
  | zero => exact h.heapOrdered fun h0 => by omega
  | succ fuel ih =>
    unfold siftUp
    split
    · rename_i hc
      obtain ⟨h0, hlt⟩ := hc
      have hp := heapParent_lt h0
      exact ih _ (by omega) (hp.trans hi) hs (h.swap (by omega) h0 hi (BitVec.lt_def.mp hlt))
    · rename_i hc
      exact h.heapOrdered fun h0 => Nat.le_of_not_lt fun hlt => hc ⟨h0, BitVec.lt_def.mpr hlt⟩

/-- `HeapInsert` keeps the heap property (R256). -/
theorem heapInsert_heapOrdered {a b : Arena} {h : NodeId} (hs : a.hsize < 256) (ho : HeapOrdered a)
    (hb : heapInsert h a = some b) : HeapOrdered b := by
  simp only [heapInsert, Config.heapCap, hs, ↓reduceIte, Option.some.injEq] at hb
  subst hb
  have key : ∀ k, k < a.hsize → heapKey { heapPut a a.hsize h with hsize := a.hsize + 1 } k = heapKey a k := fun k hk =>
    heapKey_put_ne a h hs hk.ne
  refine siftUp_heapOrdered _ _ le_rfl (Nat.lt_succ_self _) hs ⟨fun k h0 hk hne => ?_, fun k h0 hk hp _ => ?_⟩
  · have hk' : k < a.hsize := Nat.lt_of_le_of_ne (Nat.le_of_lt_succ hk) hne
    rw [OrderedAt, key k hk', key _ ((heapParent_lt h0).trans hk')]
    exact ho k h0 hk'
  · have := heapParent_lt h0
    exact absurd (Nat.le_of_lt_succ hk) (by omega)

/-- Settles O38: the climb starts from a heap with a gap above its last entry, and closes it. -/
theorem heapInsertKeepsTheHeap : Obligations.HeapInsertKeepsTheHeap := by
  intro a h hs ho
  obtain ⟨b, hb, hsize, hperm, hnode, hnnodes, hroot⟩ := heapInsert_spec h hs
  exact ⟨b, hb, hsize, hperm, heapInsert_heapOrdered hs ho hb, heapInsert_climbed hs hb, hnode, hnnodes, hroot⟩

/-! ### The descent (R254) -/

theorem heapParent_smallerChild (a : Arena) (i : Nat) : heapParent (smallerChild a i) = i := by
  rw [smallerChild_eq, leastChild, heapParent]
  split <;> omega

theorem eq_child_of_heapParent {k i : Nat} (h0 : 0 < k) (h : heapParent k = i) : k = 2 * i + 1 ∨ k = 2 * i + 2 := by
  unfold heapParent at h
  omega

/-- The child that the descent looks at is the lesser of the children. -/
theorem heapKey_smallerChild_le {a : Arena} {k i : Nat} (h0 : 0 < k) (hk : k < a.hsize) (h : heapParent k = i) :
    (heapKey a (smallerChild a i)).toNat ≤ (heapKey a k).toNat := by
  rw [smallerChild_eq, leastChild]
  rcases eq_child_of_heapParent h0 h with rfl | rfl <;> split <;> omega

/-- A handle that is no greater than its children has sunk far enough. -/
theorem OrderedButBelow.heapOrdered {a : Arena} {i : Nat} (h : OrderedButBelow a i)
    (hi : ∀ k, 0 < k → k < a.hsize → heapParent k = i → (heapKey a i).toNat ≤ (heapKey a k).toNat) :
    HeapOrdered a := by
  intro k h0 hk
  by_cases hki : heapParent k = i
  · rw [hki]; exact hi k h0 hk hki
  · exact h.edges k h0 hk hki

theorem OrderedButBelow.heapOrdered_of_leaf {a : Arena} {i : Nat} (h : OrderedButBelow a i) (hl : a.hsize ≤ heapLeft i) :
    HeapOrdered a := h.heapOrdered fun k h0 hk hki => by
  have := eq_child_of_heapParent h0 hki
  unfold heapLeft at hl
  omega

/-- A swap with the lesser child moves the gap down. -/
theorem OrderedButBelow.swap {a : Arena} {i : Nat} (h : OrderedButBelow a i) (hs : a.hsize ≤ 256)
    (hc : smallerChild a i < a.hsize) (hlt : (heapKey a (smallerChild a i)).toNat < (heapKey a i).toNat) :
    OrderedButBelow (heapSwap a i (smallerChild a i)) (smallerChild a i) := by
  have hpc := heapParent_smallerChild a i
  have hleast := fun k => heapKey_smallerChild_le (a := a) (k := k) (i := i)
  generalize smallerChild a i = c at *
  have hc0 : 0 < c := by
    rcases Nat.eq_zero_or_pos c with rfl | h0
    · obtain rfl : 0 = i := hpc
      exact absurd hlt (lt_irrefl _)
    · exact h0
  have hic : i < c := hpc ▸ heapParent_lt hc0
  have key := heapKey_swap a (hic.trans (hc.trans_le hs)) (hc.trans_le hs)
  constructor
  · intro k hk0 hk hkc
    rw [heapSwap_hsize] at hk
    have hpk := heapParent_lt hk0
    rw [OrderedAt, key, key, if_neg hkc]
    by_cases hki : heapParent k = i
    · rw [if_pos hki]
      split
      · exact hlt.le
      · rw [if_neg (hki ▸ hpk.ne')]; exact hleast k hk0 hk hki
    · have hne : k ≠ c := fun hkc' => hki (hkc' ▸ hpc)
      rw [if_neg hki, if_neg hne]
      split
      · rename_i hk; subst hk; exact h.across c hc0 hc hpc hk0
      · exact h.edges k hk0 hk hki
  · intro k hk0 hk hkc _
    rw [heapSwap_hsize] at hk
    have hck : c < k := hkc ▸ heapParent_lt hk0
    have hord : (heapKey a (heapParent k)).toNat ≤ (heapKey a k).toNat := h.edges k hk0 hk (hkc ▸ hic.ne')
    rw [hkc] at hord
    rw [hpc, key, key, if_neg hic.ne, if_pos rfl, if_neg hck.ne', if_neg (hic.trans hck).ne']
    exact hord

theorem siftDown_heapOrdered (fuel i : Nat) {a : Arena} (hf : a.hsize ≤ i + fuel) (hs : a.hsize ≤ 256)
    (h : OrderedButBelow a i) : HeapOrdered (siftDown fuel i a) := by
  induction fuel generalizing i a with
  | zero => exact h.heapOrdered_of_leaf (by unfold heapLeft; omega)
  | succ fuel ih =>
    unfold siftDown
    split
    · rename_i hl; exact h.heapOrdered_of_leaf hl
    · rename_i hl
      split
      · rename_i hlt
        have hc : smallerChild a i < a.hsize := smallerChild_lt (Nat.lt_of_not_le hl)
        have hic : i < smallerChild a i := smallerChild_eq a i ▸ leastChild_gt a a.hsize i
        exact ih _ (by rw [heapSwap_hsize]; omega) hs (h.swap hs hc (BitVec.lt_def.mp hlt))
      · rename_i hge
        exact h.heapOrdered fun k h0 hk hki =>
          (Nat.le_of_not_lt fun hlt => hge (BitVec.lt_def.mpr hlt)).trans (heapKey_smallerChild_le h0 hk hki)

theorem HeapOrdered.dropLast {a : Arena} (h : HeapOrdered a) : HeapOrdered { a with hsize := a.hsize - 1 } :=
  fun k h0 hk => h k h0 (hk.trans_le (Nat.sub_le _ 1))

/-- Whatever handle comes to the root, it sinks until the heap is in order. -/
theorem heapRefill_heapOrdered {a : Arena} (hs : a.hsize ≤ 256) (h : HeapOrdered a) : HeapOrdered (heapRefill a) := by
  unfold heapRefill
  split
  · refine siftDown_heapOrdered _ _ (Nat.le_add_left _ 0) hs
      ⟨fun k h0 hk hp => ?_, fun _ _ _ _ h0 => absurd h0 (lt_irrefl 0)⟩
    rw [OrderedAt, heapKey_put_ne a _ (by decide) h0.ne', heapKey_put_ne a _ (by decide) hp]
    exact h k h0 hk
  · exact h

/-- `HeapExtractMin` keeps the heap property (R256). -/
theorem heapExtractMin_heapOrdered {a b : Arena} {x : NodeId} (hs : a.hsize ≤ 256) (ho : HeapOrdered a)
    (hb : heapExtractMin a = some (x, b)) : HeapOrdered b := by
  unfold heapExtractMin at hb
  split at hb
  · obtain ⟨-, rfl⟩ := Prod.mk.inj (Option.some.inj hb)
    exact heapRefill_heapOrdered ((Nat.sub_le _ 1).trans hs) ho.dropLast
  · cases hb

/-- The valid entries are the handles at the indices below `HSIZE`. -/
theorem exists_index_of_mem_heapEntries {a : Arena} (hs : a.hsize ≤ 256) {y : NodeId} (hy : y ∈ heapEntries a) :
    ∃ i, i < a.hsize ∧ heapAt a i = y := by
  obtain ⟨i, hi, rfl⟩ := List.mem_iff_getElem.mp hy
  have hi' : i < a.hsize := heapEntries_length hs ▸ hi
  exact ⟨i, hi', (heapEntries_getElem hi (hi'.trans_le hs)).symm⟩

/-- Settles O39: the descent starts from a heap with a gap below its root, and closes it. -/
theorem heapExtractMinTakesTheLeast : Obligations.HeapExtractMinTakesTheLeast := by
  intro a h0 hs ho
  obtain ⟨b, hb, hsize, hperm, hnode, hnnodes, hroot⟩ := heapExtractMin_spec h0 hs
  obtain ⟨-, -, hsunk⟩ := heapExtractMin_sunk hs hb
  refine ⟨heapAt a 0, b, hb, rfl, hsize, hperm, fun y hy => ?_, heapExtractMin_heapOrdered hs ho hb, hsunk, hnode, hnnodes,
    hroot⟩
  obtain ⟨i, hi, rfl⟩ := exists_index_of_mem_heapEntries hs hy
  exact ho.root_le i hi

end Sys2Proof.Machine

namespace Sys2Proof.Machine

/-! ## Every command step has a next state (R255, R336, R720)

A step ends in a next state unless the host does not answer or `BuildTree` overflows, and `buildTree_spec` says that it never
does. -/

/-- A continuation that answers a next state, whatever the state. -/
def Proceeds (f : State → Result) : Prop := ∀ s, ∃ t, f s = .next t

theorem issue_proceeds (p : Phase) : Proceeds (issue p) := fun _ => ⟨_, rfl⟩

theorem next_proceeds (f : State → State) : Proceeds fun s => .next (f s) := fun _ => ⟨_, rfl⟩

theorem Proceeds.comp {k : State → Result} (hk : Proceeds k) (f : State → State) : Proceeds fun s => k (f s) :=
  fun s => hk (f s)

theorem rd_proceeds {e : State → Result} {f : Byte → State → Result} (he : Proceeds e) (hf : ∀ b, Proceeds (f b))
    (a : Answer) : Proceeds (rd a e f) := by
  intro s
  rcases rd_cases a e f s with ⟨pos, kept, -, hr⟩ | ⟨-, -, hr⟩ | ⟨b, -, -, hr⟩ <;> rw [hr]
  · exact ⟨_, rfl⟩
  · exact he s
  · exact hf b _

theorem rdOr_proceeds {f : Byte → State → Result} (hf : ∀ b, Proceeds (f b)) (e : Error) (a : Answer) :
    Proceeds (rdOr a e f) := rd_proceeds (next_proceeds (raise e)) hf a

theorem wr_proceeds {k : State → Result} (hk : Proceeds k) (a : Answer) (b : Byte) : Proceeds (wr a b k) := by
  intro s
  rcases wr_cases a b k s with ⟨pos, kept, -, hr⟩ | ⟨-, hr⟩ <;> rw [hr]
  · exact ⟨_, rfl⟩
  · exact hk _

/-! ### The RLE commands -/

theorem encLoopEnd_proceeds : Proceeds encLoopEnd := by
  intro s
  unfold encLoopEnd
  split <;> exact issue_proceeds _ s

theorem encByte_proceeds (b : Byte) : Proceeds (encByte b) := by
  intro s
  unfold encByte
  split
  · exact encLoopEnd_proceeds _
  · split
    · exact encLoopEnd_proceeds _
    · exact issue_proceeds _ s

theorem encEof_proceeds : Proceeds encEof := by
  intro s
  unfold encEof
  split
  · exact issue_proceeds _ s
  · exact next_proceeds finish s

theorem encClosed_proceeds (why : RunClose) : Proceeds (encClosed why) := by
  intro s
  cases why with
  | differs b => exact encLoopEnd_proceeds _
  | cap => exact issue_proceeds _ _
  | atEof => exact next_proceeds finish s

theorem encStep_proceeds (p : EncAt) (a : Answer) : Proceeds (encStep p a) := by
  cases p with
  | read => exact rd_proceeds encEof_proceeds encByte_proceeds a
  | count why => exact fun s => wr_proceeds (issue_proceeds _) a s.runCnt s
  | value why => exact fun s => wr_proceeds (encClosed_proceeds why) a s.runVal s

theorem decEmit_proceeds (v : Byte) (left : Nat) : Proceeds (decEmit v left) := by
  cases left with
  | zero => exact issue_proceeds _
  | succ k => exact issue_proceeds _

theorem decStep_proceeds (p : DecAt) (a : Answer) : Proceeds (decStep p a) := by
  cases p with
  | count => exact rd_proceeds (next_proceeds finish) (fun c => issue_proceeds _) a
  | value c => exact rdOr_proceeds (fun v => decEmit_proceeds v _) _ a
  | emit v left => exact wr_proceeds (decEmit_proceeds v left) a v

/-! ### `CMP.HUF` -/

theorem writeAll_proceeds {mk : Byte → List Byte → Phase} {done : State → Result} (hd : Proceeds done)
    (bytes : List Byte) : Proceeds (writeAll mk done bytes) := by
  cases bytes with
  | nil => exact hd
  | cons b rest => exact issue_proceeds _

theorem headerWritten_proceeds : Proceeds headerWritten := by
  intro s
  unfold headerWritten
  split
  · exact next_proceeds finish s
  · exact writeAll_proceeds (issue_proceeds _) _ s

theorem writeHeader_proceeds : Proceeds writeHeader := fun s => writeAll_proceeds headerWritten_proceeds _ s

/-- The tree of the counts is built: `BuildTree` does not overflow (R255, R336). -/
theorem pass1Eof_proceeds : Proceeds pass1Eof := by
  intro s
  obtain ⟨a, ha, -⟩ := buildTree_spec s.freq s.arena
  unfold pass1Eof
  rw [ha]
  split
  · exact writeHeader_proceeds _
  · exact writeHeader_proceeds _

theorem pass1Byte_proceeds (b : Byte) : Proceeds (pass1Byte b) := by
  intro s
  unfold pass1Byte
  split
  · exact next_proceeds (raise _) s
  · exact issue_proceeds _ _

theorem pass2Loop_proceeds : Proceeds pass2Loop := by
  intro s
  unfold pass2Loop packFlush
  split
  · split
    · exact issue_proceeds _ s
    · exact next_proceeds finish s
  · exact issue_proceeds _ s

theorem packBits_proceeds (bits : List Bool) : Proceeds (packBits pass2Packed bits) := by
  induction bits with
  | nil => exact fun _ => pass2Loop_proceeds _
  | cons b rest ih =>
    intro s
    unfold packBits
    split
    · exact issue_proceeds _ _
    · exact ih _

theorem pass2Byte_proceeds (b : Byte) : Proceeds (pass2Byte b) := by
  intro s
  unfold pass2Byte
  split
  · exact next_proceeds (raise _) s
  · exact packBits_proceeds _ s

theorem pass2Step_proceeds (p : PackAt) (a : Answer) : Proceeds (pass2Step p a) := by
  cases p with
  | read => exact rdOr_proceeds pass2Byte_proceeds _ a
  | flush rest => exact fun s => wr_proceeds ((packBits_proceeds rest).comp packInit) a s.acc s

theorem rewindStep_proceeds (a : Answer) : Proceeds (rewindStep a) := by
  intro s
  cases a with
  | err pos kept => exact ⟨_, rfl⟩
  | ok => exact pass2Loop_proceeds _
  | okChanged bytes => exact pass2Loop_proceeds _

/-! ### `DCMP.HUF` -/

theorem headerRead_proceeds : Proceeds headerRead := by
  intro s
  unfold headerRead
  split
  · exact next_proceeds finish s
  · exact issue_proceeds _ _

theorem headerByte_proceeds (got : List Byte) (b : Byte) : Proceeds (headerByte got b) := by
  intro s
  unfold headerByte
  split
  · split
    · exact issue_proceeds _ s
    · exact next_proceeds (raise _) s
  · split
    · exact issue_proceeds _ _
    · split
      · exact headerRead_proceeds _
      · exact issue_proceeds _ s

/-- The tree of the table is built: `BuildTree` does not overflow (R255, R336). -/
theorem tableRead_proceeds : Proceeds tableRead := by
  intro s
  obtain ⟨a, ha, -⟩ := buildTree_spec s.freq s.arena
  unfold tableRead
  rw [ha]
  split
  · exact next_proceeds (raise _) s
  · exact issue_proceeds _ _

theorem tableByte_proceeds (left : Nat) (got : List Byte) (b : Byte) : Proceeds (tableByte left got b) := by
  intro s
  unfold tableByte
  split
  · exact issue_proceeds _ s
  · split
    · exact tableRead_proceeds _
    · exact issue_proceeds _ _

theorem walkBits_proceeds (byte : Byte) (k : Nat) : Proceeds (walkBits byte k) := by
  induction k with
  | zero => exact issue_proceeds _
  | succ k ih =>
    intro s
    unfold walkBits
    split
    · exact next_proceeds (raise _) s
    · split
      · exact issue_proceeds _ _
      · exact ih _

theorem bodyWritten_proceeds (byte : Byte) (left : Nat) : Proceeds (bodyWritten byte left) := by
  intro s
  unfold bodyWritten
  split
  · exact next_proceeds finish _
  · exact walkBits_proceeds byte left _

theorem bodyStep_proceeds (p : BodyAt) (a : Answer) : Proceeds (bodyStep p a) := by
  cases p with
  | read => exact rdOr_proceeds (fun byte => walkBits_proceeds byte 8) _ a
  | emit byte left => exact fun s => wr_proceeds (bodyWritten_proceeds byte left) a (curSym s) s

/-! ### The step -/

/-- From `IDLE`, every command starts or ends at once (R511, R518). -/
theorem exec_idle_proceeds (i : Instr) {s : State} (hp : s.phase = .idle) : ∃ t, exec i s = .next t := by
  cases i with
  | cmpRle => simp only [exec, execCmpRle, hp]; exact issue_proceeds _ _
  | dcmpRle => simp only [exec, execDcmpRle, hp]; exact issue_proceeds _ _
  | cmpHuf => simp only [exec, execCmpHuf, hp]; exact issue_proceeds _ _
  | dcmpHuf => simp only [exec, execDcmpHuf, hp]; exact issue_proceeds _ _
  | invalid w => simp only [exec, execInvalid, hp]; exact next_proceeds (raise _) s

/-- An answered transaction of a running command goes on to a next state. -/
theorem exec_running_proceeds {i : Instr} {s : State} (hi : phaseCommand s.phase = some i)
    (ha : (takeAnswer s).isSome) : ∃ t, exec i s = .next t := by
  obtain ⟨⟨a, s1⟩, ha⟩ := Option.isSome_iff_exists.mp ha
  have hk : ∀ {k : Answer → State → Result}, exec i s = transact k s → (∀ a, Proceeds (k a)) → ∃ t, exec i s = .next t :=
    fun he hk => by rw [he, transact_some ha]; exact hk a s1
  refine running_cases hi ?_ ?_ ?_ ?_ ?_ ?_ ?_ ?_ ?_ ?_ ?_
  · rintro p rfl hp; exact hk (exec_rleEnc hp) (encStep_proceeds p)
  · rintro p rfl hp; exact hk (exec_rleDec hp) (decStep_proceeds p)
  · rintro rfl hp; exact hk (exec_hufPass1 hp) (rd_proceeds pass1Eof_proceeds pass1Byte_proceeds)
  · rintro b rest rfl hp
    exact hk (exec_hufHdrW hp) fun a => wr_proceeds (writeAll_proceeds headerWritten_proceeds rest) a b
  · rintro b rest rfl hp
    exact hk (exec_hufTabW hp) fun a => wr_proceeds (writeAll_proceeds (issue_proceeds _) rest) a b
  · rintro rfl hp; exact hk (exec_hufRewind hp) rewindStep_proceeds
  · rintro p rfl hp; exact hk (exec_hufPass2 hp) (pass2Step_proceeds p)
  · rintro rfl hp
    exact hk (exec_hufFlush hp) fun a s => wr_proceeds ((next_proceeds finish).comp packInit) a (flushByte s) s
  · rintro got rfl hp; exact hk (exec_hufHdrR hp) (rdOr_proceeds (headerByte_proceeds got) _)
  · rintro left got rfl hp; exact hk (exec_hufTabR hp) (rdOr_proceeds (tableByte_proceeds left got) _)
  · rintro p rfl hp; exact hk (exec_hufBody hp) (bodyStep_proceeds p)

/-- Settles O18: a start has no way to fail, and an answered transaction goes on because `BuildTree` never overflows. -/
theorem everyCommandStepHasANextState : Obligations.EveryCommandStepHasANextState := by
  rintro i s (hp | ⟨hi, ha⟩)
  · exact exec_idle_proceeds i hp
  · exact exec_running_proceeds hi ha

end Sys2Proof.Machine

/-! The statements of 43_frequency.md: what a byte of pass 1 does to the frequencies, what the Huffman commands leave
unchanged, and the sum of the frequencies. -/

namespace Sys2Proof.Machine

/-! ## A byte of pass 1 (R302, R303) -/

section
variable {s : State} {b : Byte}

/-- The byte that would take its count past 0xFFFFFFFF is not counted (R303). -/
theorem pass1Byte_overflow (h : entryAt s.freq b = 0xFFFFFFFF#32) :
    pass1Byte b s = .next (raise .frequencyOverflow s) := if_pos h

theorem pass1Byte_counts (h : entryAt s.freq b ≠ 0xFFFFFFFF#32) :
    pass1Byte b s =
      issue .hufPass1 { s with freq := entryPut s.freq b (entryAt s.freq b + 1), total := s.total + 1 } := if_neg h

end

theorem word_add_one_toNat {v : Word} (h : v ≠ 0xFFFFFFFF#32) : (v + 1).toNat = v.toNat + 1 := by
  have hne : v.toNat ≠ 0xFFFFFFFF := fun he => h (BitVec.eq_of_toNat_eq he)
  have hlt := v.isLt
  rw [BitVec.toNat_add_of_lt (by simp; omega)]; rfl

/-- Settles O26: the byte is read, and then its entry alone decides between the error and the count. -/
theorem frequencyNeverWraps : Obligations.FrequencyNeverWraps := by
  intro s s1 b hp ha hb
  have hx : exec .cmpHuf s = pass1Byte b (afterByte s1) := by
    rw [exec_hufPass1 hp, transact_some ha]
    exact rd_byte rfl (by rw [takeAnswer_state ha]; exact hb)
  have hs := takeAnswer_state ha
  generalize s1.answers = rest at hs
  subst hs
  constructor
  · intro hmax
    exact hx.trans (pass1Byte_overflow (s := afterByte { s with answers := rest }) (BitVec.eq_of_toNat_eq hmax))
  · intro hmax
    have hne : entryAt s.freq b ≠ 0xFFFFFFFF#32 := fun he => hmax (congrArg BitVec.toNat he)
    refine ⟨_, hx.trans (pass1Byte_counts hne), rfl, ?_, fun c hc => ?_, rfl⟩
    · exact (congrArg BitVec.toNat ((entryAt_entryPut ..).trans (if_pos rfl))).trans (word_add_one_toNat hne)
    · exact (entryAt_entryPut ..).trans (if_neg hc)

/-! ## The frame of the Huffman commands (R302, R304, R333, R381, R460, R516; R416 to R419, R470)

As in the claims, what a part of a command may write is a `hide`: the state with those fields at one fixed value. Every
transaction may write `STATUS`, `PHASE`, the two counters, the streams and the host's answers, which is what `hideRleDec`
hides. What a `hide` does not name is read off an equation of hidden states with `congrArg`. -/

/-- `s` without what `CMP.HUF` may write after pass 1: the packer's registers and `REMAIN` (R460, R516). -/
def hidePacked (s : State) : State := { hideRleDec s with remain := 0, acc := 0, bitCnt := 0 }

/-- `s` without what a byte of pass 1, and the start of `CMP.HUF`, may write (R301, R302). -/
def hideCounted (s : State) : State := { hideRleDec s with freq := State.reset.freq, total := 0 }

/-- `s` without what the end of pass 1 may write (R304, R333, R381). -/
def hideCoded (s : State) : State :=
  { hideRleDec s with origSize := 0, nsym := 0, n := 0, arena := Arena.reset, code := State.reset.code }

/-- `s` without what the header read may write before its last byte (R414). -/
def hideHeaderRead (s : State) : State := { hideRleDec s with nsRaw := 0 }

/-- `s` without what the walk of the body may write (R470). -/
def hideWalked (s : State) : State := { hideRleDec s with cur := none, decoded := 0 }

/-- `s` without what the end of the table read may write: the tree, and where the body begins (R420, R517). -/
def hideRebuilt (s : State) : State := { hideWalked s with arena := Arena.reset }

theorem Yields.imp {P Q : State → Prop} {r : Result} (h : Yields P r) (hpq : ∀ t, P t → Q t) : Yields Q r := by
  cases r with
  | next t => exact hpq t h
  | fault f => trivial
  | refused f => trivial

/-- Only the answer to a rewind changes the bytes of `IN` (R102). -/
theorem answered_input {f : InFlight} (hf : f ≠ .rewind) (a : Answer) (s : State) :
    (answered f a s).input = s.input := by
  cases f with
  | nothing => rfl
  | read =>
    by_cases ha : a.good = true
    · rcases answered_read_cases ha s with ⟨-, h⟩ | ⟨-, h⟩ <;> rw [h]
      rfl
    · cases a <;> simp [Answer.good] at ha
      rfl
  | rewind => exact absurd rfl hf
  | write b =>
    cases a with
    | err pos kept => cases kept <;> rfl
    | ok => rfl
    | okChanged bytes => rfl

theorem inFlight_ne_rewind {s : State} (hp : s.phase ≠ .hufRewind) : inFlight s ≠ .rewind := by
  intro h
  unfold inFlight at h
  split at h
  case h_11 hr => exact hp hr
  all_goals cases h

theorem exec_input_kept {i : Instr} {s t : State} (hp : s.phase ≠ .hufRewind) (h : exec i s = .next t) :
    t.input = s.input := by
  rcases exec_next_phase h with h0 | hi
  · rcases exec_idle_cases h0 h with ⟨-, rfl⟩ | ⟨-, rfl⟩ | ⟨-, rfl⟩ | ⟨-, rfl⟩ | ⟨w, -, rfl⟩ <;> rfl
  · obtain ⟨a, s1, ha⟩ := exec_next_answered hi h
    rw [(exec_sameStreams hi ha h).input, answered_input (inFlight_ne_rewind hp), takeAnswer_state ha]

/-! ### `CMP.HUF` -/

theorem writeAll_frame {mk : Byte → List Byte → Phase} {done : State → Result} {s : State}
    (hd : Yields (hideRleDec · = hideRleDec s) (done s)) (bytes : List Byte) :
    Yields (hideRleDec · = hideRleDec s) (writeAll mk done bytes s) := by
  cases bytes with
  | nil => exact hd
  | cons b rest => rfl

theorem headerWritten_frame (s : State) : Yields (hideRleDec · = hideRleDec s) (headerWritten s) := by
  unfold headerWritten
  split
  · rfl
  · exact writeAll_frame (done := issue .hufRewind) rfl _

theorem writeHeader_frame (s : State) : Yields (hideRleDec · = hideRleDec s) (writeHeader s) :=
  writeAll_frame (headerWritten_frame s) _

theorem pass1Eof_frame (s : State) : Yields (hideCoded · = hideCoded s) (pass1Eof s) := by
  unfold pass1Eof
  split
  · exact (writeHeader_frame (endOfPass1 s)).imp fun t ht => (congrArg hideCoded ht :)
  · split
    · trivial
    · exact (writeHeader_frame _).imp fun t ht => (congrArg hideCoded ht :)

theorem pass2Loop_frame (s : State) : Yields (hidePacked · = hidePacked s) (pass2Loop s) := by
  unfold pass2Loop packFlush
  split
  · split <;> rfl
  · rfl

theorem packBits_frame (bits : List Bool) (s : State) :
    Yields (hidePacked · = hidePacked s) (packBits pass2Packed bits s) := by
  induction bits generalizing s with
  | nil => exact pass2Loop_frame { s with remain := s.remain - 1 }
  | cons b rest ih =>
    unfold packBits
    split
    · rfl
    · exact ih (packShift b s)

theorem pass2Byte_frame (b : Byte) (s : State) : Yields (hidePacked · = hidePacked s) (pass2Byte b s) := by
  unfold pass2Byte
  split
  · rfl
  · exact packBits_frame _ s

theorem pass2Step_frame (p : PackAt) (a : Answer) (s : State) :
    Yields (hidePacked · = hidePacked s) (pass2Step p a s) := by
  cases p with
  | read => exact yields_rd (fun _ => rfl) rfl fun b => pass2Byte_frame b (afterByte s)
  | flush rest => exact yields_wr (fun _ => rfl) (packBits_frame rest (packInit (afterWrite s.acc s)))

theorem rewindStep_frame (a : Answer) (s : State) : Yields (hidePacked · = hidePacked s) (rewindStep a s) := by
  cases a with
  | err pos kept => rfl
  | ok => exact pass2Loop_frame { packInit s with inPos := 0, remain := s.total }
  | okChanged bytes => exact pass2Loop_frame { packInit s with input := bytes, inPos := 0, remain := s.total }

theorem exec_cmpHuf_idle {s t : State} (hp : s.phase = .idle) (h : exec .cmpHuf s = .next t) :
    t = { s with phase := .hufPass1, freq := Vector.replicate 256 0, total := 0 } := by
  simpa using exec_idle_cases hp h

/-- After pass 1, a transaction of `CMP.HUF` writes the packer's registers and `REMAIN` alone. -/
theorem exec_afterPass1_frame {s : State} (hi : phaseCommand s.phase = some .cmpHuf) (hp : s.phase ≠ .hufPass1) :
    Yields (hidePacked · = hidePacked s) (exec .cmpHuf s) := by
  have hk : ∀ {k : Answer → State → Result}, exec .cmpHuf s = transact k s →
      (∀ a u, Yields (hidePacked · = hidePacked u) (k a u)) → Yields (hidePacked · = hidePacked s) (exec .cmpHuf s) :=
    fun he hk => he ▸ yields_transact fun a rest => hk a { s with answers := rest }
  have hw : ∀ {a : Answer} {b : Byte} {k : State → Result} {u : State},
      (∀ v, Yields (hideRleDec · = hideRleDec v) (k v)) → Yields (hidePacked · = hidePacked u) (wr a b k u) := fun {_ b _ u} hk =>
    yields_wr (fun _ => rfl) ((hk (afterWrite b u)).imp fun t ht => (congrArg hidePacked ht :))
  refine running_cases hi nofun nofun (fun _ h => absurd h hp) ?_ ?_ ?_ ?_ ?_ nofun nofun nofun
  · intro b rest _ hp
    exact hk (exec_hufHdrW hp) fun a u => hw fun v => writeAll_frame (headerWritten_frame v) rest
  · intro b rest _ hp
    exact hk (exec_hufTabW hp) fun a u => hw fun v => writeAll_frame (done := issue .hufRewind) rfl rest
  · intro _ hp; exact hk (exec_hufRewind hp) rewindStep_frame
  · intro p _ hp; exact hk (exec_hufPass2 hp) (pass2Step_frame p)
  · intro _ hp; exact hk (exec_hufFlush hp) fun a u => yields_wr (fun _ => rfl) rfl

/-- A transaction of pass 1 ends the command with the tables as they were, or ends the pass with `FREQ` and `TOTAL` as they
were, or counts a byte. -/
theorem exec_pass1_cases {s t : State} (hp : s.phase = .hufPass1) (h : exec .cmpHuf s = .next t) :
    (t.phase = .idle ∧ hideRleDec t = hideRleDec s) ∨
    (s.input.length ≤ s.inPos ∧ hideCoded t = hideCoded s) ∨
    ∃ b, s.inPos < s.input.length ∧ entryAt s.freq b ≠ 0xFFFFFFFF#32 ∧ hideCounted t = hideCounted s ∧
      t.freq = entryPut s.freq b (entryAt s.freq b + 1) ∧ t.total = s.total + 1 := by
  obtain ⟨a, s1, ha⟩ := exec_next_answered (by rw [hp]; rfl) h
  have hs := takeAnswer_state ha
  rw [exec_hufPass1 hp, transact_some ha] at h
  generalize s1.answers = rest at hs
  subst hs
  rcases rd_cases a pass1Eof pass1Byte { s with answers := rest } with
    ⟨pos, kept, -, hr⟩ | ⟨-, hend, hr⟩ | ⟨b, -, hb, hr⟩ <;> rw [hr] at h
  · cases h; exact .inl ⟨rfl, rfl⟩
  · exact .inr (.inl ⟨hend, (pass1Eof_frame { s with answers := rest }).of_next h⟩)
  · have hlt : s.inPos < s.input.length := (List.getElem?_eq_some_iff.mp hb).1
    by_cases hmax : entryAt s.freq b = 0xFFFFFFFF#32
    · rw [pass1Byte_overflow (s := afterByte { s with answers := rest }) hmax] at h
      cases h; exact .inl ⟨rfl, rfl⟩
    · rw [pass1Byte_counts (s := afterByte { s with answers := rest }) hmax] at h
      cases h; exact .inr (.inr ⟨b, hlt, hmax, rfl, rfl, rfl⟩)

/-! ### `DCMP.HUF` -/

theorem interpretCount_eq (s : State) : ∃ k, interpretCount s = { s with n := k, nsym := k } := by
  unfold interpretCount
  split
  · exact ⟨0, rfl⟩
  · exact ⟨interpretedCount s.nsRaw, rfl⟩

/-- What a transaction of the header read with the bytes `got` before it may do: the counts and `FREQ` wait for the last
byte, and `FREQ` is then cleared, unless the size is 0 (R417). -/
structure HeaderStep (got : List Byte) (s t : State) : Prop where
  frame : hideHufDec t = hideHufDec s
  arena : t.arena = s.arena
  early : got.length ≠ 12 → hideHeaderRead t = hideHeaderRead s
  freq : t.freq = s.freq ∨ (t.freq = Vector.replicate 256 0 ∧ ∃ left, t.phase = .hufTabR left [])

theorem headerStep_of_early {got : List Byte} {s t : State} (h : hideHeaderRead t = hideHeaderRead s) :
    HeaderStep got s t :=
  ⟨(congrArg hideHufDec h :), (congrArg State.arena h :), fun _ => h, .inl (congrArg State.freq h :)⟩

theorem headerRead_frame {got : List Byte} (h : got.length = 12) (s : State) :
    Yields (HeaderStep got s) (headerRead s) := by
  unfold headerRead
  split
  · exact ⟨rfl, rfl, fun hearly => absurd h hearly, .inl rfl⟩
  · exact ⟨rfl, rfl, fun hearly => absurd h hearly, .inr ⟨rfl, _, rfl⟩⟩

theorem headerByte_frame (got : List Byte) (b : Byte) (s : State) : Yields (HeaderStep got s) (headerByte got b s) := by
  unfold headerByte
  split
  · split <;> exact headerStep_of_early rfl
  · split
    · exact headerStep_of_early rfl
    · split
      · rename_i hlast
        obtain ⟨k, hk⟩ := interpretCount_eq { s with origSize := assembleLe 64 ((got ++ [b]).drop 5) }
        rw [hk]
        exact (headerRead_frame hlast _).imp fun t ht =>
          ⟨ht.frame, ht.arena, fun hearly => absurd hlast hearly, ht.freq⟩
      · exact headerStep_of_early rfl

theorem exec_hdrR_frame {s : State} {got : List Byte} (hp : s.phase = .hufHdrR got) :
    Yields (HeaderStep got s) (exec .dcmpHuf s) := by
  rw [exec_hufHdrR hp]
  exact yields_transact fun a rest =>
    yields_rd (fun _ => headerStep_of_early rfl) (headerStep_of_early rfl) fun b =>
      (headerByte_frame got b (afterByte { s with answers := rest })).imp fun t ht =>
        ⟨ht.frame, ht.arena, ht.early, ht.freq⟩

/-- A byte before the fifth of an entry is gathered (R418). -/
theorem tableByte_gathers {got : List Byte} (h : got.length < 4) (left : Nat) (b : Byte) (s : State) :
    tableByte left got b s = issue (.hufTabR left (got ++ [b])) s := if_pos (Nat.succ_lt_succ h)

/-- The fifth byte of an entry that is not the last stores it, and the next entry is read (R418). -/
theorem tableByte_stores {left : Nat} {got : List Byte} (h : 4 ≤ got.length) (hl : 1 < left) (b : Byte) (s : State) :
    tableByte left got b s = issue (.hufTabR (left - 1) []) { s with freq := loadEntry (got ++ [b]) s.freq } :=
  (if_neg (not_lt.mpr (Nat.succ_le_succ h))).trans (if_neg (not_le.mpr hl))

/-- The fifth byte of the last entry stores it, and the table is read (R418, R420). -/
theorem tableByte_ends {left : Nat} {got : List Byte} (h : 4 ≤ got.length) (hl : left ≤ 1) (b : Byte) (s : State) :
    tableByte left got b s = tableRead { s with freq := loadEntry (got ++ [b]) s.freq } :=
  (if_neg (not_lt.mpr (Nat.succ_le_succ h))).trans (if_pos hl)

theorem tableRead_frame (s : State) : Yields (hideRebuilt · = hideRebuilt s) (tableRead s) := by
  unfold tableRead
  split
  · rfl
  · split
    · trivial
    · rfl

/-- The fifth byte of an entry stores it in `FREQ`; before the last entry nothing else is written, and the next is read. -/
theorem tableByte_fifth {got : List Byte} (h : 4 ≤ got.length) (left : Nat) (b : Byte) (s : State) :
    Yields (fun t => hideRebuilt t = hideRebuilt { s with freq := loadEntry (got ++ [b]) s.freq } ∧
      (1 < left → t.arena = s.arena ∧ t.phase = .hufTabR (left - 1) [])) (tableByte left got b s) := by
  rcases lt_or_ge 1 left with hl | hl
  · rw [tableByte_stores h hl]
    exact ⟨rfl, fun _ => ⟨rfl, rfl⟩⟩
  · rw [tableByte_ends h hl]
    exact (tableRead_frame _).imp fun t ht => ⟨ht, fun hl' => absurd hl' (not_lt.mpr hl)⟩

/-- What a transaction of the table read with `left` entries to come and the bytes `got` of the current one may do: `FREQ`
waits for the fifth byte of the entry, the tree for that of the last entry. -/
structure TableStep (left : Nat) (got : List Byte) (s t : State) : Prop where
  frame : hideHufDec t = hideHufDec s
  counts : t.origSize = s.origSize ∧ t.n = s.n ∧ t.nsym = s.nsym ∧ t.nsRaw = s.nsRaw
  freq : got.length < 4 → t.freq = s.freq
  arena : got.length < 4 ∨ 1 < left → t.arena = s.arena

theorem tableStep_of_bare {left : Nat} {got : List Byte} {s t : State} (h : hideRleDec t = hideRleDec s) :
    TableStep left got s t :=
  ⟨(congrArg hideHufDec h :),
    ⟨(congrArg State.origSize h :), (congrArg State.n h :), (congrArg State.nsym h :), (congrArg State.nsRaw h :)⟩,
    fun _ => (congrArg State.freq h :), fun _ => (congrArg State.arena h :)⟩

theorem tableByte_frame (left : Nat) (got : List Byte) (b : Byte) (s : State) :
    Yields (TableStep left got s) (tableByte left got b s) := by
  rcases lt_or_ge got.length 4 with h | h
  · rw [tableByte_gathers h]
    exact tableStep_of_bare rfl
  · refine (tableByte_fifth h left b s).imp ?_
    rintro t ⟨ht, hnext⟩
    exact ⟨(congrArg hideHufDec ht :),
      ⟨(congrArg State.origSize ht :), (congrArg State.n ht :), (congrArg State.nsym ht :), (congrArg State.nsRaw ht :)⟩,
      fun hlt => absurd hlt (not_lt.mpr h), fun hk => (hnext (hk.resolve_left (not_lt.mpr h))).1⟩

theorem exec_tabR_frame {s : State} {left : Nat} {got : List Byte} (hp : s.phase = .hufTabR left got) :
    Yields (TableStep left got s) (exec .dcmpHuf s) := by
  rw [exec_hufTabR hp]
  exact yields_transact fun a rest =>
    yields_rd (fun _ => tableStep_of_bare rfl) (tableStep_of_bare rfl) fun b =>
      (tableByte_frame left got b (afterByte { s with answers := rest })).imp fun t ht =>
        ⟨ht.frame, ht.counts, ht.freq, ht.arena⟩

/-- A table byte that the host delivers is handed to `ReadTable`. -/
theorem exec_tabR_byte {s s1 : State} {left : Nat} {got : List Byte} {b : Byte} (hp : s.phase = .hufTabR left got)
    (ha : takeAnswer s = some (.ok, s1)) (hb : s.input[s.inPos]? = some b) :
    exec .dcmpHuf s = tableByte left got b (afterByte s1) := by
  rw [exec_hufTabR hp, transact_some ha]
  exact rd_byte rfl (by rw [takeAnswer_state ha]; exact hb)

theorem walkBits_frame (byte : Byte) (k : Nat) (s : State) :
    Yields (hideWalked · = hideWalked s) (walkBits byte k s) := by
  induction k generalizing s with
  | zero => rfl
  | succ k ih =>
    unfold walkBits
    split
    · rfl
    · rename_i x _
      split
      · rfl
      · exact ih { s with cur := some x }

theorem bodyWritten_frame (byte : Byte) (left : Nat) (s : State) :
    Yields (hideWalked · = hideWalked s) (bodyWritten byte left s) := by
  unfold bodyWritten
  split
  · rfl
  · exact walkBits_frame byte left { s with decoded := s.decoded + 1, cur := s.arena.root }

theorem bodyStep_frame (p : BodyAt) (a : Answer) (s : State) :
    Yields (hideWalked · = hideWalked s) (bodyStep p a s) := by
  cases p with
  | read => exact yields_rd (fun _ => rfl) rfl fun byte => walkBits_frame byte 8 (afterByte s)
  | emit byte left => exact yields_wr (fun _ => rfl) (bodyWritten_frame byte left (afterWrite (curSym s) s))

theorem exec_body_frame {s : State} {p : BodyAt} (hp : s.phase = .hufBody p) :
    Yields (hideWalked · = hideWalked s) (exec .dcmpHuf s) := by
  rw [exec_hufBody hp]
  exact yields_transact fun a rest => bodyStep_frame p a { s with answers := rest }

theorem exec_dcmpHuf_idle {s t : State} (hp : s.phase = .idle) (h : exec .dcmpHuf s = .next t) :
    t = { s with phase := .hufHdrR [] } := by
  simpa using exec_idle_cases hp h

theorem exec_dcmpHuf_frame {s t : State} (h : exec .dcmpHuf s = .next t) : hideHufDec t = hideHufDec s := by
  rcases exec_next_phase h with h0 | hi
  · rw [exec_dcmpHuf_idle h0 h]; rfl
  · refine running_cases hi nofun nofun nofun nofun nofun nofun nofun nofun ?_ ?_ ?_
    · intro got _ hp; exact ((exec_hdrR_frame hp).of_next h).frame
    · intro left got _ hp; exact ((exec_tabR_frame hp).of_next h).frame
    · intro p _ hp; exact (congrArg hideHufDec ((exec_body_frame hp).of_next h) :)

/-! ### The two frames -/

theorem exec_cmpHuf_frame {s t : State} (h : exec .cmpHuf s = .next t) : hideHufEnc t = hideHufEnc s := by
  rcases exec_next_phase h with h0 | hi
  · rw [exec_cmpHuf_idle h0 h]; rfl
  · by_cases hp : s.phase = .hufPass1
    · rcases exec_pass1_cases hp h with ⟨-, ht⟩ | ⟨-, ht⟩ | ⟨b, -, -, ht, -⟩ <;>
        exact (congrArg hideHufEnc ht :)
    · exact (congrArg hideHufEnc ((exec_afterPass1_frame hi hp).of_next h) :)

/-- The start of `CMP.HUF` and the bytes of pass 1 write `FREQ` and `TOTAL` alone. -/
theorem exec_counting_frame {s t : State} (hp : s.phase = .idle ∨ (s.phase = .hufPass1 ∧ s.inPos < s.input.length))
    (h : exec .cmpHuf s = .next t) : hideCounted t = hideCounted s := by
  rcases hp with hp | ⟨hp, hlt⟩
  · rw [exec_cmpHuf_idle hp h]; rfl
  · rcases exec_pass1_cases hp h with ⟨-, ht⟩ | ⟨hend, -⟩ | ⟨b, -, -, ht, -⟩
    · exact (congrArg hideCounted ht :)
    · exact absurd hlt (not_lt.mpr hend)
    · exact ht

/-- The end of pass 1 keeps `FREQ` and `TOTAL`. -/
theorem exec_pass1End_frame {s t : State} (hp : s.phase = .hufPass1) (hend : s.input.length ≤ s.inPos)
    (h : exec .cmpHuf s = .next t) : hideCoded t = hideCoded s := by
  rcases exec_pass1_cases hp h with ⟨-, ht⟩ | ⟨-, ht⟩ | ⟨b, hlt, -⟩
  · exact (congrArg hideCoded ht :)
  · exact ht
  · exact absurd hlt (not_lt.mpr hend)

/-- Settles O25: each phase has its frame, and the table read gathers the bytes of an entry and stores it with the fifth. -/
theorem huffmanCommandsFrame : Obligations.HuffmanCommandsFrame := by
  intro s t
  constructor
  · intro h
    refine ⟨exec_cmpHuf_frame h, fun h0 hp => ?_, fun hp => ?_, fun hp hend => ?_, fun hp => exec_input_kept hp h⟩
    · have ht := (exec_afterPass1_frame ((exec_next_phase h).resolve_left h0) hp).of_next h
      exact ⟨(congrArg State.freq ht :), (congrArg State.arena ht :), (congrArg State.code ht :),
        (congrArg State.total ht :), (congrArg State.origSize ht :), (congrArg State.n ht :), (congrArg State.nsym ht :)⟩
    · have ht := exec_counting_frame hp h
      exact ⟨(congrArg State.arena ht :), (congrArg State.code ht :), (congrArg State.origSize ht :),
        (congrArg State.n ht :), (congrArg State.nsym ht :)⟩
    · have ht := exec_pass1End_frame hp hend h
      exact ⟨(congrArg State.freq ht :), (congrArg State.total ht :)⟩
  · intro h
    refine ⟨exec_dcmpHuf_frame h, ?_, fun hp => ?_, fun got hp => ?_, fun left got hp => ?_, fun p hp => ?_, ?_, ?_⟩
    · refine exec_input_kept (fun hp => ?_) h
      rcases exec_next_phase h with h' | h' <;> rw [hp] at h' <;> cases h'
    · rw [exec_dcmpHuf_idle hp h]; exact ⟨rfl, rfl⟩
    · obtain ⟨-, harena, hearly, hfreq⟩ := (exec_hdrR_frame hp).of_next h
      refine ⟨harena, fun hl => ?_, hfreq⟩
      have ht := hearly hl
      exact ⟨(congrArg State.freq ht :), (congrArg State.origSize ht :), (congrArg State.n ht :),
        (congrArg State.nsym ht :)⟩
    · obtain ⟨-, ⟨hsize, hn, hnsym, hraw⟩, hfreq, harena⟩ := (exec_tabR_frame hp).of_next h
      exact ⟨hsize, hn, hnsym, hraw, hfreq, harena⟩
    · have ht := (exec_body_frame hp).of_next h
      exact ⟨(congrArg State.freq ht :), (congrArg State.arena ht :), (congrArg State.origSize ht :),
        (congrArg State.n ht :), (congrArg State.nsym ht :), (congrArg State.nsRaw ht :)⟩
    · intro s1 left got b hp hl ha hb
      rw [exec_tabR_byte hp ha hb, tableByte_gathers hl] at h
      cases h; rfl
    · intro s1 left sym f0 f1 f2 f3 hp ha hb
      rw [exec_tabR_byte hp ha hb] at h
      obtain ⟨ht, hnext⟩ := (tableByte_fifth (got := [sym, f0, f1, f2]) (Nat.le_refl 4) left f3 (afterByte s1)).of_next h
      have hfreq : t.freq = entryPut s.freq sym (assembleLe 32 [f0, f1, f2, f3]) := by
        rw [takeAnswer_state ha] at ht
        exact (congrArg State.freq ht :)
      refine ⟨?_, fun c hc => ?_, fun hl => (hnext hl).2⟩
      · rw [hfreq, entryAt_entryPut, if_pos rfl]
        exact assembleLe_toNat _ (Nat.le_refl 32)
      · rw [hfreq, entryAt_entryPut, if_neg hc]

/-! ## The sum of the frequencies (R305) -/

theorem freqSum_clear : freqSum (Vector.replicate 256 0) = 0 := by
  rw [freqSum, Vector.toList_replicate, List.map_replicate, List.sum_replicate]
  rfl

theorem entryPut_entryAt {α : Type} (v : Vector α 256) (b : Byte) : entryPut v b (entryAt v b) = v :=
  Vector.set_getElem_self b.isLt

/-- The sum is that of the entries below `b`, of entry `b`, and of the entries above it. -/
theorem freqSum_entryPut (freq : Vector Word 256) (b : Byte) (v : Word) :
    freqSum (entryPut freq b v) = ((freq.toList.map BitVec.toNat).take b.toNat).sum + v.toNat +
      ((freq.toList.map BitVec.toNat).drop (b.toNat + 1)).sum := by
  have hb : b.toNat < (freq.toList.map BitVec.toNat).length := by simp [b.isLt]
  rw [freqSum, entryPut, Vector.toList_set, List.map_set, List.sum_set, if_pos hb]

/-- A count that does not wrap adds 1 to the sum. -/
theorem freqSum_count {freq : Vector Word 256} {b : Byte} (h : entryAt freq b ≠ 0xFFFFFFFF#32) :
    freqSum (entryPut freq b (entryAt freq b + 1)) = freqSum freq + 1 := by
  have hself := freqSum_entryPut freq b (entryAt freq b)
  rw [entryPut_entryAt] at hself
  rw [freqSum_entryPut, word_add_one_toNat h, hself]
  omega

/-- The sum of 256 counts fits `TOTAL`. -/
theorem freqSum_le (freq : Vector Word 256) : freqSum freq ≤ 256 * (2 ^ 32 - 1) := by
  have hle : ∀ x ∈ freq.toList.map BitVec.toNat, x ≤ 2 ^ 32 - 1 := by
    intro x hx
    obtain ⟨v, -, rfl⟩ := List.mem_map.mp hx
    exact Nat.le_sub_one_of_lt v.isLt
  simpa [freqSum] using List.sum_le_card_nsmul _ _ hle

/-- Outside `CMP.HUF` the invariant says nothing. -/
theorem freqInv_of_not_cmpHuf {s : State} (h : phaseCommand s.phase ≠ some .cmpHuf) : FreqInv s :=
  fun hp => absurd hp h

theorem freqInv_of_idle {s : State} (h : s.phase = .idle) : FreqInv s :=
  freqInv_of_not_cmpHuf (by rw [h]; exact nofun)

/-- The invariant speaks of `PHASE`, `FREQ` and `TOTAL` alone. -/
theorem FreqInv.congr {s t : State} (h : FreqInv s) (hp : t.phase = s.phase) (hf : t.freq = s.freq)
    (ht : t.total = s.total) : FreqInv t := by
  unfold FreqInv
  rw [hp, hf, ht]
  exact h

theorem exec_cmpHuf_freqInv {s t : State} (hi : phaseCommand s.phase = some .cmpHuf) (h : FreqInv s)
    (he : exec .cmpHuf s = .next t) : FreqInv t := by
  have hsum := h hi
  have hkept : t.freq = s.freq → t.total = s.total → FreqInv t := fun hf ht _ => by rw [hf, ht, hsum]
  by_cases hp : s.phase = .hufPass1
  · rcases exec_pass1_cases hp he with ⟨ht, -⟩ | ⟨-, ht⟩ | ⟨b, -, hmax, -, hf, htot⟩
    · exact freqInv_of_idle ht
    · exact hkept (congrArg State.freq ht :) (congrArg State.total ht :)
    · intro _
      have hcount := freqSum_count hmax
      have hle := freqSum_le (entryPut s.freq b (entryAt s.freq b + 1))
      rw [hf, htot, hcount, hsum, BitVec.toNat_add_of_lt (by simp; omega)]
      rfl
  · have ht := (exec_afterPass1_frame hi hp).of_next he
    exact hkept (congrArg State.freq ht :) (congrArg State.total ht :)

theorem exec_running_freqInv {i : Instr} {s t : State} (hi : phaseCommand s.phase = some i) (h : FreqInv s)
    (he : exec i s = .next t) : FreqInv t := by
  by_cases hc : i = .cmpHuf
  · subst hc
    exact exec_cmpHuf_freqInv hi h he
  · rcases exec_continues hi he with ⟨ht, -⟩ | ⟨ht, -⟩
    · exact freqInv_of_not_cmpHuf (by rw [ht]; exact fun h => hc (Option.some.inj h))
    · exact freqInv_of_idle ht

theorem exec_idle_freqInv {i : Instr} {s t : State} (hp : s.phase = .idle) (he : exec i s = .next t) : FreqInv t := by
  rcases exec_idle_cases hp he with ⟨-, rfl⟩ | ⟨-, rfl⟩ | ⟨-, rfl⟩ | ⟨-, rfl⟩ | ⟨w, -, rfl⟩
  · exact freqInv_of_not_cmpHuf nofun
  · exact freqInv_of_not_cmpHuf nofun
  · exact fun _ => freqSum_clear
  · exact freqInv_of_not_cmpHuf nofun
  · exact freqInv_of_idle rfl

theorem runHostOp_freqInv {op : HostOp} {s t : State} (hs : StatusInv s) (h : FreqInv s)
    (he : runHostOp op s = .next t) : FreqInv t := by
  rcases runHostOp_cases he with ⟨o, rfl⟩ | rfl | rfl | ⟨v, hb, hx⟩ |
    ⟨-, ⟨bytes, rfl⟩ | ⟨bytes, rfl⟩ | rfl | rfl⟩ | ⟨pos, kept, -, rfl⟩
  · exact h.congr rfl rfl rfl
  · exact h
  · exact h.congr rfl rfl rfl
  · exact exec_idle_freqInv (s := startCommand v s) (hs.idle hb) hx
  · exact h.congr rfl rfl rfl
  · exact h.congr rfl rfl rfl
  · exact h.congr rfl rfl rfl
  · exact h.congr rfl rfl rfl
  · exact freqInv_of_idle rfl

/-- Settles O36: a step is a transaction of the running command, the host's operation, or nothing; a counted byte adds 1 to the
sum and to `TOTAL`, and `CMP.HUF` starts with both at 0. -/
theorem stepKeepsFrequencySum : Obligations.StepKeepsFrequencySum := by
  intro s t hs h he
  rcases step_cases he with ⟨i, hi, hx⟩ | rfl | ⟨op, rest, -, hx⟩
  · exact exec_running_freqInv (s := { s with turns := s.turns.tail }) hi (h.congr rfl rfl rfl) hx
  · exact h.congr rfl rfl rfl
  · exact runHostOp_freqInv (s := { s with program := rest, turns := s.turns.tail }) (hs.congr rfl rfl)
      (h.congr rfl rfl rfl) hx

end Sys2Proof.Machine

/-! The statements of 44_tree_builder.md: what `BuildTree` allocates, the shape of its tree and the order of its leaves. -/

namespace Sys2Proof.Machine

/-! ## What `BuildTree` leaves (R335, R336, R338) -/

theorem buildTree_builtTree {freq : Vector Word 256} {a b : Arena} (h : buildTree freq a = some b) : BuiltTree freq b := by
  obtain ⟨c, hc, hbuilt⟩ := buildTree_spec freq a
  obtain rfl : b = c := Option.some.inj (h.symm.trans hc)
  exact hbuilt

/-- Settles O40: `BuildTree` succeeds, and each of the three forms of what it leaves has its node count. -/
theorem buildTreeNodeCount : Obligations.BuildTreeNodeCount := by
  intro freq a
  obtain ⟨b, hb, hbuilt⟩ := buildTree_spec freq a
  have hle := presentSymbols_length_le freq
  refine ⟨b, hb, ?_⟩
  rw [distinctCount_eq]
  rcases hbuilt with ⟨hs, hn, hr⟩ | ⟨s, hs, hn, -⟩ | ⟨t, hs, -, -, -, hn, -⟩
  · simp [hs, hn, hr]
  · simp [hs, hn]
  · omega

/-- A symbol of nonzero frequency, with no other such symbol, is the only one present. -/
theorem presentSymbols_eq_singleton {freq : Vector Word 256} {s : Byte} (hs : entryAt freq s ≠ 0)
    (hother : ∀ c, c ≠ s → entryAt freq c = 0) : presentSymbols freq = [s] := by
  refine List.perm_singleton.mp ((List.perm_ext_iff_of_nodup (presentSymbols_nodup freq) (List.nodup_singleton s)).mpr
    fun c => ?_)
  rw [mem_presentSymbols, List.mem_singleton]
  exact ⟨fun hc => by_contra fun hne => hc (hother c hne), fun hc => hc ▸ hs⟩

/-- The code of the symbol below a synthetic root is the path to the left (R335). -/
theorem genCodes_only {freq : Vector Word 256} {a : Arena} {s : Byte} (hr : a.root = some 1)
    (ht : Stands freq a.node (.only 1 (.leaf 0 s))) : codeBits (entryAt (genCodes a) s) = [false] := by
  obtain ⟨hcode, -⟩ := genCodes_tree ht hr (by decide : 1 < 512) (List.nodup_singleton s)
  rw [hcode (s, [false]) (List.mem_singleton_self _)]
  exact (codeOf_spec [false] (by decide)).2

/-- Settles O41: of the three forms of what `BuildTree` leaves, one symbol has the synthetic root. -/
theorem singleSymbolTree : Obligations.SingleSymbolTree := by
  intro freq a s hs hother
  obtain ⟨b, hb, hbuilt⟩ := buildTree_spec freq a
  have hpresent := presentSymbols_eq_singleton hs hother
  rw [BuiltTree, hpresent] at hbuilt
  rcases hbuilt with ⟨hnil, -⟩ | ⟨c, hc, -, hr, ht⟩ | ⟨t, hlen, -⟩
  · cases hnil
  · cases hc
    have ⟨hroot, _, hleaf, _⟩ := ht
    have hfreq : (b.node[(0 : NodeId)]).freq = (entryAt freq s).setWidth 64 := by rw [hleaf]
    exact ⟨b, hb, hr, hleaf, hfreq ▸ hroot, genCodes_only hr ht⟩
  · exact absurd hlen (by simp)

/-- Settles O43: `BuildTree` builds agreeing arenas, and the code table is read off the allocated nodes. -/
theorem buildTreeDependsOnFrequenciesOnly : Obligations.BuildTreeDependsOnFrequenciesOnly := by
  intro freq a b a' b' ha hb
  obtain ⟨c, hc, hagree⟩ := buildTree_agree b ha
  obtain rfl : b' = c := Option.some.inj (hb.symm.trans hc)
  exact ⟨⟨hagree.nnodes.symm, hagree.root.symm, fun h hh => (hagree.node h hh).symm⟩, hagree.genCodes_eq.symm⟩

end Sys2Proof.Machine

namespace Sys2Proof.Machine

/-! ## What the operations of a merge can do (R253, R254, R331, R337) -/

theorem heapInsert_inv {a b : Arena} {x : NodeId} (h : heapInsert x a = some b) :
    a.hsize < 256 ∧ b.node = a.node ∧ b.nnodes = a.nnodes := by
  have hs : a.hsize < 256 := by
    by_contra hs
    simp [heapInsert, Config.heapCap, hs] at h
  obtain ⟨c, hc, -, -, hnode, hnnodes, -⟩ := heapInsert_spec x hs
  obtain rfl : b = c := Option.some.inj (h.symm.trans hc)
  exact ⟨hs, hnode, hnnodes⟩

theorem heapExtractMin_inv {a b : Arena} {x : NodeId} (hs : a.hsize ≤ 256) (h : heapExtractMin a = some (x, b)) :
    x = heapAt a 0 ∧ b.hsize + 1 = a.hsize ∧ (heapEntries a).Perm (x :: heapEntries b) ∧ b.node = a.node ∧
      b.nnodes = a.nnodes := by
  have h0 : 0 < a.hsize := by
    by_contra hn
    simp [heapExtractMin, hn] at h
  obtain ⟨c, hc, hsize, hperm, hnode, hnnodes, -⟩ := heapExtractMin_spec h0 hs
  cases h.symm.trans hc
  exact ⟨rfl, hsize, hperm, hnode, hnnodes⟩

/-- A merge is two extracts, a new node over their handles, and its insert (R337). -/
theorem mergeOnce_eq_some {a b : Arena} :
    mergeOnce a = some b ↔ ∃ x a1 y a2 z a3, heapExtractMin a = some (x, a1) ∧ heapExtractMin a1 = some (y, a2) ∧
      nodeAlloc (mergedNode a2 x y) a2 = some (z, a3) ∧ heapInsert z a3 = some b := by
  constructor
  · intro h
    unfold mergeOnce at h
    split at h
    · cases h
    · rename_i x a1 h1
      split at h
      · cases h
      · rename_i y a2 h2
        split at h
        · cases h
        · rename_i z a3 h3
          exact ⟨x, a1, y, a2, z, a3, h1, h2, h3, h⟩
  · rintro ⟨x, a1, y, a2, z, a3, h1, h2, h3, h4⟩
    simp only [mergeOnce, h1, h2, h3, h4]

/-- In an arena with room for a node, a merge is the insert of the next handle, whatever the keys extracted. -/
theorem mergeOnce_of_extracts {a a1 a2 : Arena} {x y : NodeId} (h : a.nnodes < 511) (hs : a.hsize ≤ 256)
    (h1 : heapExtractMin a = some (x, a1)) (h2 : heapExtractMin a1 = some (y, a2)) :
    ∃ b, mergeOnce a = some b ∧
      heapInsert ⟨a.nnodes, h⟩
        { a2 with
          node := a.node.set a.nnodes ⟨.internal, 0, nodeKey a x + nodeKey a y, some x, some y⟩ h
          nnodes := a.nnodes + 1 } = some b := by
  obtain ⟨-, size1, -, node1, nnodes1⟩ := heapExtractMin_inv hs h1
  obtain ⟨-, size2, -, node2, nnodes2⟩ := heapExtractMin_inv (by omega) h2
  have hnode : a2.node = a.node := node2.trans node1
  have hnnodes : a2.nnodes = a.nnodes := nnodes2.trans nnodes1
  obtain ⟨b, hb, -⟩ := heapInsert_spec (a := { a2 with
    node := a.node.set a.nnodes ⟨.internal, 0, nodeKey a x + nodeKey a y, some x, some y⟩ h
    nnodes := a.nnodes + 1 }) ⟨a.nnodes, h⟩ (by simp only; omega)
  refine ⟨b, mergeOnce_eq_some.mpr ⟨x, a1, y, a2, ⟨a.nnodes, h⟩, _, h1, h2, nodeAlloc_eq_some.mpr ⟨hnnodes.symm, rfl⟩, ?_⟩, hb⟩
  simpa only [mergedNode, nodeKey, hnode, hnnodes] using hb

/-! ## The arena while the tree is built (R332, R337) -/

/-- The leaf of a symbol (R333). -/
def leafNode (freq : Vector Word 256) (s : Byte) : Node := ⟨.leaf, s, (entryAt freq s).setWidth 64, none, none⟩

/-- The node merges two nodes allocated before it, the one of lesser frequency on the left (R337). -/
def LesserLeft (node : Vector Node 511) (x : NodeId) : Prop :=
  ∃ y z : NodeId, node[x] = ⟨.internal, 0, (node[y]).freq + (node[z]).freq, some y, some z⟩ ∧ y.val < x.val ∧
    z.val < x.val ∧ (node[y]).freq.toNat ≤ (node[z]).freq.toNat

/-- The arena holds the leaves of `syms`, in their order, then merges; its heap is in order and holds allocated nodes. An arena
that agrees with itself is one that leads to allocated nodes only. -/
structure Growing (freq : Vector Word 256) (syms : List Byte) (a : Arena) : Prop where
  live : AgreeLive a a
  ordered : HeapOrdered a
  leavesFirst : syms.length ≤ a.nnodes
  leaf : ∀ (x : NodeId) (h : x.val < syms.length), a.node[x] = leafNode freq syms[x.val]
  merged : ∀ x : NodeId, syms.length ≤ x.val → x.val < a.nnodes → LesserLeft a.node x

/-- A merge stays one when the nodes up to it are kept. -/
theorem LesserLeft.mono {node node' : Vector Node 511} {k : Nat} (hn : ∀ x : NodeId, x.val < k → node'[x] = node[x])
    {x : NodeId} (hx : x.val < k) (h : LesserLeft node x) : LesserLeft node' x := by
  obtain ⟨y, z, hxyz, hy, hz, hle⟩ := h
  refine ⟨y, z, ?_, hy, hz, ?_⟩
  · rw [hn x hx, hn y (hy.trans hx), hn z (hz.trans hx), hxyz]
  · rw [hn y (hy.trans hx), hn z (hz.trans hx)]; exact hle

/-- An operation that keeps the agreement of any two arenas keeps an arena's agreement with itself. -/
theorem AgreeLive.of_result {o : Option Arena} {b : Arena} (h : o = some b) (hk : ∃ c, o = some c ∧ AgreeLive b c) :
    AgreeLive b b := by
  obtain ⟨c, hc, hagree⟩ := hk
  obtain rfl : b = c := Option.some.inj (h.symm.trans hc)
  exact hagree

/-- The heap property speaks of the keys at the valid indices alone. -/
theorem HeapOrdered.congr {a b : Arena} (h : HeapOrdered a) (hs : b.hsize = a.hsize)
    (hk : ∀ i, i < a.hsize → heapKey b i = heapKey a i) : HeapOrdered b := by
  intro i h0 hi
  rw [hs] at hi
  rw [hk i hi, hk _ ((heapParent_lt h0).trans hi)]
  exact h i h0 hi

/-- A new node over allocated ones, inserted: what `NodeAlloc` and `HeapInsert` keep of the arena. -/
theorem allocInsert_inv {a b c : Arena} {n : Node} {x : NodeId} (hl : AgreeLive a a) (ho : HeapOrdered a)
    (hn : Below a.nnodes n.left ∧ Below a.nnodes n.right) (hb : nodeAlloc n a = some (x, b))
    (hc : heapInsert x b = some c) :
    x.val = a.nnodes ∧ c.nnodes = a.nnodes + 1 ∧ c.node[x] = n ∧
      (∀ y : NodeId, y.val < a.nnodes → c.node[y] = a.node[y]) ∧ AgreeLive c c ∧ HeapOrdered c := by
  obtain ⟨b', hb', hlb, hxb⟩ := nodeAlloc_agree hl hn hb
  cases hb.symm.trans hb'
  obtain ⟨hx, rfl⟩ := nodeAlloc_eq_some.mp hb
  obtain ⟨hs, hnode, hnnodes⟩ := heapInsert_inv hc
  have hkept : ∀ y : NodeId, y.val < a.nnodes → (a.node.set x.val n x.isLt)[y] = a.node[y] := fun y hy => by
    rw [getElem_set_node, if_neg (Fin.ne_of_val_ne (by omega))]
  refine ⟨hx, hnnodes, by rw [hnode, getElem_set_node, if_pos rfl], fun y hy => by rw [hnode]; exact hkept y hy,
    .of_result hc (heapInsert_agree hlb hxb hc), heapInsert_heapOrdered hs (ho.congr rfl fun i hi => ?_) hc⟩
  exact congrArg Node.freq (hkept _ (hl.heapBelow i hi))

section
variable {freq : Vector Word 256} {syms : List Byte} {a b : Arena}

/-- The new leaf comes after the leaves of the symbols before it. -/
theorem addLeaf_growing {s : Byte} (h : Growing freq syms a) (hn : a.nnodes = syms.length) (h0 : entryAt freq s ≠ 0)
    (hb : addLeaf freq s a = some b) : Growing freq (syms ++ [s]) b ∧ b.nnodes = (syms ++ [s]).length := by
  rw [addLeaf, if_neg h0] at hb
  split at hb
  · rename_i x c hc
    obtain ⟨hx, hnnodes, hnew, hold, hlive, hord⟩ :=
      allocInsert_inv h.live h.ordered ⟨below_none _, below_none _⟩ hc hb
    have hlen : b.nnodes = (syms ++ [s]).length := by rw [hnnodes, hn, List.length_append, List.length_singleton]
    refine ⟨⟨hlive, hord, hlen.ge, fun y hy => ?_, fun y hy hlt => by omega⟩, hlen⟩
    by_cases hys : y.val < syms.length
    · rw [hold y (hn ▸ hys), h.leaf y hys, List.getElem_append_left hys]
    · have hyx : y = x := Fin.ext (by omega)
      subst hyx
      rw [hnew, List.getElem_concat_length (by omega)]
      rfl
  · cases hb

theorem addLeaves_growing (ss : List Byte) (h : Growing freq syms a) (hn : a.nnodes = syms.length)
    (hb : addLeaves freq ss a = some b) : Growing freq (syms ++ ss.filter fun s => entryAt freq s ≠ 0) b := by
  induction ss generalizing syms a with
  | nil =>
    cases hb
    rwa [List.filter_nil, List.append_nil]
  | cons s rest ih =>
    rw [addLeaves] at hb
    split at hb
    · rename_i c hc
      by_cases h0 : entryAt freq s = 0
      · rw [addLeaf, if_pos h0] at hc
        cases hc
        rw [List.filter_cons_of_neg (by simpa using h0)]
        exact ih h hn hb
      · obtain ⟨hg, hlen⟩ := addLeaf_growing h hn h0 hc
        rw [List.filter_cons_of_pos (by simpa using h0), List.append_cons]
        exact ih hg hlen hb
    · cases hb

/-- An extract takes a handle of least key out of the heap and leaves the nodes. -/
theorem Growing.extract {x : NodeId} (h : Growing freq syms a) (hb : heapExtractMin a = some (x, b)) :
    Growing freq syms b ∧ b.node = a.node ∧ b.nnodes = a.nnodes ∧ x.val < a.nnodes ∧
      (heapEntries a).Perm (x :: heapEntries b) ∧
      ∀ y ∈ heapEntries a, (nodeKey a x).toNat ≤ (nodeKey a y).toNat := by
  obtain ⟨hx, -, hperm, hnode, hnnodes⟩ := heapExtractMin_inv h.live.room hb
  obtain ⟨b', hb', hlive, hlt, -⟩ := heapExtractMin_agree h.live hb
  cases hb.symm.trans hb'
  refine ⟨⟨hlive, heapExtractMin_heapOrdered h.live.room h.ordered hb, ?_, ?_, ?_⟩, hnode, hnnodes, hlt, hperm,
    fun y hy => ?_⟩
  · rw [hnnodes]; exact h.leavesFirst
  · rw [hnode]; exact h.leaf
  · rw [hnode, hnnodes]; exact h.merged
  · obtain ⟨i, hi, rfl⟩ := exists_index_of_mem_heapEntries h.live.room hy
    rw [hx]
    exact h.ordered.root_le i hi

/-- The first handle extracted has the lesser key, and it goes to the left. -/
theorem mergeOnce_growing (h : Growing freq syms a) (hb : mergeOnce a = some b) : Growing freq syms b := by
  obtain ⟨x, a1, y, a2, z, a3, h1, h2, h3, h4⟩ := mergeOnce_eq_some.mp hb
  obtain ⟨g1, node1, nnodes1, hx, perm1, least1⟩ := h.extract h1
  obtain ⟨g2, node2, nnodes2, hy, perm2, -⟩ := g1.extract h2
  have hx2 : x.val < a2.nnodes := by omega
  have hy2 : y.val < a2.nnodes := by omega
  have hle : (nodeKey a2 x).toNat ≤ (nodeKey a2 y).toNat := by
    rw [nodeKey, nodeKey, node2, node1]
    exact least1 y (perm1.symm.subset (.tail _ (perm2.symm.subset (.head _))))
  obtain ⟨hz, hnnodes, hnew, hold, hlive, hord⟩ :=
    allocInsert_inv g2.live g2.ordered (n := mergedNode a2 x y) ⟨below_some hx2, below_some hy2⟩ h3 h4
  have hfirst := g2.leavesFirst
  refine ⟨hlive, hord, by omega, fun u hu => ?_, fun u hu hlt => ?_⟩
  · rw [hold u (by omega), g2.leaf u hu]
  · by_cases hu2 : u.val < a2.nnodes
    · exact (g2.merged u hu hu2).mono hold hu2
    · obtain rfl : u = z := Fin.ext (by omega)
      refine ⟨x, y, ?_, by omega, by omega, ?_⟩
      · rw [hnew, hold x hx2, hold y hy2]; rfl
      · rw [hold x hx2, hold y hy2]; exact hle

theorem mergeAll_growing (fuel : Nat) (h : Growing freq syms a) (hb : mergeAll fuel a = some b) : Growing freq syms b := by
  induction fuel generalizing a with
  | zero => cases hb; exact h
  | succ fuel ih =>
    rw [mergeAll] at hb
    split at hb
    · split at hb
      · rename_i c hc
        exact ih (mergeOnce_growing h hc) hb
      · cases hb
    · cases hb; exact h

theorem takeRoot_growing (h : Growing freq syms a) (hb : takeRoot a = some b) : Growing freq syms b := by
  rw [takeRoot] at hb
  split at hb
  · rename_i x c hc
    obtain ⟨hg, -, hnnodes, hx, -⟩ := h.extract hc
    cases hb
    exact ⟨hg.live.withRoot (by omega), hg.ordered, hg.leavesFirst, hg.leaf, hg.merged⟩
  · cases hb

end

/-- With two or more symbols `BuildTree` leaves the leaves of the symbols present, in ascending order, then the merges. -/
theorem buildTree_growing {freq : Vector Word 256} {a b : Arena} (hn : 2 ≤ distinctCount freq)
    (hb : buildTree freq a = some b) : Growing freq (presentSymbols freq) b := by
  have hempty : Growing freq [] { heapInit a with nnodes := 0, root := none } :=
    ⟨emptied_agree a a, fun i _ hi => absurd hi (Nat.not_lt_zero i), le_rfl, nofun,
      fun x _ hx => absurd hx (Nat.not_lt_zero _)⟩
  unfold buildTree at hb
  split at hb
  · cases hb
  · rename_i a1 h1
    have g1 : Growing freq (presentSymbols freq) a1 := addLeaves_growing allSymbols hempty rfl h1
    have hfirst := g1.leavesFirst
    rw [distinctCount_eq] at hn
    rw [if_neg (by omega), if_neg (by omega)] at hb
    split at hb
    · rename_i a2 h2
      exact takeRoot_growing (mergeAll_growing _ g1 h2) hb
    · cases hb

/-! ## Sums and reachability, along the tree (R337, R339) -/

/-- The sum of the frequencies at a tree's leaves. -/
def HTree.weight (freq : Vector Word 256) (t : HTree) : Nat := (t.leaves.map fun s => (entryAt freq s).toNat).sum

theorem HTree.weight_le (freq : Vector Word 256) (t : HTree) : t.weight freq ≤ t.leaves.length * (2 ^ 32 - 1) := by
  have hle : ∀ x ∈ t.leaves.map fun s => (entryAt freq s).toNat, x ≤ 2 ^ 32 - 1 := by
    intro x hx
    obtain ⟨s, -, rfl⟩ := List.mem_map.mp hx
    exact Nat.le_sub_one_of_lt (entryAt freq s).isLt
  simpa [HTree.weight] using List.sum_le_card_nsmul _ _ hle

theorem HTree.weight_node (freq : Vector Word 256) (x : NodeId) (l r : HTree) :
    (HTree.node x l r).weight freq = l.weight freq + r.weight freq := by
  simp [weight, leaves]

section
variable {freq : Vector Word 256} {node : Vector Node 511} {t : HTree}

/-- The frequency at the root is the exact sum: 256 symbols of 32 bits fit 64 bits. -/
theorem Stands.freq_toNat (h : Stands freq node t) (hlen : t.leaves.length ≤ 256) :
    (node[t.rootId]).freq.toNat = t.weight freq := by
  induction t with
  | leaf x s =>
    obtain ⟨hx, -⟩ := h
    have hs := (entryAt freq s).isLt
    simp only [HTree.rootId, hx, HTree.weight, HTree.leaves, List.map_singleton, List.sum_singleton,
      BitVec.toNat_setWidth]
    omega
  | only x l ih =>
    obtain ⟨hx, -, hl⟩ := h
    show (node[x]).freq.toNat = l.weight freq
    rw [hx]
    exact ih hl hlen
  | node x l r ihl ihr =>
    obtain ⟨hx, -, -, hl, hr⟩ := h
    rw [HTree.leaves, List.length_append] at hlen
    have wl := HTree.weight_le freq l
    have wr := HTree.weight_le freq r
    rw [← ihl hl (by omega)] at wl
    rw [← ihr hr (by omega)] at wr
    show (node[x]).freq.toNat = _
    rw [hx, HTree.weight_node, ← ihl hl (by omega), ← ihr hr (by omega)]
    exact BitVec.toNat_add_of_lt (by omega)

/-- A node's frequency is the exact sum of its two children's. -/
theorem Stands.sum_exact (h : Stands freq node t) (hlen : t.leaves.length ≤ 256) {x y z : NodeId} (hx : x ∈ t.ids)
    (hy : (node[x]).left = some y) (hz : (node[x]).right = some z) :
    (node[x]).freq.toNat = (node[y]).freq.toNat + (node[z]).freq.toNat := by
  induction t with
  | leaf u s =>
    obtain rfl : x = u := List.mem_singleton.mp hx
    rw [h.1] at hy
    cases hy
  | only u l ih =>
    obtain ⟨hu, -, hl⟩ := h
    rcases List.mem_cons.mp hx with rfl | hx
    · rw [hu] at hz
      cases hz
    · exact ih hl hlen hx hy hz
  | node u l r ihl ihr =>
    have hroot := h.freq_toNat hlen
    obtain ⟨hu, -, -, hl, hr⟩ := h
    rw [HTree.leaves, List.length_append] at hlen
    rcases List.mem_cons.mp hx with rfl | hx
    · rw [hu] at hy hz
      cases hy
      cases hz
      rw [hl.freq_toNat (by omega), hr.freq_toNat (by omega), ← HTree.weight_node]
      exact hroot
    · rcases List.mem_append.mp hx with hx | hx
      · exact ihl hl (by omega) hx hy hz
      · exact ihr hr (by omega) hx hy hz

/-- Every node of a standing tree is reached from its root. -/
theorem Stands.reached (h : Stands freq node t) {x : NodeId} (hx : x ∈ t.ids) : Reached node (some t.rootId) x := by
  induction t with
  | leaf u s =>
    obtain rfl : x = u := List.mem_singleton.mp hx
    exact .here x
  | only u l ih =>
    obtain ⟨hu, -, hl⟩ := h
    rcases List.mem_cons.mp hx with rfl | hx
    · exact .here x
    · exact .left u x (by rw [hu]; exact ih hl hx)
  | node u l r ihl ihr =>
    obtain ⟨hu, -, -, hl, hr⟩ := h
    rcases List.mem_cons.mp hx with rfl | hx
    · exact .here x
    · rcases List.mem_append.mp hx with hx | hx
      · exact .left u x (by rw [hu]; exact ihl hl hx)
      · exact .right u x (by rw [hu]; exact ihr hr hx)

end

/-- With two or more symbols every allocated node stands in one tree below `ROOT` (R339). -/
theorem buildTree_stands {freq : Vector Word 256} {a b : Arena} (hn : 2 ≤ distinctCount freq)
    (hb : buildTree freq a = some b) :
    ∃ t : HTree, Stands freq b.node t ∧ b.root = some t.rootId ∧ t.leaves.length ≤ 256 ∧
      ∀ x : NodeId, x.val < b.nnodes → x ∈ t.ids := by
  have hle := presentSymbols_length_le freq
  rw [distinctCount_eq] at hn
  rcases buildTree_builtTree hb with ⟨hs, -⟩ | ⟨s, hs, -⟩ | ⟨t, -, -, ht, hr, -, hleaves, hids⟩
  · simp [hs] at hn
  · simp [hs] at hn
  · refine ⟨t, ht, hr, hleaves.length_eq ▸ hle, fun x hx => ?_⟩
    obtain ⟨y, hy, hyx⟩ := List.mem_map.mp (hids.symm.subset (List.mem_range.mpr hx))
    exact Fin.ext hyx ▸ hy

/-! ## The leaves in symbol order (R332) -/

theorem presentSymbols_ascending (freq : Vector Word 256) :
    (presentSymbols freq).Pairwise fun s c => s.toNat < c.toNat := by
  refine List.Pairwise.filter _ (List.pairwise_map.mpr (List.pairwise_lt_range.imp_of_mem fun {i j} hi hj hlt => ?_))
  rw [List.mem_range] at hi hj
  simp only [BitVec.toNat_ofNat]
  omega

section
variable {freq : Vector Word 256} {a : Arena}

/-- The leaves are the handles before the merges. -/
theorem Growing.kind_leaf_iff {syms : List Byte} (h : Growing freq syms a) {x : NodeId} (hx : x.val < a.nnodes) :
    (a.node[x]).kind = .leaf ↔ x.val < syms.length := by
  constructor
  · intro hk
    by_contra hge
    obtain ⟨y, z, hxyz, -⟩ := h.merged x (Nat.le_of_not_lt hge) hx
    rw [hxyz] at hk
    cases hk
  · intro hlt
    rw [h.leaf x hlt]
    rfl

/-- A symbol of nonzero frequency has one leaf, at its place among the symbols present. -/
theorem Growing.existsUnique_leaf (h : Growing freq (presentSymbols freq) a) {s : Byte} (hs : entryAt freq s ≠ 0) :
    ∃! x : NodeId, x.val < a.nnodes ∧ (a.node[x]).kind = .leaf ∧ (a.node[x]).sym = s := by
  obtain ⟨i, hi, his⟩ := List.mem_iff_getElem.mp (mem_presentSymbols.mpr hs)
  have hle := presentSymbols_length_le freq
  have hleaf := h.leaf ⟨i, by omega⟩ hi
  refine ⟨⟨i, by omega⟩, ⟨hi.trans_le h.leavesFirst, ?_, ?_⟩, fun y ⟨hy, hk, hsym⟩ => ?_⟩
  · rw [hleaf]; rfl
  · rw [hleaf]; exact his
  · have hlt := (h.kind_leaf_iff hy).mp hk
    rw [h.leaf y hlt] at hsym
    exact Fin.ext ((presentSymbols_nodup freq).getElem_inj_iff.mp (hsym.trans his.symm))

end

/-- Settles O42: the arena holds the leaves in order, then the merges, the lesser child on the left; that the sums are exact
and every node is reached is read off the tree. -/
theorem treeShape : Obligations.TreeShape := by
  refine ⟨fun freq a b hn hb => ?_, fun a a1 a2 x y h hs h1 h2 => mergeOnce_of_extracts h hs h1 h2⟩
  have hg := buildTree_growing hn hb
  obtain ⟨t, ht, hroot, hlen, hids⟩ := buildTree_stands hn hb
  rw [distinctCount_eq]
  refine ⟨fun x hx hk => ?_, fun x hx hk => ?_, fun x hx => hg.kind_leaf_iff hx, fun x y hxy hy => ?_,
    fun s hs => hg.existsUnique_leaf hs, fun x hx => hroot ▸ ht.reached (hids x hx)⟩
  · have hge : (presentSymbols freq).length ≤ x.val := by
      by_contra hlt
      rw [(hg.kind_leaf_iff hx).mpr (Nat.lt_of_not_le hlt)] at hk
      cases hk
    obtain ⟨y, z, hxyz, hy, hz, hle⟩ := hg.merged x hge hx
    have hl : (b.node[x]).left = some y := by rw [hxyz]
    have hr : (b.node[x]).right = some z := by rw [hxyz]
    exact ⟨y, z, hl, hr, hy, hz, ht.sum_exact hlen (hids x hx) hl hr, hle⟩
  · have hlt := (hg.kind_leaf_iff hx).mp hk
    rw [hg.leaf x hlt]
    exact ⟨rfl, rfl, mem_presentSymbols.mp (List.getElem_mem hlt), rfl⟩
  · rw [hg.leaf x (hxy.trans hy), hg.leaf y hy]
    exact List.pairwise_iff_getElem.mp (presentSymbols_ascending freq) _ _ _ _ hxy

end Sys2Proof.Machine

/-! The statements of 45_code_table.md: who has a code, how long it is, prefix-freedom and Kraft's sum. -/

namespace Sys2Proof.Machine

/-! ## The code table as the paths of a tree (R380, R383, R384) -/

/-- Below a root that is no leaf every path takes a step. -/
theorem HTree.path_length_pos {t : HTree} (ht : 0 < t.depth) {q : Byte × List Bool} (hq : q ∈ t.paths) :
    0 < q.2.length := by
  cases t with
  | leaf h s => exact absurd ht (Nat.lt_irrefl 0)
  | only h l =>
    obtain ⟨q, -, rfl⟩ := List.mem_map.mp hq
    exact Nat.succ_pos _
  | node h l r =>
    rcases List.mem_append.mp hq with hq | hq <;>
    · obtain ⟨q, -, rfl⟩ := List.mem_map.mp hq
      exact Nat.succ_pos _

theorem HTree.depth_pos_of_two_leaves {t : HTree} (h : 2 ≤ t.leaves.length) : 0 < t.depth := by
  cases t with
  | leaf x s => exact absurd h (by simp [leaves])
  | only x l => exact Nat.succ_pos _
  | node x l r => exact Nat.succ_pos _

/-- The code table holds exactly the paths of a tree: its leaves' symbols are distinct, the root is no leaf (R384), and no
path is longer than an entry can hold (R340). -/
structure HoldsPaths (code : Vector CodeEntry 256) (t : HTree) : Prop where
  nodup : t.leaves.Nodup
  coded : ∀ q ∈ t.paths, entryAt code q.1 = codeOf q.2
  uncoded : ∀ s, s ∉ t.leaves → entryAt code s = ⟨0, 0⟩
  depth_pos : 0 < t.depth
  depth_le : t.depth ≤ 255

theorem genCodes_holdsPaths {freq : Vector Word 256} {a : Arena} {t : HTree} (ht : Stands freq a.node t)
    (hr : a.root = some t.rootId) (hleaves : t.leaves.Perm (presentSymbols freq)) (hpos : 0 < t.depth)
    (hle : t.depth ≤ 255) : HoldsPaths (genCodes a) t := by
  have hnodup : t.leaves.Nodup := hleaves.nodup_iff.mpr (presentSymbols_nodup freq)
  obtain ⟨hcoded, huncoded⟩ := genCodes_tree ht hr (by omega) hnodup
  exact ⟨hnodup, hcoded, huncoded, hpos, hle⟩

/-- Without a tree no symbol has a code (R381). -/
theorem genCodes_of_root_none {a : Arena} (hr : a.root = none) (s : Byte) : entryAt (genCodes a) s = ⟨0, 0⟩ := by
  simp [genCodes, hr, walkCodes, entryAt]

/-- The code table after `BuildTree`: empty, or the paths of a full tree, or those of a single leaf below the synthetic root
(R335). -/
theorem buildTree_holdsPaths {freq : Vector Word 256} {a b : Arena} (hb : buildTree freq a = some b) :
    (presentSymbols freq = [] ∧ ∀ s, entryAt (genCodes b) s = ⟨0, 0⟩) ∨
    ∃ t : HTree, HoldsPaths (genCodes b) t ∧ t.leaves.Perm (presentSymbols freq) ∧
      (t.Full ∨ ∃ s, t = .only 1 (.leaf 0 s)) := by
  rcases buildTree_builtTree hb with ⟨hs, -, hr⟩ | ⟨s, hs, -, hr, ht⟩ | ⟨t, hlen, hfull, ht, hr, -, hleaves, -⟩
  · exact .inl ⟨hs, genCodes_of_root_none hr⟩
  · have hleaves : (HTree.only 1 (.leaf 0 s)).leaves.Perm (presentSymbols freq) := by rw [hs]; rfl
    exact .inr ⟨_, genCodes_holdsPaths ht hr hleaves (by decide : 0 < 1) (by decide : 1 ≤ 255), hleaves, .inr ⟨s, rfl⟩⟩
  · have hdepth := HTree.depth_lt_leaves hfull
    have hle := presentSymbols_length_le freq
    have hlength := hleaves.length_eq
    exact .inr ⟨t, genCodes_holdsPaths ht hr hleaves (HTree.depth_pos_of_two_leaves (by omega)) (by omega), hleaves,
      .inl hfull⟩

section
variable {code : Vector CodeEntry 256} {t : HTree}

theorem HoldsPaths.path_length (h : HoldsPaths code t) {q : Byte × List Bool} (hq : q ∈ t.paths) :
    1 ≤ q.2.length ∧ q.2.length ≤ 255 :=
  ⟨HTree.path_length_pos h.depth_pos hq, (HTree.path_length_le hq).trans h.depth_le⟩

/-- A leaf's symbol has a path, and its entry is the path's length and bits. -/
theorem HoldsPaths.exists_path (h : HoldsPaths code t) {s : Byte} (hs : s ∈ t.leaves) :
    ∃ q ∈ t.paths, q.1 = s ∧ (entryAt code s).len.toNat = q.2.length ∧ codeBits (entryAt code s) = q.2 := by
  rw [← HTree.paths_fst] at hs
  obtain ⟨q, hq, rfl⟩ := List.mem_map.mp hs
  rw [h.coded q hq]
  exact ⟨q, hq, rfl, codeOf_spec q.2 (h.path_length hq).2⟩

theorem HoldsPaths.len_bounds (h : HoldsPaths code t) {s : Byte} (hs : s ∈ t.leaves) :
    1 ≤ (entryAt code s).len.toNat ∧ (entryAt code s).len.toNat ≤ 255 := by
  obtain ⟨q, hq, -, hlen, -⟩ := h.exists_path hs
  exact hlen ▸ h.path_length hq

theorem HoldsPaths.len_ne_zero_iff (h : HoldsPaths code t) (s : Byte) :
    (entryAt code s).len ≠ 0 ↔ s ∈ t.leaves := by
  constructor
  · intro hlen
    by_contra hs
    exact hlen (by rw [h.uncoded s hs])
  · intro hs hlen
    have hpos := (h.len_bounds hs).1
    simp [hlen] at hpos

theorem HoldsPaths.prefix_free (h : HoldsPaths code t) {s c : Byte} (hs : s ∈ t.leaves) (hc : c ∈ t.leaves)
    (hpre : codeBits (entryAt code s) <+: codeBits (entryAt code c)) : s = c := by
  obtain ⟨q, hq, rfl, -, hqbits⟩ := h.exists_path hs
  obtain ⟨p, hp, rfl, -, hpbits⟩ := h.exists_path hc
  rw [hqbits, hpbits] at hpre
  rw [HTree.paths_prefix hq hp hpre]

/-! ### Kraft's sum (R383) -/

theorem mem_allSymbols (s : Byte) : s ∈ allSymbols := by
  obtain ⟨above, h⟩ := allSymbols_split s
  rw [h]
  exact List.mem_append_right _ List.mem_cons_self

theorem allSymbols_nodup : allSymbols.Nodup := by
  refine List.nodup_range.map_on fun i hi j hj hij => ?_
  rw [List.mem_range] at hi hj
  simpa [Nat.mod_eq_of_lt, hi, hj] using congrArg BitVec.toNat hij

theorem HoldsPaths.codeWeight_path (h : HoldsPaths code t) {q : Byte × List Bool} (hq : q ∈ t.paths) :
    codeWeight (entryAt code q.1) = 2 ^ (255 - q.2.length) := by
  obtain ⟨hpos, hle⟩ := h.path_length hq
  have hlen := (codeOf_spec q.2 hle).1
  have hne : (codeOf q.2).len ≠ 0 := fun h0 => by simp [h0] at hlen; omega
  rw [h.coded q hq, codeWeight, if_neg hne, hlen]

/-- Kraft's sum of the table is the sum over the tree's paths: the symbols without a code weigh nothing. -/
theorem HoldsPaths.kraftSum_eq (h : HoldsPaths code t) :
    kraftSum code = (t.paths.map fun q => 2 ^ (255 - q.2.length)).sum := by
  have hother : ∀ s ∈ allSymbols.toFinset, s ∉ t.leaves.toFinset → codeWeight (entryAt code s) = 0 := by
    intro s _ hs
    rw [h.uncoded s (by simpa using hs)]
    rfl
  calc kraftSum code
      = (allSymbols.map fun s => codeWeight (entryAt code s)).sum := by
        rw [kraftSum, ← map_entryAt_allSymbols code, List.map_map]; rfl
    _ = ∑ s ∈ allSymbols.toFinset, codeWeight (entryAt code s) := (List.sum_toFinset _ allSymbols_nodup).symm
    _ = ∑ s ∈ t.leaves.toFinset, codeWeight (entryAt code s) :=
        (Finset.sum_subset (fun s _ => List.mem_toFinset.mpr (mem_allSymbols s)) hother).symm
    _ = (t.leaves.map fun s => codeWeight (entryAt code s)).sum := List.sum_toFinset _ h.nodup
    _ = (t.paths.map fun q => 2 ^ (255 - q.2.length)).sum := by
        rw [← HTree.paths_fst, List.map_map]
        exact congrArg List.sum (List.map_congr_left fun q hq => h.codeWeight_path hq)

end

/-- Settles O44: the table holds the paths of the tree that `BuildTree` leaves, and the leaves are the symbols present. -/
theorem codeTableProperties : Obligations.CodeTableProperties := by
  intro freq a b hb
  rw [distinctCount_eq]
  simp only [← mem_presentSymbols]
  rcases buildTree_holdsPaths hb with ⟨hs, hnone⟩ | ⟨t, h, hleaves, hform⟩
  · simp [hs, hnone]
  · simp only [← hleaves.mem_iff, ← hleaves.length_eq, h.kraftSum_eq]
    refine ⟨h.len_ne_zero_iff, fun s hs => h.len_bounds hs,
      fun s c hsc hs hc hpre => hsc (h.prefix_free hs hc hpre), fun htwo => ?_, fun hone => ?_⟩
    · rcases hform with hfull | ⟨s, rfl⟩
      · exact HTree.paths_kraft hfull 255 h.depth_le
      · simp [HTree.leaves] at htwo
    · rcases hform with hfull | ⟨s, rfl⟩
      · have hdepth := HTree.depth_lt_leaves hfull
        have hpos := h.depth_pos
        omega
      · simp [HTree.paths]

end Sys2Proof.Machine

/-! The statements of 46_container.md: how `DCMP.HUF` reads a header and a table, and where it rejects them. -/

namespace Sys2Proof.Machine

/-! ## A command run to its end within a number of transactions -/

/-- `Leads` with a bound: the command `i`, having answered this result, goes on to an end in a state that meets `Q`, within `k`
further engine steps. -/
inductive LeadsWithin (i : Instr) (Q : State → Prop) : Nat → Result → Prop where
  | ended {k : Nat} {t : State} : t.phase = .idle → Q t → LeadsWithin i Q k (.next t)
  | goesOn {k : Nat} {u : State} : u.phase ≠ .idle → LeadsWithin i Q k (exec i u) → LeadsWithin i Q (k + 1) (.next u)

theorem LeadsWithin.imp {i : Instr} {Q R : State → Prop} {k : Nat} {r : Result} (h : LeadsWithin i Q k r)
    (hqr : ∀ t, Q t → R t) : LeadsWithin i R k r := by
  induction h with
  | ended hp hq => exact .ended hp (hqr _ hq)
  | goesOn hp _ ih => exact .goesOn hp ih

theorem LeadsWithin.exists_commandRun {i : Instr} {Q : State → Prop} {k : Nat} {r : Result} (h : LeadsWithin i Q k r)
    {s : State} (hr : exec i s = r) : ∃ t, commandRun i (k + 1) s = .next t ∧ t.phase = .idle ∧ Q t := by
  induction h generalizing s with
  | @ended k t hp hq => exact ⟨t, by simp only [commandRun, hr, if_pos hp], hp, hq⟩
  | @goesOn k u hp _ ih =>
    obtain ⟨t, hk, ht⟩ := ih rfl
    exact ⟨t, by rw [commandRun]; simp only [hr, if_neg hp, hk], ht⟩

/-- A start step that leads to an end within `k` steps makes a run of `k + 1`. -/
theorem LeadsWithin.endsIn {i : Instr} {Q : State → Prop} {k : Nat} {s : State} (hp : s.phase = .idle)
    (h : LeadsWithin i Q k (exec i s)) : ∃ t, EndsIn i (k + 1) s t ∧ Q t := by
  obtain ⟨t, hk, ht, hq⟩ := h.exists_commandRun rfl
  exact ⟨t, ⟨Nat.succ_pos k, hp, hk, ht⟩, hq⟩

section
variable {i : Instr} {Q : State → Prop} {s t : State} {p : Phase} {e : Error} {f : Byte → State → Result}
  {st : Status} {n k : Nat} {rest : List Byte} {b : Byte}

/-- In a phase that reads, an honest host delivers the next byte. -/
theorem LeadsWithin.of_byte (hx : ∀ {u : State}, u.phase = p → exec i u = transact (fun a => rdOr a e f) u)
    (hp : p ≠ .idle) (hh : Honest s) (hu : unread s = b :: rest)
    (h : LeadsWithin i Q k (f b (afterByte { s with phase := p }))) : LeadsWithin i Q (k + 1) (issue p s) := by
  refine .goesOn hp ?_
  rw [hx rfl, transact_honest (by exact hh), rdOr, rd_byte rfl (by exact (unread_eq_cons hu).1)]
  exact h

/-- In a phase that reads, an honest host says `Eof` at the end of `IN`, and the phase's error is raised (R11). -/
theorem LeadsWithin.of_eof (hx : ∀ {u : State}, u.phase = p → exec i u = transact (fun a => rdOr a e f) u)
    (hp : p ≠ .idle) (hh : Honest s) (hu : unread s = []) (h : Q (raise e s)) :
    LeadsWithin i Q (k + 1) (issue p s) := by
  refine .goesOn hp ?_
  rw [hx rfl, transact_honest (by exact hh), rdOr, rd_eof rfl (by exact unread_eq_nil_iff.mp hu)]
  exact .ended rfl h

/-- `t` is after `s` once `n` bytes are read, with the status `st`, nothing written, and `ORIG_SIZE` and `NSYM` as they were. -/
def ReadOnly (st : Status) (n : Nat) (s t : State) : Prop :=
  Streamed st n [] s t ∧ t.origSize = s.origSize ∧ t.nsym = s.nsym

theorem readOnly_raise (hh : Honest s) (e : Error) : ReadOnly (statusRaised e) 0 s (raise e s) :=
  ⟨streamed_raise hh e, rfl, rfl⟩

theorem ReadOnly.of_afterByte (h : ReadOnly st n (afterByte s) t) : ReadOnly st (n + 1) s t :=
  ⟨h.1.of_afterByte, h.2⟩

/-! ## `ReadHeader` (R414 to R417) -/

/-- The bytes of a header that is read on: fewer than thirteen, and the magic if all of it is there (R415). -/
def HeaderPrefix (bytes : List Byte) : Prop :=
  bytes.length < 13 ∧ (4 ≤ bytes.length → bytes.take 4 = Config.magic.toList)

theorem HeaderPrefix.of_append {bytes more : List Byte} (h : HeaderPrefix (bytes ++ more)) : HeaderPrefix bytes := by
  obtain ⟨hlen, hmagic⟩ := h
  rw [List.length_append] at hlen hmagic
  refine ⟨by omega, fun h4 => ?_⟩
  rw [← hmagic (by omega), List.take_append_of_le_length h4]

/-- `s` after the header bytes `bytes` are read: the fifth is in `NSRAW`. -/
def afterHeader (bytes : List Byte) (s : State) : State :=
  { s with
    inPos := s.inPos + bytes.length
    inCount := s.inCount + BitVec.ofNat 64 bytes.length
    nsRaw := bytes.getD 4 s.nsRaw }

theorem afterHeader_nil (s : State) : afterHeader [] s = s := by simp [afterHeader]

theorem getD_concat (bytes : List Byte) (b d : Byte) (k : Nat) :
    (bytes ++ [b]).getD k d = if bytes.length = k then b else bytes.getD k d := by
  rcases lt_trichotomy bytes.length k with h | h | h
  · rw [if_neg h.ne, List.getD_eq_default _ _ (by simpa using h), List.getD_eq_default _ _ h.le]
  · rw [if_pos h, List.getD_append_right _ _ _ _ h.le, h, Nat.sub_self]
    rfl
  · rw [if_neg h.ne', List.getD_append _ _ _ _ h]

theorem afterHeader_concat (bytes : List Byte) (b : Byte) (s : State) :
    afterHeader (bytes ++ [b]) s =
      { afterByte (afterHeader bytes s) with nsRaw := if bytes.length = 4 then b else (afterHeader bytes s).nsRaw } := by
  simp only [afterHeader, afterByte, getD_concat, List.length_append, List.length_singleton, BitVec.ofNat_add,
    Nat.add_assoc, BitVec.add_assoc]
  rfl

theorem unread_afterHeader {bytes : List Byte} (hu : unread s = bytes ++ rest) : unread (afterHeader bytes s) = rest := by
  rw [unread] at hu
  rw [unread, afterHeader, ← List.drop_drop, hu, List.drop_left]

theorem Streamed.of_afterHeader {bytes out : List Byte} (h : Streamed st n out (afterHeader bytes s) t) :
    Streamed st (bytes.length + n) out s t := by
  obtain ⟨hst, hh, hin, hpos, hcnt, hrest⟩ := h
  refine ⟨hst, hh, hin, hpos.trans (Nat.add_assoc ..), hcnt.trans ?_, hrest⟩
  rw [BitVec.ofNat_add, ← BitVec.add_assoc]
  rfl

/-- A byte that leaves the header unfinished and its magic right is gathered (R414). -/
theorem headerByte_gathers {bytes : List Byte} (h : HeaderPrefix (bytes ++ [b])) (p : Phase) (s : State) :
    headerByte bytes b (afterByte { afterHeader bytes s with phase := p }) =
      issue (.hufHdrR (bytes ++ [b])) (afterHeader (bytes ++ [b]) s) := by
  obtain ⟨hlen, hmagic⟩ := h
  rw [List.length_append, List.length_singleton] at hlen hmagic
  rw [afterHeader_concat]
  unfold headerByte
  split
  · rename_i h3
    have htake := hmagic (by omega)
    rw [List.take_of_length_le (by simp [h3])] at htake
    rw [if_pos htake, if_neg (by omega)]
    rfl
  · split
    · rfl
    · rw [if_neg (by omega)]
      rfl

/-- With the thirteenth byte the size is there, and the count is interpreted (R416, R417). -/
theorem headerByte_completes {bytes : List Byte} (h : bytes.length = 12) (p : Phase) (s : State) :
    headerByte bytes b (afterByte { afterHeader bytes s with phase := p }) =
      headerRead (interpretCount { afterHeader (bytes ++ [b]) s with
        phase := p
        origSize := assembleLe 64 ((bytes ++ [b]).drop 5) }) := by
  rw [afterHeader_concat]
  simp only [headerByte, h, Nat.reduceEqDiff, ↓reduceIte]
  rfl

/-- The header bytes `bytes` are read one by one. -/
theorem leadsWithin_headerBytes {bytes : List Byte} (hpre : HeaderPrefix bytes) (hh : Honest s)
    (hu : unread s = bytes ++ rest)
    (h : LeadsWithin .dcmpHuf Q k (issue (.hufHdrR bytes) (afterHeader bytes s))) :
    LeadsWithin .dcmpHuf Q (bytes.length + k) (issue (.hufHdrR []) s) := by
  induction bytes using List.reverseRecOn generalizing rest k with
  | nil => rwa [List.length_nil, Nat.zero_add, ← afterHeader_nil s]
  | append_singleton bytes b ih =>
    rw [List.append_assoc] at hu
    rw [List.length_append, List.length_singleton, Nat.add_assoc, Nat.add_comm 1]
    refine ih hpre.of_append hu (.of_byte exec_hufHdrR nofun (by exact hh) (unread_afterHeader hu) ?_)
    rwa [headerByte_gathers hpre]

/-- A fourth byte that does not complete the magic is the last one read (R415). -/
theorem leadsWithin_badMagic {bytes : List Byte} (h3 : bytes.length = 3) (hne : bytes ++ [b] ≠ Config.magic.toList)
    (hh : Honest s) (hu : unread s = bytes ++ b :: rest) :
    LeadsWithin .dcmpHuf (ReadOnly (statusRaised .corruptHeader) 4 s) 4 (issue (.hufHdrR []) s) := by
  have hpre : HeaderPrefix bytes := ⟨by omega, by omega⟩
  have h := leadsWithin_headerBytes (Q := ReadOnly (statusRaised .corruptHeader) 4 s) (k := 1) hpre hh hu <|
    .of_byte exec_hufHdrR nofun (by exact hh) (unread_afterHeader hu) ?_
  · rwa [h3] at h
  · rw [headerByte, if_pos h3, if_neg hne]
    refine .ended rfl ⟨?_, rfl, rfl⟩
    have hst := (streamed_raise (s := afterByte (afterHeader bytes s)) hh .corruptHeader).of_afterByte.of_afterHeader
    rwa [h3] at hst

/-- An input that ends within the header (R414). -/
theorem leadsWithin_truncatedHeader {bytes : List Byte} (hpre : HeaderPrefix bytes) (hh : Honest s)
    (hu : unread s = bytes) :
    LeadsWithin .dcmpHuf (ReadOnly (statusRaised .corruptHeader) bytes.length s) (bytes.length + 1)
      (issue (.hufHdrR []) s) := by
  rw [← List.append_nil bytes] at hu
  refine leadsWithin_headerBytes hpre hh hu (.of_eof exec_hufHdrR nofun (by exact hh) (unread_afterHeader hu) ?_)
  exact ⟨(streamed_raise (by exact hh) _).of_afterHeader, rfl, rfl⟩

/-- The header with the right magic, the count byte `ns` and the size bytes `z` (R160). -/
def fullHeader (ns : Byte) (z : List Byte) : List Byte := Config.magic.toList ++ [ns] ++ z

theorem fullHeader_length {ns : Byte} {z : List Byte} (hz : z.length = 8) : (fullHeader ns z).length = 13 := by
  simp [fullHeader, hz]

theorem afterHeader_fullHeader_nsRaw (ns : Byte) (z : List Byte) (s : State) :
    (afterHeader (fullHeader ns z) s).nsRaw = ns := by
  simp [afterHeader, fullHeader]

/-- The header is read, and the size and the count byte decide what follows. -/
theorem leadsWithin_fullHeader {ns : Byte} {z : List Byte} (hz : z.length = 8) (hh : Honest s)
    (hu : unread s = fullHeader ns z ++ rest)
    (h : ∀ p, LeadsWithin .dcmpHuf Q k
      (headerRead (interpretCount { afterHeader (fullHeader ns z) s with phase := p, origSize := assembleLe 64 z }))) :
    LeadsWithin .dcmpHuf Q (13 + k) (issue (.hufHdrR []) s) := by
  induction z using List.reverseRecOn with
  | nil => cases hz
  | append_singleton z b _ =>
    have hz7 : z.length = 7 := by simpa using hz
    rw [fullHeader, ← List.append_assoc] at hu h
    set bytes := Config.magic.toList ++ [ns] ++ z with hbytes
    have hlen : bytes.length = 12 := by simp [hbytes, hz7]
    have hpre : HeaderPrefix bytes := ⟨by omega, fun _ => by simp [hbytes]⟩
    rw [List.append_assoc] at hu
    have hlast := leadsWithin_headerBytes (Q := Q) (k := k + 1) hpre hh hu <|
      .of_byte exec_hufHdrR nofun (by exact hh) (unread_afterHeader hu) ?_
    · rwa [hlen, Nat.add_comm k, ← Nat.add_assoc] at hlast
    · rw [headerByte_completes hlen]
      have hdrop : (bytes ++ [b]).drop 5 = z ++ [b] := by
        rw [hbytes, List.append_assoc]
        exact List.drop_left' (by simp)
      rw [hdrop]
      exact h _

theorem headerRead_of_size_zero (h : s.origSize = 0) :
    headerRead (interpretCount s) = .next (finish { s with n := 0, nsym := 0 }) := by
  rw [interpretCount, if_pos h, headerRead, if_pos (by exact h)]

theorem headerRead_of_size_ne_zero (h : s.origSize ≠ 0) :
    headerRead (interpretCount s) = issue (.hufTabR (interpretedCount s.nsRaw).toNat [])
      (freqClear { s with n := interpretedCount s.nsRaw, nsym := interpretedCount s.nsRaw }) := by
  rw [interpretCount, if_neg h, headerRead, if_neg (by exact h)]

/-- A size of zero: `DCMP.HUF` is done with the header (R417, R517). -/
theorem leadsWithin_sizeZero {ns : Byte} (hh : Honest s) (hu : unread s = fullHeader ns (List.replicate 8 0) ++ rest) :
    LeadsWithin .dcmpHuf
      (fun t => Streamed statusFinished 13 [] s t ∧ t.origSize = 0 ∧ t.nsym = 0 ∧ t.nsRaw = ns) 13
      (issue (.hufHdrR []) s) := by
  have hz : (List.replicate 8 (0 : Byte)).length = 8 := rfl
  refine leadsWithin_fullHeader (k := 0) hz hh hu fun p => ?_
  have hsize : assembleLe 64 (List.replicate 8 0) = 0 := by decide
  rw [headerRead_of_size_zero (by exact hsize)]
  refine .ended rfl ⟨?_, hsize, rfl, afterHeader_fullHeader_nsRaw ns _ s⟩
  have hst := (streamed_finish (s := afterHeader (fullHeader ns (List.replicate 8 0)) s) hh).of_afterHeader
  rwa [fullHeader_length hz] at hst

/-- A size that is not zero: `FREQ` is cleared and the table is read, from which the run goes on without touching `ORIG_SIZE`
and `NSYM` (R417, R418, R517). -/
theorem leadsWithin_sized {ns : Byte} {z : List Byte} (hz : z.length = 8) (hne : leValue z ≠ 0) (hh : Honest s)
    (hu : unread s = fullHeader ns z ++ rest)
    (h : ∀ u, Honest u → unread u = rest → u.freq = Vector.replicate 256 0 →
      LeadsWithin .dcmpHuf (ReadOnly st n u) k (issue (.hufTabR (interpretedCount ns).toNat []) u)) :
    LeadsWithin .dcmpHuf
      (fun t => Streamed st (13 + n) [] s t ∧ t.origSize = assembleLe 64 z ∧ t.nsym = interpretedCount ns) (13 + k)
      (issue (.hufHdrR []) s) := by
  refine leadsWithin_fullHeader hz hh hu fun p => ?_
  have hsize : assembleLe 64 z ≠ 0 := fun h0 => hne (by rw [← assembleLe_toNat z (w := 64) (by omega), h0]; rfl)
  rw [headerRead_of_size_ne_zero (by exact hsize), afterHeader_fullHeader_nsRaw]
  refine (h _ ?_ ?_ rfl).imp ?_
  · exact hh
  · exact unread_afterHeader hu
  rintro t ⟨hst, hsz, hns⟩
  refine ⟨?_, hsz, hns⟩
  rw [← fullHeader_length (ns := ns) hz]
  exact Streamed.of_afterHeader hst

/-! ## `ReadTable` (R418 to R420) -/

/-- An input that ends before the last of the declared entries is complete (R418). -/
theorem leadsWithin_truncatedTable {bytes got : List Byte} {left : Nat} (hgot : got.length < 5)
    (hlen : got.length + bytes.length < 5 * left) (hh : Honest s) (hu : unread s = bytes) :
    LeadsWithin .dcmpHuf (ReadOnly (statusRaised .corruptFrequencyTable) bytes.length s) (bytes.length + 1)
      (issue (.hufTabR left got) s) := by
  induction bytes generalizing s left got with
  | nil => exact .of_eof exec_hufTabR nofun hh hu (readOnly_raise hh _)
  | cons b bytes ih =>
    rw [List.length_cons] at hlen
    refine .of_byte exec_hufTabR nofun hh hu ?_
    have hrest := (unread_eq_cons hu).2
    rcases Nat.lt_or_ge got.length 4 with h4 | h4
    · rw [tableByte_gathers h4]
      exact (ih (s := afterByte s) (by simp; omega) (by simp; omega) hh hrest).imp fun t ht => ht.of_afterByte
    · rw [tableByte_stores h4 (by omega)]
      exact (ih (s := { afterByte s with freq := loadEntry (got ++ [b]) s.freq }) (by simp) (by simp; omega) hh hrest).imp
        fun t ht => ReadOnly.of_afterByte ht

/-- The first bytes of an entry are gathered, and `FREQ` waits. -/
theorem leadsWithin_gathers {entry got : List Byte} {left : Nat} (hlen : got.length + entry.length ≤ 4) (hh : Honest s)
    (hu : unread s = entry ++ rest)
    (h : ∀ u, Honest u → unread u = rest → u.freq = s.freq →
      LeadsWithin .dcmpHuf (ReadOnly st n u) k (issue (.hufTabR left (got ++ entry)) u)) :
    LeadsWithin .dcmpHuf (ReadOnly st (n + entry.length) s) (k + entry.length) (issue (.hufTabR left got) s) := by
  induction entry generalizing s got with
  | nil => simpa using h s hh hu rfl
  | cons b entry ih =>
    rw [List.length_cons] at hlen
    refine .of_byte exec_hufTabR nofun hh hu ?_
    rw [tableByte_gathers (by omega)]
    refine (ih (s := afterByte s) (by simp; omega) hh (unread_eq_cons hu).2 ?_).imp fun t ht => ht.of_afterByte
    rwa [List.append_assoc]

theorem loadEntry_zero (c : Byte) :
    loadEntry [c, 0, 0, 0, 0] (Vector.replicate 256 0) = (Vector.replicate 256 0 : Vector Word 256) := by
  have hzero : assembleLe 32 [0, 0, 0, 0] = 0 := by decide
  have hentry : entryAt (Vector.replicate 256 (0 : Word)) c = 0 := Vector.getElem_replicate _
  have hput := entryPut_entryAt (Vector.replicate 256 (0 : Word)) c
  rw [hentry] at hput
  rw [loadEntry, hzero, hput]

theorem tableRead_empty (h : s.freq = Vector.replicate 256 0) :
    tableRead s = .next (raise .corruptFrequencyTable s) := by
  have hcount : distinctCount s.freq = 0 := by
    rw [h, distinctCount, Vector.toList_replicate, List.countP_replicate]; rfl
  rw [tableRead, if_pos hcount]

/-- A table of zero frequencies leaves `FREQ` clear, and its last byte is the last one read (R420). -/
theorem leadsWithin_zeroTable {symbols body : List Byte} (hne : symbols ≠ []) (hh : Honest s)
    (hu : unread s = (symbols.flatMap fun c => [c, 0, 0, 0, 0]) ++ body) (hf : s.freq = Vector.replicate 256 0) :
    LeadsWithin .dcmpHuf (ReadOnly (statusRaised .corruptFrequencyTable) (5 * symbols.length) s) (5 * symbols.length)
      (issue (.hufTabR symbols.length []) s) := by
  induction symbols generalizing s with
  | nil => exact absurd rfl hne
  | cons c symbols ih =>
    rw [List.flatMap_cons, List.append_assoc] at hu
    rw [List.length_cons, Nat.mul_succ]
    refine leadsWithin_gathers (entry := [c, 0, 0, 0]) (by simp) hh hu fun u hhu huu hfu => ?_
    refine .of_byte exec_hufTabR nofun hhu huu ?_
    have hload : loadEntry ([] ++ [c, 0, 0, 0] ++ [0]) u.freq = Vector.replicate 256 0 := by
      rw [hfu, hf]; exact loadEntry_zero c
    cases symbols with
    | nil =>
      rw [tableByte_ends (by simp) (by simp), tableRead_empty (by exact hload)]
      exact .ended rfl (ReadOnly.of_afterByte (readOnly_raise (by exact hhu) _))
    | cons d symbols =>
      rw [tableByte_stores (by simp) (by simp)]
      exact (ih (s := { afterByte u with freq := loadEntry ([] ++ [c, 0, 0, 0] ++ [0]) u.freq }) (by simp) hhu
        (unread_eq_cons huu).2 hload).imp fun t ht => ReadOnly.of_afterByte ht

/-! ## The command from `IDLE` (R517) -/

theorem interpretedCount_toNat (ns : Byte) : (interpretedCount ns).toNat = if ns = 0 then 256 else ns.toNat := by
  unfold interpretedCount
  split
  · rfl
  · rw [BitVec.toNat_setWidth, Nat.mod_eq_of_lt (by have := ns.isLt; omega)]

theorem interpretedCount_pos (ns : Byte) : 0 < (interpretedCount ns).toNat := by
  rw [interpretedCount_toNat]
  split
  · decide
  · rename_i hne
    exact Nat.pos_of_ne_zero fun h => hne (BitVec.eq_of_toNat_eq h)

/-- `DCMP.HUF` starts by reading the header, with the whole input unread and the counters at 0. -/
theorem LeadsWithin.dcmpHuf_endsIn {w : Word} (hp : s.phase = .idle)
    (h : LeadsWithin .dcmpHuf Q k (issue (.hufHdrR []) (startCommand w s))) :
    ∃ t, EndsIn .dcmpHuf (k + 1) (startCommand w s) t ∧ Q t := by
  refine LeadsWithin.endsIn hp ?_
  rwa [exec, execDcmpHuf, startCommand_phase, hp]

/-- What a run from position 0 that wrote nothing leaves in the status, the streams and the counters. -/
theorem Streamed.from_start {w : Word} (h : Streamed st n [] (startCommand w s) t) (h0 : s.inPos = 0) :
    t.status = st ∧ t.inPos = n ∧ t.inCount = BitVec.ofNat 64 n ∧ t.output = s.output ∧ t.outCount = 0 := by
  obtain ⟨hst, -, -, hpos, hcnt, hout, hocnt⟩ := h
  refine ⟨hst, ?_, hcnt.trans (BitVec.zero_add _), hout.trans (List.append_nil _), hocnt⟩
  rw [hpos, startCommand_inPos, h0, Nat.zero_add]

end

theorem statusWord_raised_corruptHeader : statusWord (statusRaised .corruptHeader) = 0x00000202#32 := by decide

theorem statusWord_raised_corruptFrequencyTable : statusWord (statusRaised .corruptFrequencyTable) = 0x00000302#32 := by decide

/-- Settles O53: the fourth byte completes the magic or ends the command. -/
theorem badMagicIsRejected : Obligations.BadMagicIsRejected := by
  intro s hp hh h0 hlen hne
  have h3 : 3 < s.input.length := hlen
  rw [List.take_add_one, List.getElem?_eq_getElem h3] at hne
  have hu : unread s = s.input.take 3 ++ s.input[3] :: s.input.drop 4 := by
    rw [unread_of_inPos_zero h0, ← List.drop_eq_getElem_cons h3, List.take_append_drop]
  obtain ⟨t, ht, hq, hsize, hnsym⟩ := LeadsWithin.dcmpHuf_endsIn (w := 0x00000101#32) hp
    (leadsWithin_badMagic (List.length_take_of_le h3.le) hne (by exact hh) hu)
  obtain ⟨hst, hpos, hcnt, hout, hocnt⟩ := hq.from_start h0
  exact ⟨t, ht, hst ▸ statusWord_raised_corruptHeader, hcnt, hpos, hout, hocnt, hsize, hnsym⟩

/-- Settles O54: every byte there is gathered, and the `Eof` after them ends the command. -/
theorem truncatedHeaderIsRejected : Obligations.TruncatedHeaderIsRejected := by
  intro s hp hh h0 hlen hmagic
  obtain ⟨t, ht, hq, hsize, hnsym⟩ := LeadsWithin.dcmpHuf_endsIn (w := 0x00000101#32) hp
    (leadsWithin_truncatedHeader ⟨hlen, hmagic⟩ (by exact hh) (unread_of_inPos_zero h0))
  obtain ⟨hst, hpos, hcnt, hout, hocnt⟩ := hq.from_start h0
  exact ⟨t, ht, hst ▸ statusWord_raised_corruptHeader, hcnt, hpos, hout, hocnt, hsize, hnsym⟩

/-- Settles O55: the thirteenth byte completes a size of 0. -/
theorem sizeZeroEndsAfterTheHeader : Obligations.SizeZeroEndsAfterTheHeader := by
  intro s ns trailing hp hh h0 hin
  obtain ⟨t, ht, hq, hsize, hnsym, hraw⟩ := LeadsWithin.dcmpHuf_endsIn (w := 0x00000101#32) hp
    (leadsWithin_sizeZero (by exact hh) ((unread_of_inPos_zero h0).trans hin))
  obtain ⟨hst, hpos, hcnt, hout, hocnt⟩ := hq.from_start h0
  exact ⟨t, ht, hst ▸ by decide, hcnt, hpos, hout, hocnt, hsize, hnsym, hraw⟩

/-- Settles O56: every table byte there is read, and the `Eof` after them ends the command. -/
theorem truncatedTableIsRejected : Obligations.TruncatedTableIsRejected := by
  intro s ns z table hp hh h0 hz hne hin hlen
  rw [← interpretedCount_toNat] at hlen ⊢
  obtain ⟨t, ht, hq, hsize, hnsym⟩ := LeadsWithin.dcmpHuf_endsIn (w := 0x00000101#32) hp
    (leadsWithin_sized hz hne (by exact hh) ((unread_of_inPos_zero h0).trans hin) fun u hhu huu _ =>
      leadsWithin_truncatedTable (by simp) (by simpa using hlen) hhu huu)
  obtain ⟨hst, -, hcnt, hout, -⟩ := hq.from_start h0
  have hinlen : s.input.length = 13 + table.length := by
    rw [hin, List.length_append]
    exact congrArg (· + table.length) (fullHeader_length hz)
  rw [hinlen]
  exact ⟨t, ht, hst ▸ statusWord_raised_corruptFrequencyTable, hcnt, hout, by rw [hsize, assembleLe_toNat z (by omega)],
    by rw [hnsym]⟩

/-- Settles O57: the entries leave the cleared `FREQ` as it is, and the table is checked before a body byte is read. -/
theorem allZeroTableIsRejected : Obligations.AllZeroTableIsRejected := by
  intro s ns z symbols body hp hh h0 hz hne hlen hin
  rw [← interpretedCount_toNat] at hlen
  have hsymbols : symbols ≠ [] := fun hnil => absurd hlen (by rw [hnil]; exact (interpretedCount_pos ns).ne)
  rw [List.append_assoc] at hin
  obtain ⟨t, ht, hq, hsize, -⟩ := LeadsWithin.dcmpHuf_endsIn (w := 0x00000101#32) hp
    (leadsWithin_sized hz hne (by exact hh) ((unread_of_inPos_zero h0).trans hin) fun u hhu huu hfu =>
      hlen ▸ leadsWithin_zeroTable hsymbols hhu huu hfu)
  rw [← hlen] at hq
  obtain ⟨hst, hpos, hcnt, hout, hocnt⟩ := hq.from_start h0
  exact ⟨_, t, ht, hst ▸ statusWord_raised_corruptFrequencyTable, hpos, hcnt, hout, hocnt,
    by rw [hsize, assembleLe_toNat z (by omega)]⟩

end Sys2Proof.Machine

/-! The statements of 47_bit_packer.md: the packer invariant, the walk of the body, and its end at `ORIG_SIZE` symbols. -/

namespace Sys2Proof.Machine

/-! ## Invariants of the engine's own registers (R30, R510, R700) -/

/-- `s` without the host's side: the streams, the answers, what the host does next and what it has read. -/
def hideHost (s : State) : State :=
  { s with input := [], inPos := 0, output := [], answers := [], serves := true, program := [], turns := [], reads := [] }

/-- What an invariant of the engine's registers must meet: it does not see the host's side, and reset, the start of a command
and every transaction of a running command leave it true. -/
structure EngineInv (I : State → Prop) : Prop where
  host : ∀ {s t : State}, I s → hideHost t = hideHost s → I t
  reset : I State.reset
  start : ∀ {i : Instr} {v : Word} {s t : State}, s.phase = .idle → I s → exec i (startCommand v s) = .next t → I t
  running : ∀ {i : Instr} {s t : State}, phaseCommand s.phase = some i → I s → exec i s = .next t → I t

section
variable {I : State → Prop} {s t : State}

theorem EngineInv.runHostOp (hI : EngineInv I) {op : HostOp} (hs : StatusInv s) (h : I s)
    (he : runHostOp op s = .next t) : I t := by
  rcases runHostOp_cases he with ⟨o, rfl⟩ | rfl | rfl | ⟨v, hb, hx⟩ |
    ⟨-, ⟨bytes, rfl⟩ | ⟨bytes, rfl⟩ | rfl | rfl⟩ | ⟨pos, kept, -, rfl⟩
  case inr.inr.inr.inl => exact hI.start (hs.idle hb) h hx
  case inr.inr.inr.inr.inr => exact hI.host hI.reset rfl
  all_goals exact hI.host h rfl

/-- A step is a transaction of the running command, the host's operation, or nothing. -/
theorem EngineInv.step (hI : EngineInv I) (hs : StatusInv s) (h : I s) (he : step s = .next t) : I t := by
  rcases step_cases he with ⟨i, hi, hx⟩ | rfl | ⟨op, rest, -, hx⟩
  · exact hI.running (s := { s with turns := s.turns.tail }) hi (hI.host h rfl) hx
  · exact hI.host h rfl
  · exact hI.runHostOp (s := { s with program := rest, turns := s.turns.tail }) (hs.congr rfl rfl) (hI.host h rfl) hx

/-- A transaction of one command leads into no phase of another. -/
theorem exec_phaseCommand_ne {i j : Instr} (hi : phaseCommand s.phase = some i) (hij : i ≠ j)
    (he : exec i s = .next t) : phaseCommand t.phase ≠ some j := by
  rcases exec_continues hi he with ⟨ht, -⟩ | ⟨ht, -⟩ <;> rw [ht]
  · exact fun h => hij (Option.some.inj h)
  · exact nofun

end

/-! ## The packer invariant (R460 to R464) -/

/-- Between `PackBit` calls the accumulator holds `BITCNT` bits, at most 7 (R463). -/
def Packing (s : State) : Prop := s.bitCnt ≤ 7 ∧ s.acc.toNat < 2 ^ s.bitCnt

theorem packInit_packing (s : State) : Packing (packInit s) := ⟨Nat.zero_le 7, Nat.one_pos⟩

/-- One more bit in the accumulator is one more bit of its bound. -/
theorem acc_shift_lt {acc : Byte} {n : Nat} (h : acc.toNat < 2 ^ n) (b : Bool) :
    (acc <<< 1 ||| (BitVec.ofBool b).setWidth 8).toNat < 2 ^ (n + 1) := by
  rw [BitVec.toNat_or]
  refine Nat.or_lt_two_pow ?_ ?_
  · rw [BitVec.toNat_shiftLeft, Nat.shiftLeft_eq]
    refine (Nat.mod_le _ _).trans_lt ?_
    omega
  · have hpos := Nat.two_pow_pos n
    have hb : ((BitVec.ofBool b).setWidth 8).toNat ≤ 1 := by cases b <;> decide
    omega

theorem packShift_packing {s : State} (h : Packing s) (b : Bool) (hfull : s.bitCnt + 1 ≠ 8) : Packing (packShift b s) := by
  obtain ⟨h7, hacc⟩ := h
  exact ⟨show s.bitCnt + 1 ≤ 7 by omega, acc_shift_lt hacc b⟩

/-- Outside `CMP.HUF` only the range of `BITCNT` is left. -/
theorem packerInv_of_not_cmpHuf {s : State} (h : phaseCommand s.phase ≠ some .cmpHuf) (h8 : s.bitCnt ≤ 8) : PackerInv s := by
  refine ⟨h8, ?_⟩
  split
  case h_4 => trivial
  all_goals rename_i hp; exact absurd (by rw [hp]; rfl) h

section
variable {s : State}

/-! ### Pass 2 -/

theorem pass2Loop_packerInv (h : Packing s) : Yields PackerInv (pass2Loop s) := by
  obtain ⟨h7, hacc⟩ := h
  have h8 : s.bitCnt ≤ 8 := Nat.le_succ_of_le h7
  unfold pass2Loop packFlush
  split
  · split
    · rename_i hpos
      exact ⟨h8, hpos, h7, hacc⟩
    · exact ⟨h8, trivial⟩
  · exact ⟨h8, h7, hacc⟩

/-- The bits of a code are packed until the accumulator is full (R461, R462). -/
theorem packBits_packerInv (bits : List Bool) (h : Packing s) : Yields PackerInv (packBits pass2Packed bits s) := by
  induction bits generalizing s with
  | nil => exact pass2Loop_packerInv (s := { s with remain := s.remain - 1 }) h
  | cons b rest ih =>
    unfold packBits
    split
    · rename_i hfull
      exact ⟨hfull.le, hfull⟩
    · rename_i hfull
      exact ih (packShift_packing h b hfull)

theorem pass2Byte_packerInv (b : Byte) (h : Packing s) : Yields PackerInv (pass2Byte b s) := by
  unfold pass2Byte
  split
  · exact ⟨Nat.le_succ_of_le h.1, trivial⟩
  · exact packBits_packerInv _ h

theorem pass2Step_packerInv {p : PackAt} (hp : s.phase = .hufPass2 p) (h : PackerInv s) (a : Answer) :
    Yields PackerInv (pass2Step p a s) := by
  obtain ⟨h8, h⟩ := h
  rw [hp] at h
  cases p with
  | read => exact yields_rd (fun _ => ⟨h8, trivial⟩) ⟨h8, trivial⟩ fun b => pass2Byte_packerInv b (s := afterByte s) h
  | flush rest => exact yields_wr (fun _ => ⟨h8, trivial⟩) (packBits_packerInv rest (packInit_packing _))

theorem rewindStep_packerInv (h8 : s.bitCnt ≤ 8) (a : Answer) : Yields PackerInv (rewindStep a s) := by
  cases a with
  | err pos kept => exact ⟨h8, trivial⟩
  | ok => exact pass2Loop_packerInv (packInit_packing s)
  | okChanged bytes => exact pass2Loop_packerInv (packInit_packing s)

/-! ### Before pass 2, and after its last byte -/

theorem writeAll_packerInv {mk : Byte → List Byte → Phase} {done : State → Result}
    (hm : ∀ b rest, PackerInv { s with phase := mk b rest }) (hd : Yields PackerInv (done s)) (bytes : List Byte) :
    Yields PackerInv (writeAll mk done bytes s) := by
  cases bytes with
  | nil => exact hd
  | cons b rest => exact hm b rest

theorem tableWrites_packerInv (h8 : s.bitCnt ≤ 8) (bytes : List Byte) :
    Yields PackerInv (writeAll .hufTabW (issue .hufRewind) bytes s) :=
  writeAll_packerInv (mk := .hufTabW) (done := issue .hufRewind) (fun _ _ => ⟨h8, trivial⟩) ⟨h8, trivial⟩ bytes

theorem headerWrites_packerInv (h8 : s.bitCnt ≤ 8) (bytes : List Byte) :
    Yields PackerInv (writeAll .hufHdrW headerWritten bytes s) := by
  refine writeAll_packerInv (mk := .hufHdrW) (fun _ _ => ⟨h8, trivial⟩) ?_ bytes
  unfold headerWritten
  split
  · exact ⟨h8, trivial⟩
  · exact tableWrites_packerInv h8 _

theorem pass1Eof_packerInv (h8 : s.bitCnt ≤ 8) : Yields PackerInv (pass1Eof s) := by
  unfold pass1Eof
  split
  · exact headerWrites_packerInv (s := endOfPass1 s) h8 _
  · split
    · trivial
    · exact headerWrites_packerInv (by exact h8) _

theorem pass1Byte_packerInv (b : Byte) (h8 : s.bitCnt ≤ 8) : Yields PackerInv (pass1Byte b s) := by
  unfold pass1Byte
  split <;> exact ⟨h8, trivial⟩

/-! ### The step -/

theorem exec_cmpHuf_packerInv (hi : phaseCommand s.phase = some .cmpHuf) (h : PackerInv s) :
    Yields PackerInv (exec .cmpHuf s) := by
  have h8 := h.1
  refine running_cases hi nofun nofun ?_ ?_ ?_ ?_ ?_ ?_ nofun nofun nofun
  · intro _ hp
    rw [exec_hufPass1 hp]
    exact yields_transact fun a rest =>
      yields_rd (fun _ => ⟨h8, trivial⟩) (pass1Eof_packerInv h8) fun b => pass1Byte_packerInv b (by exact h8)
  · intro b rest _ hp
    rw [exec_hufHdrW hp]
    exact yields_transact fun a _ => yields_wr (fun _ => ⟨h8, trivial⟩) (headerWrites_packerInv (by exact h8) rest)
  · intro b rest _ hp
    rw [exec_hufTabW hp]
    exact yields_transact fun a _ => yields_wr (fun _ => ⟨h8, trivial⟩) (tableWrites_packerInv (by exact h8) rest)
  · intro _ hp
    rw [exec_hufRewind hp]
    exact yields_transact fun a _ => rewindStep_packerInv (by exact h8) a
  · intro p _ hp
    rw [exec_hufPass2 hp]
    exact yields_transact fun a rest => pass2Step_packerInv (s := { s with answers := rest }) hp h a
  · intro _ hp
    rw [exec_hufFlush hp]
    exact yields_transact fun a _ => yields_wr (fun _ => ⟨h8, trivial⟩) ⟨Nat.zero_le 8, trivial⟩

/-- Only `CMP.HUF` packs bits. -/
theorem exec_bitCnt_kept {i : Instr} {t : State} (hi : i ≠ .cmpHuf) (h : exec i s = .next t) : t.bitCnt = s.bitCnt := by
  cases i with
  | cmpRle => exact (congrArg (·.1.bitCnt) ((execCmpRle_frame s).of_next h) :)
  | dcmpRle => exact (congrArg (·.1.bitCnt) ((execDcmpRle_frame s).of_next h) :)
  | cmpHuf => exact absurd rfl hi
  | dcmpHuf => exact (congrArg State.bitCnt (exec_dcmpHuf_frame h) :)
  | invalid w =>
    rcases exec_next_phase h with hp | hr
    · simp only [exec, execInvalid, hp] at h
      cases h; rfl
    · exact running_cases hr nofun nofun nofun nofun nofun nofun nofun nofun nofun nofun nofun

theorem exec_running_packerInv {i : Instr} {t : State} (hi : phaseCommand s.phase = some i) (h : PackerInv s)
    (he : exec i s = .next t) : PackerInv t := by
  by_cases hc : i = .cmpHuf
  · subst hc
    exact (exec_cmpHuf_packerInv hi h).of_next he
  · exact packerInv_of_not_cmpHuf (exec_phaseCommand_ne hi hc he) ((exec_bitCnt_kept hc he).trans_le h.1)

theorem exec_start_packerInv {i : Instr} {v : Word} {t : State} (hp : s.phase = .idle) (h : PackerInv s)
    (he : exec i (startCommand v s) = .next t) : PackerInv t := by
  rcases exec_idle_cases (s := startCommand v s) hp he with
    ⟨-, rfl⟩ | ⟨-, rfl⟩ | ⟨-, rfl⟩ | ⟨-, rfl⟩ | ⟨w, -, rfl⟩ <;> exact ⟨h.1, trivial⟩

end

theorem packerInv_engineInv : EngineInv PackerInv where
  host h ht := (congrArg PackerInv ht).mpr h
  reset := ⟨Nat.zero_le 8, trivial⟩
  start := exec_start_packerInv
  running := exec_running_packerInv

/-- Settles O34: a `PackBit` either fills the accumulator, whose write clears it, or leaves it one bit longer and below its
bound; pass 2 starts from the empty accumulator, and nothing outside it but `PackInit` touches `ACC` and `BITCNT`. -/
theorem stepKeepsThePacker : Obligations.StepKeepsThePacker := fun _ _ => packerInv_engineInv.step

/-! ## `DECODED` stays below `ORIG_SIZE` (R417, R471) -/

/-- Outside `DCMP.HUF` the invariant says nothing. -/
theorem decodedInv_of_not_dcmpHuf {s : State} (h : phaseCommand s.phase ≠ some .dcmpHuf) : DecodedInv s := by
  unfold DecodedInv
  split
  case h_2 => rename_i hp; exact absurd (by rw [hp]; rfl) h
  case h_3 => rename_i hp; exact absurd (by rw [hp]; rfl) h
  all_goals trivial

section
variable {s : State}

/-- The table is read only for a size that is not 0 (R517). -/
theorem headerRead_decodedInv (s : State) : Yields DecodedInv (headerRead s) := by
  unfold headerRead
  split
  · trivial
  · rename_i hsize
    exact hsize

theorem headerByte_decodedInv (got : List Byte) (b : Byte) (s : State) : Yields DecodedInv (headerByte got b s) := by
  unfold headerByte
  split
  · split <;> trivial
  · split
    · trivial
    · split
      · exact headerRead_decodedInv _
      · trivial

/-- The body begins with no symbol decoded (R470). -/
theorem tableRead_decodedInv (h : s.origSize ≠ 0) : Yields DecodedInv (tableRead s) := by
  unfold tableRead
  split
  · trivial
  · split
    · trivial
    · exact show 0 < s.origSize by bv_omega

theorem tableByte_decodedInv (left : Nat) (got : List Byte) (b : Byte) (h : s.origSize ≠ 0) :
    Yields DecodedInv (tableByte left got b s) := by
  unfold tableByte
  split
  · exact h
  · split
    · exact tableRead_decodedInv h
    · exact h

theorem walkBits_decodedInv (byte : Byte) (k : Nat) (h : s.decoded < s.origSize) :
    Yields DecodedInv (walkBits byte k s) := by
  induction k generalizing s with
  | zero => exact h
  | succ k ih =>
    unfold walkBits
    split
    · trivial
    · split
      · exact h
      · exact ih h

/-- One more symbol is not the last, or the command has finished (R471). -/
theorem bodyWritten_decodedInv (byte : Byte) (left : Nat) (h : s.decoded < s.origSize) :
    Yields DecodedInv (bodyWritten byte left s) := by
  unfold bodyWritten
  split
  · trivial
  · rename_i hlast
    exact walkBits_decodedInv byte left (show s.decoded + 1 < s.origSize by bv_omega)

theorem bodyStep_decodedInv (p : BodyAt) (a : Answer) (h : s.decoded < s.origSize) :
    Yields DecodedInv (bodyStep p a s) := by
  cases p with
  | read => exact yields_rd (fun _ => trivial) trivial fun byte => walkBits_decodedInv byte 8 (by exact h)
  | emit byte left => exact yields_wr (fun _ => trivial) (bodyWritten_decodedInv byte left (by exact h))

theorem exec_dcmpHuf_decodedInv (hi : phaseCommand s.phase = some .dcmpHuf) (h : DecodedInv s) :
    Yields DecodedInv (exec .dcmpHuf s) := by
  unfold DecodedInv at h
  refine running_cases hi nofun nofun nofun nofun nofun nofun nofun nofun ?_ ?_ ?_
  · intro got _ hp
    rw [exec_hufHdrR hp]
    exact yields_transact fun a _ => yields_rd (fun _ => trivial) trivial fun b => headerByte_decodedInv got b _
  · intro left got _ hp
    rw [hp] at h
    rw [exec_hufTabR hp]
    exact yields_transact fun a _ =>
      yields_rd (fun _ => trivial) trivial fun b => tableByte_decodedInv left got b (by exact h)
  · intro p _ hp
    rw [hp] at h
    rw [exec_hufBody hp]
    exact yields_transact fun a _ => bodyStep_decodedInv p a (by exact h)

theorem exec_running_decodedInv {i : Instr} {t : State} (hi : phaseCommand s.phase = some i) (h : DecodedInv s)
    (he : exec i s = .next t) : DecodedInv t := by
  by_cases hc : i = .dcmpHuf
  · subst hc
    exact (exec_dcmpHuf_decodedInv hi h).of_next he
  · exact decodedInv_of_not_dcmpHuf (exec_phaseCommand_ne hi hc he)

theorem exec_start_decodedInv {i : Instr} {v : Word} {t : State} (hp : s.phase = .idle)
    (he : exec i (startCommand v s) = .next t) : DecodedInv t := by
  rcases exec_idle_cases (s := startCommand v s) hp he with
    ⟨-, rfl⟩ | ⟨-, rfl⟩ | ⟨-, rfl⟩ | ⟨-, rfl⟩ | ⟨w, -, rfl⟩ <;> trivial

end

theorem decodedInv_engineInv : EngineInv DecodedInv where
  host h ht := (congrArg DecodedInv ht).mpr h
  reset := trivial
  start hp _ he := exec_start_decodedInv hp he
  running := exec_running_decodedInv

/-- Settles O35: the table is read only for a size that is not 0, the body begins with `DECODED` 0, and a symbol that is
counted either is the last or leaves one to come. -/
theorem stepKeepsDecodedBelowSize : Obligations.StepKeepsDecodedBelowSize := fun _ _ => decodedInv_engineInv.step

/-! ## The walk of the body (R470 to R474) -/

section
variable {s s1 : State} {byte : Byte} {k : Nat}

theorem bodyWritten_last (h : s.decoded + 1 = s.origSize) :
    bodyWritten byte k s = .next (finish { s with decoded := s.decoded + 1, cur := s.arena.root }) := if_pos h

theorem bodyWritten_more (h : s.decoded + 1 ≠ s.origSize) :
    bodyWritten byte k s = walkBits byte k { s with decoded := s.decoded + 1, cur := s.arena.root } := if_neg h

/-- A body byte that the host delivers is walked from `CUR`. -/
theorem exec_body_byte (hp : s.phase = .hufBody .read) (ha : takeAnswer s = some (.ok, s1))
    (hb : s.input[s.inPos]? = some byte) : exec .dcmpHuf s = walkBits byte 8 (afterByte s1) := by
  rw [exec_hufBody hp, transact_some ha]
  exact rd_byte rfl (by rw [takeAnswer_state ha]; exact hb)

/-- The answered write of a symbol appends it to `OUT`. -/
theorem exec_body_written {x : NodeId} (hp : s.phase = .hufBody (.emit byte k)) (ha : takeAnswer s = some (.ok, s1))
    (hc : s.cur = some x) :
    exec .dcmpHuf s = bodyWritten byte k (afterWrite (s.arena.node[x]).sym s1) := by
  have hsym : curSym s1 = (s.arena.node[x]).sym := by
    rw [takeAnswer_state ha]
    simp only [curSym, hc]
  rw [exec_hufBody hp, transact_some ha, ← hsym]
  exact wr_ok (a := .ok) (k := bodyWritten byte k) rfl

/-- Bits that lead through internal nodes leave `CUR` at the last of them, with the next bit to be examined. -/
theorem walkBits_to_bit {pre post : List Bool} {bit : Bool} {x z : NodeId} (hc : s.cur = some x)
    (hk : bitsBelow byte k = pre ++ bit :: post) (ht : Through s.arena.node x pre z) :
    walkBits byte k s = walkBits byte (post.length + 1) { s with cur := some z } ∧ byte.getLsbD post.length = bit := by
  obtain ⟨hw, hrest⟩ := walkBits_through hc hk ht
  rw [List.length_cons, bitsBelow_succ] at hrest
  exact ⟨hw, (List.cons.inj hrest).1⟩

end

/-- Settles O28: both ways into the walk leave `CUR` at its first node, and the walk stops at the first bit that leads to no
internal node. -/
theorem bodyWalkFollowsTheBits : Obligations.BodyWalkFollowsTheBits := by
  intro s s1 u byte k x ha hcase
  have hs := takeAnswer_state ha
  obtain ⟨hx, harena⟩ : exec .dcmpHuf s = walkBits byte k { u with cur := some x } ∧ u.arena = s.arena := by
    generalize s1.answers = rest at hs
    subst hs
    rcases hcase with ⟨hp, hb, rfl, hc, rfl⟩ | ⟨y, hp, hc, hr, hmore, rfl⟩
    · exact ⟨by rw [exec_body_byte hp ha hb, ← hc]; rfl, rfl⟩
    · refine ⟨?_, rfl⟩
      rw [exec_body_written hp ha hc, bodyWritten_more (by exact hmore), ← hr]
      rfl
  rw [hx, ← harena]
  refine ⟨?_, ?_, ?_⟩
  · intro pre bit post z y hk ht hb hleaf
    obtain ⟨hw, hbit⟩ := walkBits_to_bit (s := { u with cur := some x }) rfl hk ht
    subst hbit
    exact ⟨hw.trans (walkBits_leaf rfl hb hleaf), rfl⟩
  · intro pre bit post z hk ht hb
    obtain ⟨hw, hbit⟩ := walkBits_to_bit (s := { u with cur := some x }) rfl hk ht
    subst hbit
    exact hw.trans (walkBits_absent rfl hb)
  · intro z ht
    exact (walkBits_through (s := { u with cur := some x }) rfl (List.append_nil _).symm ht).1

/-- Settles O29: the answered write makes the count `ORIG_SIZE`, and `bodyWritten` finishes before it walks. -/
theorem bodyStopsAtTheSize : Obligations.BodyStopsAtTheSize := by
  intro s s1 byte left x hp ha hc hlast
  have hs := takeAnswer_state ha
  rw [exec_body_written hp ha hc]
  generalize s1.answers = rest at hs
  subst hs
  rw [bodyWritten_last (by exact hlast), ← hlast]
  rfl

end Sys2Proof.Machine

/-! The statements of 48_commands.md: the start of each command and its dispatch, and the commands run to their end. -/

namespace Sys2Proof.Machine

/-! ## The start of a command (R510, R511, R518) -/

/-- The host's write to `CMD` while no command runs starts the command of the word (R510, R511). -/
theorem step_writeCmd {s : State} {v : Word} {rest : List HostOp} (ha : nextAgent s = .host)
    (hp : s.program = .memWrite (.offset 0x00) 4 v :: rest) (hb : s.status.busy = false) :
    step s = exec (decode v) (startCommand v { s with program := rest, turns := s.turns.tail }) := by
  rw [step_memWrite ha (by decide) (by decide) hp, windowWrite, if_neg (by simpa using hb)]
  rfl

/-- A word placed to run next is the host's next operation, and the host moves (R122). -/
theorem nextAgent_placeCommand (v : Word) (s : State) : nextAgent (placeCommand v s) = .host := rfl

theorem decodeTableWord_word {w : Nat} (hw : w < 2 ^ 32) : decodeTableWord 32 w = some (decode (BitVec.ofNat 32 w)) := by
  rw [decodeTableWord, decodeBits, if_pos ⟨Nat.le_refl 32, hw⟩]

/-- Settles O5: the write reaches `CMD`, and a placed word is such a write by the host that moves next. -/
theorem stepStartsTheWrittenCommand : Obligations.StepStartsTheWrittenCommand := by
  refine ⟨fun s v rest ha hp hb => step_writeCmd ha hp hb, fun s w i hw hi => ?_⟩
  obtain rfl : decode (BitVec.ofNat 32 w) = i := Option.some.inj ((decodeTableWord_word hw).symm.trans hi)
  rw [State.withFetchWord, Nat.mod_eq_of_lt hw, step_writeCmd (nextAgent_placeCommand _ s) rfl rfl]
  rfl

/-- Settles O16: `IDLE` is the one phase in which `INVALID` has a meaning, and that is its error. -/
theorem invalidWordRaisesInvalidAlgorithm : Obligations.InvalidWordRaisesInvalidAlgorithm := by
  intro s v hp _
  refine ⟨?_, by decide⟩
  rw [exec, execInvalid, startCommand_phase, hp]
  rfl

/-- Settles O17: the first statement of each command, from `IDLE`. -/
theorem startStepOfEachCommand : Obligations.StartStepOfEachCommand := by
  intro s v hp
  refine ⟨?_, ?_, ?_, ?_, rfl⟩
  · rw [exec, execCmpRle, startCommand_phase, hp]; rfl
  · rw [exec, execDcmpRle, startCommand_phase, hp]; rfl
  · rw [exec, execCmpHuf, startCommand_phase, hp]; rfl
  · rw [exec, execDcmpHuf, startCommand_phase, hp]; rfl

/-! ## A byte of pass 2 (R516) -/

theorem pass2Byte_unseen {s : State} {b : Byte} (h : (entryAt s.code b).len = 0) :
    pass2Byte b s = .next (raise .inputMismatch s) := if_pos h

theorem pass2Byte_packs {s : State} {b : Byte} (h : (entryAt s.code b).len ≠ 0) :
    pass2Byte b s = packBits pass2Packed (codeBits (entryAt s.code b)) s := if_neg h

/-- Settles O27: the byte is read, and its entry has no code. -/
theorem unseenByteRaisesInputMismatch : Obligations.UnseenByteRaisesInputMismatch := by
  intro s s1 b hp ha hb hlen
  rw [exec_hufPass2 hp, transact_some ha, takeAnswer_state ha, pass2Step, rdOr, rd_byte rfl (by exact hb),
    pass2Byte_unseen (by exact hlen)]
  rfl

/-! ## The RLE commands, run to their end (R512, R513) -/

/-- What every step of a command leaves, a run of it leaves. -/
theorem commandRun_kept {α : Type} {i : Instr} {f : State → α} (hf : ∀ s t, exec i s = .next t → f t = f s) {k : Nat}
    {s t : State} (h : commandRun i k s = .next t) : f t = f s := by
  induction k generalizing s with
  | zero => cases h; rfl
  | succ k ih =>
    unfold commandRun at h
    split at h
    · rename_i u hu
      split at h
      · cases h; exact hf s t hu
      · exact (ih h).trans (hf s u hu)
    · cases h
    · cases h

theorem EndsIn.kept {α : Type} {i : Instr} {f : State → α} (hf : ∀ s t, exec i s = .next t → f t = f s) {k : Nat}
    {s t : State} (h : EndsIn i k s t) : f t = f s := by
  obtain ⟨-, -, hrun, -⟩ := h
  exact commandRun_kept hf hrun

section
variable {w : Word} {st : Status} {n : Nat} {out : List Byte} {s t : State}

/-- What a run from the start of a command leaves in the counters and at the position. -/
theorem Streamed.counts_from_start (h : Streamed st n out (startCommand w s) t) (h0 : s.inPos = 0) :
    t.inCount = BitVec.ofNat 64 n ∧ t.outCount = BitVec.ofNat 64 out.length ∧ t.inPos = n := by
  obtain ⟨-, -, -, hpos, hcnt, -, hocnt⟩ := h
  refine ⟨hcnt.trans (BitVec.zero_add _), hocnt.trans (BitVec.zero_add _), hpos.trans ?_⟩
  rw [startCommand_inPos, h0, Nat.zero_add]

end

theorem statusWord_finished : statusWord statusFinished = 0x00000002#32 := by decide

theorem statusWord_decEndStatus (bytes : List Byte) :
    statusWord (decEndStatus bytes) = if bytes.length % 2 = 0 then 0x00000002#32 else 0x00000602#32 := by
  unfold decEndStatus
  split <;> decide

/-- Settles O45: the run writes the RLE stream of the input, and each of its steps leaves the frame. -/
theorem cmpRleWritesTheRunPairs : Obligations.CmpRleWritesTheRunPairs := by
  intro s hp hh h0
  refine ⟨exec_idle_proceeds .cmpRle (by exact hp), ?_⟩
  obtain ⟨k, t, hk, hs⟩ := cmpRle_endsIn 0x00000000#32 hp hh h0
  have hframe := hk.kept (f := hideRleEnc) fun u v h => ((rleCommandsFrame u v).1 h).1
  obtain ⟨hcnt, hocnt, hpos⟩ := hs.counts_from_start h0
  obtain ⟨hst, -, hin, -, -, hout, -⟩ := hs
  exact ⟨k, t, hk, hst ▸ statusWord_finished, hout, hcnt, hocnt, (congrArg State.origSize hframe :),
    (congrArg State.nsym hframe :), hpos, hin, hframe⟩

/-- Settles O47: the run writes the bytes that the pairs stand for, and each of its steps leaves the frame. -/
theorem dcmpRleExpandsThePairs : Obligations.DcmpRleExpandsThePairs := by
  intro s hp hh h0
  refine ⟨exec_idle_proceeds .dcmpRle (by exact hp), ?_⟩
  obtain ⟨k, t, hk, hs⟩ := dcmpRle_endsIn 0x00000001#32 hp hh h0
  have hframe := hk.kept (f := hideRleDec) fun u v h => ((rleCommandsFrame u v).2 h).1
  obtain ⟨hcnt, hocnt, hpos⟩ := hs.counts_from_start h0
  obtain ⟨hst, -, hin, -, -, hout, -⟩ := hs
  exact ⟨k, t, hk, hst ▸ statusWord_decEndStatus s.input, hout, hcnt, hocnt, (congrArg State.origSize hframe :),
    (congrArg State.nsym hframe :), hpos, hin, hframe⟩

end Sys2Proof.Machine

namespace Sys2Proof.Machine

/-! ## The frequencies that pass 1 counts (R302, R305) -/

theorem distinctCount_clear : distinctCount (Vector.replicate 256 0) = 0 := by
  rw [distinctCount, Vector.toList_replicate, List.countP_replicate]
  rfl

theorem vector_ext_entryAt {α : Type} {v u : Vector α 256} (h : ∀ c, entryAt v c = entryAt u c) : v = u := by
  apply Vector.toList_inj.mp
  rw [← map_entryAt_allSymbols, ← map_entryAt_allSymbols]
  exact List.map_congr_left fun c _ => h c

theorem frequencies_nil : frequencies [] = Vector.replicate 256 0 :=
  vector_ext_entryAt fun c => (entryAt_frequencies [] c).trans (Vector.getElem_replicate _).symm

/-- One more byte adds 1 to its own entry. -/
theorem frequencies_concat (bytes : List Byte) (b : Byte) :
    frequencies (bytes ++ [b]) = entryPut (frequencies bytes) b (entryAt (frequencies bytes) b + 1) := by
  refine vector_ext_entryAt fun c => ?_
  rw [entryAt_entryPut, entryAt_frequencies, entryAt_frequencies, entryAt_frequencies, List.count_append]
  split
  · rename_i hc
    rw [hc, List.count_singleton_self, BitVec.ofNat_add]
    rfl
  · rename_i hc
    rw [List.count_singleton, if_neg (by simpa using Ne.symm hc), Nat.add_zero]

theorem CountsFit.of_append {bytes more : List Byte} (h : CountsFit (bytes ++ more)) : CountsFit bytes := by
  intro b
  refine Nat.lt_of_le_of_lt ?_ (h b)
  rw [List.count_append]
  exact Nat.le_add_right _ _

/-- A byte whose count still fits with it has an entry below 0xFFFFFFFF. -/
theorem entryAt_frequencies_ne_max {bytes : List Byte} {b : Byte} (h : CountsFit (bytes ++ [b])) :
    entryAt (frequencies bytes) b ≠ 0xFFFFFFFF#32 := by
  intro hmax
  have hcount := entryAt_frequencies_toNat h.of_append b
  have hfit := h b
  rw [hmax] at hcount
  rw [List.count_append, List.count_singleton_self, ← hcount] at hfit
  exact absurd hfit (by decide)

theorem freqSum_frequencies {bytes : List Byte} (h : CountsFit bytes) : freqSum (frequencies bytes) = bytes.length := by
  induction bytes using List.reverseRecOn with
  | nil => rw [frequencies_nil, freqSum_clear, List.length_nil]
  | append_singleton bytes b ih =>
    rw [frequencies_concat, freqSum_count (entryAt_frequencies_ne_max h), ih h.of_append, List.length_append,
      List.length_singleton]

/-- Counts that fit have a sum that fits `TOTAL`. -/
theorem CountsFit.length_lt {bytes : List Byte} (h : CountsFit bytes) : bytes.length < 2 ^ 64 := by
  have hle := freqSum_le (frequencies bytes)
  rw [freqSum_frequencies h] at hle
  omega

theorem CountsFit.ofNat_length_eq_zero_iff {bytes : List Byte} (h : CountsFit bytes) :
    BitVec.ofNat 64 bytes.length = 0 ↔ bytes = [] := by
  rw [← BitVec.toNat_inj, BitVec.toNat_ofNat, Nat.mod_eq_of_lt h.length_lt, ← List.length_eq_zero_iff]
  rfl

/-! ## `CMP.HUF` up to its header (R302, R410, R514, R515) -/

/-- `s` after the bytes are written. -/
def afterWrites (bytes : List Byte) (s : State) : State :=
  { s with output := s.output ++ bytes, outCount := s.outCount + BitVec.ofNat 64 bytes.length }

theorem afterWrites_nil (s : State) : afterWrites [] s = s := by simp [afterWrites]

theorem afterWrites_cons (b : Byte) (bytes : List Byte) (s : State) :
    afterWrites (b :: bytes) s = afterWrites bytes (afterWrite b s) := by
  simp only [afterWrites, afterWrite, List.append_assoc, List.singleton_append, bitVec64_add_one_add, List.length_cons]

/-- `s` after pass 1 has read the bytes `bytes`, which are the first it counts. -/
def counted (bytes : List Byte) (s : State) : State :=
  { s with
    inPos := s.inPos + bytes.length
    inCount := s.inCount + BitVec.ofNat 64 bytes.length
    freq := frequencies bytes
    total := BitVec.ofNat 64 bytes.length }

theorem counted_nil (s : State) : counted [] s = { s with freq := Vector.replicate 256 0, total := 0 } := by
  simp [counted, frequencies_nil]

theorem counted_concat (bytes : List Byte) (b : Byte) (s : State) :
    counted (bytes ++ [b]) s =
      { afterByte (counted bytes s) with
        freq := entryPut (frequencies bytes) b (entryAt (frequencies bytes) b + 1)
        total := BitVec.ofNat 64 bytes.length + 1 } := by
  simp only [counted, afterByte, frequencies_concat, List.length_append, List.length_singleton, BitVec.ofNat_add,
    Nat.add_assoc, BitVec.add_assoc]
  rfl

section
variable {Q : State → Prop} {st : Status} {n k : Nat} {bytes rest out : List Byte} {s t : State}

/-- A start with the same streams and counters is as good. -/
theorem Streamed.of_sameStreams {u : State} (h : Streamed st n out u t) (hu : SameStreams s u) : Streamed st n out s t := by
  obtain ⟨hst, hh, hin, hpos, hcnt, hout, hocnt⟩ := h
  rw [hu.input] at hin
  rw [hu.inPos] at hpos
  rw [hu.inCount] at hcnt
  rw [hu.output] at hout
  rw [hu.outCount] at hocnt
  exact ⟨hst, hh, hin, hpos, hcnt, hout, hocnt⟩

/-- The bytes are written and the command finishes. -/
theorem streamed_finish_afterWrites (hh : Honest s) (p : Phase) :
    Streamed statusFinished 0 bytes s (finish { afterWrites bytes s with phase := p }) :=
  ⟨rfl, hh, rfl, rfl, (BitVec.add_zero _).symm, rfl, rfl⟩

theorem unread_counted (hu : unread s = bytes ++ rest) : unread (counted bytes s) = rest := by
  rw [unread] at hu
  rw [unread, counted, ← List.drop_drop, hu, List.drop_left]

/-- The bytes `bytes` of the input are counted one by one (R302). -/
theorem leadsWithin_counted (hfit : CountsFit bytes) (hh : Honest s) (hu : unread s = bytes ++ rest)
    (h : LeadsWithin .cmpHuf Q k (issue .hufPass1 (counted bytes s))) :
    LeadsWithin .cmpHuf Q (bytes.length + k) (issue .hufPass1 (counted [] s)) := by
  induction bytes using List.reverseRecOn generalizing rest k with
  | nil => rwa [List.length_nil, Nat.zero_add]
  | append_singleton bytes b ih =>
    rw [List.append_assoc] at hu
    rw [List.length_append, List.length_singleton, Nat.add_assoc, Nat.add_comm 1]
    refine ih hfit.of_append hu (.goesOn nofun ?_)
    rw [exec_hufPass1 rfl, transact_honest (by exact hh), rd_byte rfl (by exact (unread_eq_cons (unread_counted hu)).1),
      pass1Byte_counts (by exact entryAt_frequencies_ne_max hfit)]
    rwa [counted_concat] at h

/-- The `Eof` of pass 1 (R302). -/
theorem leadsWithin_pass1Eof (hh : Honest s) (hu : unread s = [])
    (h : LeadsWithin .cmpHuf Q k (pass1Eof { s with phase := .hufPass1 })) :
    LeadsWithin .cmpHuf Q (k + 1) (issue .hufPass1 s) := by
  refine .goesOn nofun ?_
  rw [exec_hufPass1 rfl, transact_honest (by exact hh), rd_eof rfl (by exact unread_eq_nil_iff.mp hu)]
  exact h

/-- `CMP.HUF` reads and counts its whole input first. -/
theorem LeadsWithin.cmpHuf_endsIn {w : Word} (hp : s.phase = .idle) (hh : Honest s) (hfit : CountsFit bytes)
    (hu : unread s = bytes)
    (h : LeadsWithin .cmpHuf Q k (pass1Eof { counted bytes (startCommand w s) with phase := .hufPass1 })) :
    ∃ t, EndsIn .cmpHuf (bytes.length + (k + 1) + 1) (startCommand w s) t ∧ Q t := by
  rw [← List.append_nil bytes] at hu
  refine LeadsWithin.endsIn hp ?_
  have hstart := leadsWithin_counted (s := startCommand w s) hfit hh hu
    (leadsWithin_pass1Eof (by exact hh) (unread_counted hu) h)
  rw [counted_nil] at hstart
  rwa [exec, execCmpHuf, startCommand_phase, hp]

/-- In a phase that writes bytes, an honest host takes them one by one (R11). -/
theorem leadsWithin_writeAll {mk : Byte → List Byte → Phase} {done : State → Result}
    (hx : ∀ {b : Byte} {rest : List Byte} {u : State}, u.phase = mk b rest →
      exec .cmpHuf u = transact (fun a => wr a b (writeAll mk done rest)) u)
    (hp : ∀ {b : Byte} {rest : List Byte}, mk b rest ≠ .idle) (hh : Honest s)
    (h : ∀ p, LeadsWithin .cmpHuf Q k (done { afterWrites bytes s with phase := p })) :
    LeadsWithin .cmpHuf Q (bytes.length + k) (writeAll mk done bytes s) := by
  induction bytes generalizing s with
  | nil =>
    have hdone := h s.phase
    rw [afterWrites_nil] at hdone
    rwa [List.length_nil, Nat.zero_add]
  | cons b bytes ih =>
    rw [List.length_cons, Nat.add_right_comm]
    refine .goesOn hp ?_
    rw [hx rfl, transact_honest (by exact hh), wr_ok rfl]
    refine ih (by exact hh) fun p => ?_
    rw [afterWrites_cons] at h
    exact h p

theorem pass1Eof_empty (h : s.total = 0) : pass1Eof s = writeHeader (endOfPass1 s) := if_pos h

theorem headerWritten_empty (h : s.total = 0) : headerWritten s = .next (finish s) := if_pos h

/-- The thirteen header bytes are written (R410). -/
theorem leadsWithin_writeHeader (hh : Honest s)
    (h : ∀ p, LeadsWithin .cmpHuf Q k
      (headerWritten { afterWrites (headerBytes Config.magic s.n s.total) s with phase := p })) :
    LeadsWithin .cmpHuf Q (13 + k) (writeHeader s) := by
  have hall := leadsWithin_writeAll exec_hufHdrW nofun hh h
  rwa [headerBytes_length] at hall

end

/-! ### An empty input (R164, R515) -/

theorem container_nil (magic : Vector Byte 4) : container magic [] = headerBytes magic 0 0 := by
  rw [container, if_pos rfl, List.append_nil, frequencies_nil, distinctCount_clear]
  rfl

theorem countsFit_nil : CountsFit [] := fun _ => Nat.two_pow_pos 32

/-- `CMP.HUF` writes the header of an empty container, and reads nothing. -/
theorem cmpHuf_nil_endsIn {s : State} (w : Word) (hp : s.phase = .idle) (hh : Honest s) (hu : unread s = []) :
    ∃ t, EndsIn .cmpHuf 15 (startCommand w s) t ∧
      Streamed statusFinished 0 (container Config.magic []) (startCommand w s) t ∧ t.origSize = 0 ∧ t.nsym = 0 := by
  refine LeadsWithin.cmpHuf_endsIn (k := 13) hp hh countsFit_nil hu ?_
  have hcount : BitVec.ofNat 9 (distinctCount (Vector.replicate 256 0)) = 0 := by rw [distinctCount_clear]; rfl
  rw [counted_nil, pass1Eof_empty rfl, container_nil]
  refine leadsWithin_writeHeader (k := 0) (by exact hh) fun p => ?_
  rw [headerWritten_empty rfl, endOfPass1_n, hcount]
  refine .ended rfl ⟨(streamed_finish_afterWrites (by exact hh) p).of_sameStreams ?_, rfl, hcount⟩
  exact ⟨rfl, rfl, rfl, rfl, rfl, rfl, rfl, rfl, rfl, rfl, rfl⟩

/-- The header of an empty container: the magic, and nine zero bytes (R164). -/
theorem headerBytes_zero (magic : Vector Byte 4) : headerBytes magic 0 0 = magic.toList ++ [0, 0, 0, 0, 0, 0, 0, 0, 0] := by
  rw [headerBytes, List.append_assoc]
  exact congrArg (magic.toList ++ ·) (by decide)

/-- Settles O49: pass 1 ends at once, and the header is all that is written. -/
theorem emptyInputGivesTheEmptyContainer : Obligations.EmptyInputGivesTheEmptyContainer := by
  intro s hp hh hin
  have hu : unread s = [] := by rw [unread, hin, List.drop_nil]
  obtain ⟨t, ht, hs, hsize, hnsym⟩ := cmpHuf_nil_endsIn 0x00000100#32 hp hh hu
  rw [container_nil, headerBytes_zero] at hs
  obtain ⟨hst, -, -, hpos, hcnt, hout, hocnt⟩ := hs
  refine ⟨t, ht, hst ▸ statusWord_finished, hout.trans (List.append_assoc ..).symm, hcnt, hocnt.trans ?_, hsize, hnsym,
    hpos⟩
  rw [List.length_append, Vector.length_toList]
  rfl

end Sys2Proof.Machine

namespace Sys2Proof.Machine

/-! ## The bits of the body as bytes (R112, R163, R461, R464) -/

/-- The accumulator after the bits `bits` are packed into it (R461). -/
def packedAcc (bits : List Bool) : Byte := bits.foldl (fun v b => v <<< 1 ||| (BitVec.ofBool b).setWidth 8) 0

theorem packedAcc_concat (bits : List Bool) (b : Bool) :
    packedAcc (bits ++ [b]) = packedAcc bits <<< 1 ||| (BitVec.ofBool b).setWidth 8 := by
  simp [packedAcc]

theorem map_getD_range (bits : List Bool) : (List.range bits.length).map (fun j => bits.getD j false) = bits := by
  refine List.ext_getElem (by simp) fun i h1 h2 => ?_
  simp [h2]

/-- The last bit packed stands lowest. -/
theorem packedAcc_getLsbD (bits : List Bool) (i : Nat) :
    (packedAcc bits).getLsbD i = (decide (i < 8 ∧ i < bits.length) && bits.getD (bits.length - 1 - i) false) := by
  rw [← shiftedBits_getLsbD (fun j => bits.getD j false), packedAcc]
  conv_lhs => rw [← map_getD_range bits, List.foldl_map]

/-- Shifted up by the bits that are missing, the accumulator is the byte of its bits (R112, R464). -/
theorem packedAcc_shiftLeft {bits : List Bool} (h : bits.length ≤ 8) :
    packedAcc bits <<< (8 - bits.length) = byteOfBits bits := by
  refine BitVec.eq_of_getLsbD_eq fun i hi => ?_
  have hbit := byteOfBits_getLsbD bits (j := 7 - i) (by omega)
  rw [show 7 - (7 - i) = i by omega] at hbit
  rw [hbit, BitVec.getLsbD_shiftLeft, packedAcc_getLsbD]
  rcases Nat.lt_or_ge i (8 - bits.length) with hlow | hlow
  · rw [List.getD_eq_default bits false (n := 7 - i) (by omega)]
    simp [hlow]
  · have hin : i - (8 - bits.length) < 8 ∧ i - (8 - bits.length) < bits.length := by omega
    rw [show bits.length - 1 - (i - (8 - bits.length)) = 7 - i by omega]
    simp [hi, hin, not_lt.mpr hlow]

theorem byteOfBits_append {bits : List Bool} (h : bits.length = 8) (more : List Bool) :
    byteOfBits (bits ++ more) = byteOfBits bits := by
  refine List.foldl_ext _ _ _ fun v j hj => ?_
  rw [List.getD_append _ _ _ _ (by rw [h]; exact List.mem_range.mp hj)]

theorem packedBytes_of_ne_nil {bits : List Bool} (h : bits ≠ []) :
    packedBytes bits = byteOfBits bits :: packedBytes (bits.drop 8) := by
  have hpos := List.length_pos_iff.mpr h
  have hlen : (bits.length + 7) / 8 = ((bits.drop 8).length + 7) / 8 + 1 := by rw [List.length_drop]; omega
  rw [packedBytes, hlen, List.range_succ_eq_map, List.map_cons, List.map_map, packedBytes]
  refine congrArg (byteOfBits bits :: ·) (List.map_congr_left fun k _ => ?_)
  simp [List.drop_drop, Nat.mul_succ, Nat.add_comm]

/-- Fewer than nine bits make one byte. -/
theorem packedBytes_flush {bits : List Bool} (h : bits ≠ []) (h8 : bits.length ≤ 8) :
    packedBytes bits = [packedAcc bits <<< (8 - bits.length)] := by
  rw [packedBytes_of_ne_nil h, List.drop_eq_nil_of_le h8, packedAcc_shiftLeft h8]
  rfl

/-- Eight bits make the first byte. -/
theorem packedBytes_append {bits : List Bool} (h : bits.length = 8) (more : List Bool) :
    packedBytes (bits ++ more) = packedAcc bits :: packedBytes more := by
  have hne : bits ++ more ≠ [] := by
    rw [← List.length_pos_iff, List.length_append]; omega
  rw [packedBytes_of_ne_nil hne, byteOfBits_append h, ← packedAcc_shiftLeft h.le, List.drop_left' h, h]
  simp

/-! ## Pass 2 to its end (R460 to R464, R516) -/

/-- The bits `bits` are packed and not yet written. -/
def Pending (bits : List Bool) (s : State) : Prop :=
  bits.length < 8 ∧ s.bitCnt = bits.length ∧ s.acc = packedAcc bits

theorem pending_nil {s : State} (hcnt : s.bitCnt = 0) (hacc : s.acc = 0) : Pending [] s :=
  ⟨Nat.succ_pos 7, hcnt, hacc⟩

/-- `t` is after `s` once the command has read `n` bytes, written the bytes `out` and finished, with nothing else written but
what pass 2 may write. -/
def PackedAfter (n : Nat) (out : List Byte) (s t : State) : Prop :=
  Streamed statusFinished n out s t ∧ hidePacked t = hidePacked s

section
variable {Q : State → Prop} {n : Nat} {bits pending : List Bool} {bytes rest out : List Byte} {s t : State}
  {code : Vector CodeEntry 256}

theorem PackedAfter.of_afterByte (h : PackedAfter n out (afterByte s) t) : PackedAfter (n + 1) out s t :=
  ⟨h.1.of_afterByte, h.2⟩

theorem PackedAfter.of_afterWrite {b : Byte} (h : PackedAfter n out (afterWrite b s) t) : PackedAfter n (b :: out) s t :=
  ⟨h.1.of_afterWrite, h.2⟩

/-- The host answers the transaction that pass 2 issues, honestly. -/
theorem leads_pass2Step {p : PackAt} (hh : Honest s)
    (h : Leads .cmpHuf Q (pass2Step p .ok { s with phase := .hufPass2 p })) :
    Leads .cmpHuf Q (issue (.hufPass2 p) s) := by
  refine .goesOn nofun ?_
  rw [exec_hufPass2 rfl, transact_honest (by exact hh)]
  exact h

/-- From the head of the loop on, with the bytes `rest` to be read: they are all read, and the bits that are pending and those
of their codes are written. -/
def PacksFrom (code : Vector CodeEntry 256) (rest : List Byte) : Prop :=
  ∀ s bits, Honest s → unread s = rest → s.code = code → s.remain = BitVec.ofNat 64 rest.length → Pending bits s →
    Leads .cmpHuf (PackedAfter rest.length (packedBytes (bits ++ bodyBits code rest)) s) (pass2Loop s)

/-- The bits of a code are packed, a byte being written whenever eight are there (R461, R462). -/
theorem leads_packBits (ih : PacksFrom code rest) (hh : Honest s) (hu : unread s = rest) (hc : s.code = code)
    (hr : s.remain = BitVec.ofNat 64 (rest.length + 1)) (hpend : Pending pending s) :
    Leads .cmpHuf (PackedAfter rest.length (packedBytes (pending ++ bits ++ bodyBits code rest)) s)
      (packBits pass2Packed bits s) := by
  induction bits generalizing s pending with
  | nil =>
    rw [List.append_nil]
    refine ih { s with remain := s.remain - 1 } pending hh hu hc ?_ hpend
    show s.remain - 1 = _
    rw [hr, BitVec.ofNat_add]
    exact BitVec.add_sub_cancel _ _
  | cons b bits ihb =>
    obtain ⟨hlt, hcnt, hacc⟩ := hpend
    have hshift : (packShift b s).acc = packedAcc (pending ++ [b]) := by
      rw [packShift_acc, packedAcc_concat, hacc]
    have hlen : (pending ++ [b]).length = s.bitCnt + 1 := by rw [List.length_append, List.length_singleton, hcnt]
    rw [List.append_cons pending b bits]
    unfold packBits
    split
    · rename_i hfull
      refine leads_pass2Step (by exact hh) ?_
      rw [pass2Step, wr_ok rfl, List.append_assoc, packedBytes_append (hlen.trans hfull), ← hshift]
      have hrest := ihb hh hu hc hr (pending_nil rfl rfl)
        (s := packInit (afterWrite (packShift b s).acc { packShift b s with phase := .hufPass2 (.flush bits) }))
      exact hrest.imp fun t ht => PackedAfter.of_afterWrite (s := packShift b s) ht
    · rename_i hfull
      exact ihb (s := packShift b s) hh hu hc hr ⟨by omega, hlen.symm, hshift⟩

theorem bodyBits_cons (code : Vector CodeEntry 256) (b : Byte) (bytes : List Byte) :
    bodyBits code (b :: bytes) = codeBits (entryAt code b) ++ bodyBits code bytes := List.flatMap_cons

/-- The bits that are left over are written as the last byte (R464). -/
theorem leads_packFlush (hh : Honest s) (hpend : Pending bits s) :
    Leads .cmpHuf (PackedAfter 0 (packedBytes bits) s) (packFlush s) := by
  obtain ⟨hlt, hcnt, hacc⟩ := hpend
  unfold packFlush
  split
  · rename_i hpos
    have hne : bits ≠ [] := List.length_pos_iff.mp (hcnt ▸ hpos)
    refine .goesOn nofun ?_
    rw [exec_hufFlush rfl, transact_honest (by exact hh), wr_ok rfl, packedBytes_flush hne hlt.le, ← hacc, ← hcnt]
    exact .ended rfl (PackedAfter.of_afterWrite ⟨streamed_finish (by exact hh), rfl⟩)
  · rename_i hzero
    obtain rfl : bits = [] := List.length_eq_zero_iff.mp (by omega)
    exact .ended rfl ⟨streamed_finish hh, rfl⟩

theorem packsFrom (hcoded : ∀ b ∈ rest, (entryAt code b).len ≠ 0) (hlen : rest.length < 2 ^ 64) :
    PacksFrom code rest := by
  induction rest with
  | nil =>
    intro s bits hh hu hc hr hpend
    rw [pass2Loop, if_pos (by exact hr)]
    have hflush := leads_packFlush hh hpend
    rwa [← List.append_nil bits] at hflush
  | cons b rest ih =>
    intro s bits hh hu hc hr hpend
    rw [List.length_cons] at hlen hr
    have hne : s.remain ≠ 0 := by
      rw [hr, ne_eq, ← BitVec.toNat_inj, BitVec.toNat_ofNat, Nat.mod_eq_of_lt hlen]
      exact Nat.succ_ne_zero _
    obtain ⟨hb, hrest⟩ := unread_eq_cons hu
    rw [pass2Loop, if_neg hne, bodyBits_cons, ← List.append_assoc]
    refine leads_pass2Step hh ?_
    rw [pass2Step, rdOr, rd_byte rfl (by exact hb),
      pass2Byte_packs (by exact hc ▸ hcoded b List.mem_cons_self)]
    subst hc
    exact (leads_packBits (s := afterByte { s with phase := .hufPass2 .read })
      (ih (fun c hmem => hcoded c (List.mem_cons_of_mem b hmem)) (by omega)) hh hrest rfl hr hpend).imp
      fun t ht => PackedAfter.of_afterByte ht

/-- Pass 2 rewinds the input and reads all of it (R516). -/
theorem leads_pass2 (hcoded : ∀ b ∈ s.input, (entryAt s.code b).len ≠ 0) (hlen : s.input.length < 2 ^ 64)
    (hh : Honest s) (htotal : s.total = BitVec.ofNat 64 s.input.length) :
    Leads .cmpHuf (PackedAfter s.input.length (packedBytes (bodyBits s.code s.input)) { s with inPos := 0 })
      (issue .hufRewind s) := by
  refine .goesOn nofun ?_
  rw [exec_hufRewind rfl, transact_honest (by exact hh)]
  exact packsFrom hcoded hlen { packInit { s with phase := .hufRewind, inPos := 0 } with remain := s.total } [] hh
    (by exact unread_of_inPos_zero rfl) rfl htotal (pending_nil rfl rfl)

end

end Sys2Proof.Machine

namespace Sys2Proof.Machine

/-! ## `CMP.HUF` on an input that is not empty (R514, R516) -/

theorem Leads.exists_within {i : Instr} {Q : State → Prop} {r : Result} (h : Leads i Q r) :
    ∃ k, LeadsWithin i Q k r := by
  induction h with
  | ended hp hq => exact ⟨0, .ended hp hq⟩
  | goesOn hp _ ih =>
    obtain ⟨k, hk⟩ := ih
    exact ⟨k + 1, .goesOn hp hk⟩

/-- By R338 the arena that `BuildTree` starts from does not matter for the codes. -/
theorem genCodes_eq_codesOf {freq : Vector Word 256} {a b : Arena} (h : buildTree freq a = some b) :
    genCodes b = codesOf freq := by
  obtain ⟨c, hc, -⟩ := buildTree_spec freq Arena.reset
  rw [codesOf, hc]
  exact (buildTreeDependsOnFrequenciesOnly freq a Arena.reset b c h hc).2

/-- Every byte of the input has a code (R383, R305). -/
theorem codesOf_len_ne_zero {bytes : List Byte} (hfit : CountsFit bytes) {b : Byte} (hb : b ∈ bytes) :
    (entryAt (codesOf (frequencies bytes)) b).len ≠ 0 := by
  obtain ⟨c, hc, -⟩ := buildTree_spec (frequencies bytes) Arena.reset
  rw [← genCodes_eq_codesOf hc, (codeTableProperties _ _ _ hc).1, entryAt_frequencies_ne_zero hfit]
  exact List.count_pos_iff.mpr hb

section
variable {k : Nat} {s t : State} {a : Arena} {bytes : List Byte}

/-- `s` at the end of pass 1 over the bytes `bytes`, with the tree `a` built (R302, R304, R333, R381). -/
def afterPass1 (bytes : List Byte) (a : Arena) (s : State) : State :=
  { endOfPass1 { counted bytes s with phase := .hufPass1 } with arena := a, code := genCodes a }

theorem pass1Eof_coded (h : s.total ≠ 0) (ha : buildTree s.freq s.arena = some a) :
    pass1Eof s = writeHeader { endOfPass1 s with arena := a, code := genCodes a } := by
  rw [pass1Eof, if_neg h, ha]

theorem headerWritten_table (h : s.total ≠ 0) : headerWritten s = writeTable s := if_neg h

theorem PackedAfter.of_afterWrites {n : Nat} {out : List Byte} (h : PackedAfter n out (afterWrites bytes s) t) :
    PackedAfter n (bytes ++ out) s t := by
  obtain ⟨⟨hst, hh, hin, hpos, hcnt, hout, hocnt⟩, hkept⟩ := h
  refine ⟨⟨hst, hh, hin, hpos, hcnt, hout.trans (List.append_assoc ..), hocnt.trans ?_⟩, hkept⟩
  rw [List.length_append, BitVec.ofNat_add, ← BitVec.add_assoc]
  rfl

/-- After pass 1, the header, the table and the packed body of the input are written (R410 to R412, R514). -/
theorem leadsWithin_encodes (hcoded : ∀ b ∈ s.input, (entryAt s.code b).len ≠ 0) (hlen : s.input.length < 2 ^ 64)
    (hh : Honest s) (htotal : s.total = BitVec.ofNat 64 s.input.length) (hne : s.total ≠ 0) :
    ∃ k, LeadsWithin .cmpHuf (PackedAfter s.input.length (headerBytes Config.magic s.n s.total ++
      (tableBytes s.freq ++ packedBytes (bodyBits s.code s.input))) { s with inPos := 0 }) k (writeHeader s) := by
  have hbody := leads_pass2 (s := afterWrites (tableBytes s.freq) (afterWrites (headerBytes Config.magic s.n s.total) s))
    hcoded hlen hh htotal
  obtain ⟨k, hbody⟩ := hbody.exists_within
  refine ⟨13 + ((tableBytes s.freq).length + k), leadsWithin_writeHeader hh fun p => ?_⟩
  rw [headerWritten_table (by exact hne), writeTable]
  refine leadsWithin_writeAll exec_hufTabW nofun (by exact hh) fun p' => ?_
  refine LeadsWithin.imp hbody fun t ht => ?_
  exact .of_afterWrites (s := { s with inPos := 0 })
    (.of_afterWrites (s := { afterWrites (headerBytes Config.magic s.n s.total) s with inPos := 0 }) ht)

/-- `CMP.HUF` on an input that is not empty writes its container. -/
theorem cmpHuf_endsIn (w : Word) (hp : s.phase = .idle) (hh : Honest s) (h0 : s.inPos = 0) (hne : s.input ≠ [])
    (hfit : CountsFit s.input) :
    ∃ k t a, EndsIn .cmpHuf k (startCommand w s) t ∧
      PackedAfter s.input.length (container Config.magic s.input)
        { afterPass1 s.input a (startCommand w s) with inPos := 0 } t := by
  obtain ⟨a, ha, -⟩ := buildTree_spec (frequencies s.input) s.arena
  have htotal : BitVec.ofNat 64 s.input.length ≠ 0 := fun hz => hne (hfit.ofNat_length_eq_zero_iff.mp hz)
  have hcodes := genCodes_eq_codesOf ha
  obtain ⟨k, hk⟩ := leadsWithin_encodes (s := afterPass1 s.input a (startCommand w s))
    (fun b hb => by
      show (entryAt (genCodes a) b).len ≠ 0
      exact hcodes ▸ codesOf_len_ne_zero hfit hb) hfit.length_lt hh rfl htotal
  rw [afterPass1, ← pass1Eof_coded (by exact htotal) (by exact ha)] at hk
  obtain ⟨t, ht, hq⟩ := LeadsWithin.cmpHuf_endsIn hp hh hfit (unread_of_inPos_zero h0) hk
  refine ⟨_, t, a, ht, ?_⟩
  rw [container_of_ne_nil _ hne, ← hcodes]
  exact hq

end

/-- Settles O50: after pass 1 the machine holds the tables of the input, and what it writes from them is the container. -/
theorem cmpHufWritesTheContainer : Obligations.CmpHufWritesTheContainer := by
  intro s hp hh h0 hne hfit
  refine ⟨exec_idle_proceeds .cmpHuf (by exact hp), ?_⟩
  obtain ⟨k, t, a, hk, hs, hkept⟩ := cmpHuf_endsIn 0x00000100#32 hp hh h0 hne hfit
  obtain ⟨hst, -, hin, hpos, hcnt, hout, hocnt⟩ := hs
  have htwice : (0 : U64) + BitVec.ofNat 64 s.input.length + BitVec.ofNat 64 s.input.length =
      BitVec.ofNat 64 (2 * s.input.length) := by
    rw [Nat.two_mul, BitVec.ofNat_add, BitVec.add_assoc]
    exact BitVec.zero_add _
  exact ⟨k, t, hk, hst ▸ statusWord_finished, hout, hcnt.trans htwice, hocnt.trans (BitVec.zero_add _),
    (congrArg State.origSize hkept :), (congrArg State.nsym hkept :), hpos.trans (Nat.zero_add _), hin,
    hk.kept (f := hideHufEnc) fun u v h => exec_cmpHuf_frame h⟩

end Sys2Proof.Machine

namespace Sys2Proof.Machine

/-! ## Little-endian fields, and the bits of packed bytes, read back (R10, R112, R163) -/

theorem bytesLe_succ {w : Nat} (k : Nat) (v : BitVec w) : bytesLe (k + 1) v = v.extractLsb' 0 8 :: bytesLe k (v >>> 8) := by
  simp only [bytesLe, List.range_succ_eq_map, List.map_cons, List.map_map]
  refine congrArg _ (List.map_congr_left fun i _ => BitVec.eq_of_toNat_eq ?_)
  simp only [Function.comp, BitVec.extractLsb'_toNat, BitVec.toNat_ushiftRight, ← Nat.shiftRight_add]
  rw [Nat.mul_succ, Nat.add_comm]

theorem leValue_bytesLe {w : Nat} (k : Nat) (v : BitVec w) : leValue (bytesLe k v) = v.toNat % 2 ^ (8 * k) := by
  induction k generalizing v with
  | zero => simp [bytesLe, leValue, Nat.mod_one]
  | succ k ih =>
    rw [bytesLe_succ, leValue, ih, BitVec.extractLsb'_toNat, BitVec.toNat_ushiftRight, Nat.shiftRight_zero,
      Nat.shiftRight_eq_div_pow, Nat.mul_succ, Nat.add_comm (8 * k), Nat.pow_add, Nat.mod_mul]

/-- A field that is written whole is read back (R113). -/
theorem assembleLe_bytesLe {w k : Nat} (h : w = 8 * k) (v : BitVec w) : assembleLe w (bytesLe k v) = v := by
  refine BitVec.eq_of_toNat_eq ?_
  rw [assembleLe_toNat _ (by rw [bytesLe_length, h]), leValue_bytesLe, ← h, Nat.mod_eq_of_lt v.isLt]

theorem bitsBelow_byteOfBits (bits : List Bool) :
    bitsBelow (byteOfBits bits) 8 = bits.take 8 ++ List.replicate (8 - bits.length) false := by
  refine List.ext_getElem (by simp [bitsBelow]; omega) fun j h1 h2 => ?_
  rw [bitsBelow_length] at h1
  simp only [bitsBelow, List.getElem_map, List.getElem_range]
  rw [show 8 - 1 - j = 7 - j by omega, byteOfBits_getLsbD _ h1]
  rcases Nat.lt_or_ge j bits.length with hj | hj
  · rw [List.getElem_append_left (by simp; omega), List.getElem_take, List.getD_eq_getElem _ _ hj]
  · rw [List.getElem_append_right (by simp; omega), List.getElem_replicate, List.getD_eq_default _ _ hj]

/-- Packed bytes hold their bits, and then fewer than eight bits 0 (R163). -/
theorem packedBytes_bits (bits : List Bool) :
    ∃ pad : List Bool, pad.length < 8 ∧ ((packedBytes bits).flatMap fun b => bitsBelow b 8) = bits ++ pad := by
  induction hn : bits.length using Nat.strong_induction_on generalizing bits with
  | _ n ih =>
    by_cases hnil : bits = []
    · exact ⟨[], Nat.succ_pos 7, by rw [hnil]; rfl⟩
    · have hpos := List.length_pos_iff.mpr hnil
      obtain ⟨pad, hpad, hrest⟩ := ih (bits.drop 8).length (by rw [List.length_drop]; omega) (bits.drop 8) rfl
      rw [packedBytes_of_ne_nil hnil, List.flatMap_cons, hrest, bitsBelow_byteOfBits]
      rcases Nat.lt_or_ge bits.length 8 with hlt | hge
      · refine ⟨List.replicate (8 - bits.length) false, by rw [List.length_replicate]; omega, ?_⟩
        rw [List.drop_eq_nil_of_le hlt.le] at hrest ⊢
        obtain rfl : [] = pad := hrest
        rw [List.take_of_length_le hlt.le, List.append_nil, List.append_nil]
      · refine ⟨pad, hpad, ?_⟩
        rw [show 8 - bits.length = 0 by omega, List.replicate_zero, List.append_nil, ← List.append_assoc,
          List.take_append_drop]

/-! ## The paths of a standing tree, followed in the arena (R470) -/

section
variable {freq : Vector Word 256} {node : Vector Node 511} {sub : HTree} {sym : Byte} {bit : Bool} {path : List Bool}

/-- A path that goes on leads from the root to that of a child. -/
theorem Stands.step (h : Stands freq node sub) (hq : (sym, bit :: path) ∈ sub.paths) :
    ∃ child : HTree, branch node sub.rootId bit = some child.rootId ∧ Stands freq node child ∧
      (sym, path) ∈ child.paths := by
  cases sub with
  | leaf x s => simp [HTree.paths] at hq
  | only x l =>
    obtain ⟨hx, -, hl⟩ := h
    obtain ⟨q, hmem, heq⟩ := List.mem_map.mp hq
    cases heq
    exact ⟨l, (if_neg Bool.false_ne_true).trans (congrArg Node.left hx), hl, hmem⟩
  | node x l r =>
    obtain ⟨hx, -, -, hl, hr⟩ := h
    rcases List.mem_append.mp hq with hq | hq <;> obtain ⟨q, hmem, heq⟩ := List.mem_map.mp hq <;> cases heq
    · exact ⟨l, (if_neg Bool.false_ne_true).trans (congrArg Node.left hx), hl, hmem⟩
    · exact ⟨r, (if_pos rfl).trans (congrArg Node.right hx), hr, hmem⟩

theorem Stands.internal_of_path (h : Stands freq node sub) (hq : (sym, bit :: path) ∈ sub.paths) :
    (node[sub.rootId]).kind = .internal := by
  cases sub with
  | leaf x s => simp [HTree.paths] at hq
  | only x l => exact congrArg Node.kind h.1
  | node x l r => exact congrArg Node.kind h.1

/-- A path that is at its end stands at the leaf of its symbol. -/
theorem Stands.leaf_of_path (h : Stands freq node sub) (hq : (sym, []) ∈ sub.paths) :
    (node[sub.rootId]).kind = .leaf ∧ (node[sub.rootId]).sym = sym := by
  cases sub with
  | leaf x s =>
    obtain rfl : sym = s := by simpa [HTree.paths] using hq
    exact ⟨congrArg Node.kind h.1, congrArg Node.sym h.1⟩
  | only x l => simp [HTree.paths] at hq
  | node x l r => simp [HTree.paths] at hq

end

end Sys2Proof.Machine

namespace Sys2Proof.Machine

/-! ## `UnpackBody` to its end (R470, R471, R474) -/

/-- The arena `a` holds the tree `t`, and the code table its paths. -/
structure CodeTree (freq : Vector Word 256) (a : Arena) (code : Vector CodeEntry 256) (t : HTree) : Prop where
  stands : Stands freq a.node t
  root : a.root = some t.rootId
  paths : HoldsPaths code t

/-- `BuildTree` and `GenCodes` make such a tree, and its leaves are the symbols present (R333, R381). -/
theorem buildTree_codeTree {freq : Vector Word 256} {a b : Arena} (hb : buildTree freq a = some b)
    (hne : presentSymbols freq ≠ []) :
    ∃ t : HTree, CodeTree freq b (genCodes b) t ∧ t.leaves.Perm (presentSymbols freq) := by
  rcases buildTree_builtTree hb with ⟨hs, -, -⟩ | ⟨s, hs, -, hr, ht⟩ | ⟨t, hlen, hfull, ht, hr, -, hleaves, -⟩
  · exact absurd hs hne
  · have hleaves : (HTree.only 1 (.leaf 0 s)).leaves.Perm (presentSymbols freq) := by rw [hs]; rfl
    exact ⟨_, ⟨ht, hr, genCodes_holdsPaths ht hr hleaves (by decide : 0 < 1) (by decide : 1 ≤ 255)⟩, hleaves⟩
  · have hdepth := HTree.depth_lt_leaves hfull
    have hle := presentSymbols_length_le freq
    have hlength := hleaves.length_eq
    have hpos := HTree.depth_pos_of_two_leaves (t := t) (by omega)
    exact ⟨t, ⟨ht, hr, genCodes_holdsPaths ht hr hleaves hpos (by omega)⟩, hleaves⟩

/-- The decoder stands at the root of `sub`, and the bits `stream` to be examined are the rest `bits` of the code of `sym`, the
codes of the bytes `more`, and padding (R163). -/
structure Unpacking (freq : Vector Word 256) (a : Arena) (code : Vector CodeEntry 256) (t : HTree) (stream : List Bool)
    (sub : HTree) (sym : Byte) (bits : List Bool) (more : List Byte) (s : State) : Prop where
  honest : Honest s
  arena : s.arena = a
  cur : s.cur = some sub.rootId
  stands : Stands freq a.node sub
  path : (sym, bits) ∈ sub.paths
  stream : ∃ pad : List Bool, pad.length < 8 ∧ stream = bits ++ (bodyBits code more ++ pad)
  leaves : ∀ c ∈ more, c ∈ t.leaves
  count : s.decoded.toNat + more.length + 1 = s.origSize.toNat

section
variable {freq : Vector Word 256} {a : Arena} {code : Vector CodeEntry 256} {t sub : HTree} {stream bits : List Bool}
  {bit first : Bool} {sym c byte : Byte} {more rest : List Byte} {s : State} {k : Nat}

/-- One bit of the stream leads to a child. -/
theorem Unpacking.descend (h : Unpacking freq a code t (first :: stream) sub sym (bit :: bits) more s) :
    ∃ child : HTree, branch s.arena.node sub.rootId first = some child.rootId ∧
      Unpacking freq a code t stream child sym bits more { s with cur := some child.rootId } := by
  obtain ⟨hh, rfl, hcur, hstands, hpath, ⟨pad, hpad, hstream⟩, hleaves, hcount⟩ := h
  obtain ⟨rfl, htail⟩ := List.cons.inj hstream
  obtain ⟨child, hbranch, hchild, hmem⟩ := hstands.step hpath
  exact ⟨child, hbranch, hh, rfl, rfl, hchild, hmem, ⟨pad, hpad, htail⟩, hleaves, hcount⟩

/-- At the start of a symbol the rest of its code is the whole of it, and no code is empty (R384). -/
theorem CodeTree.unpacking (ht : CodeTree freq a code t) (hh : Honest s) (harena : s.arena = a) (hcur : s.cur = a.root)
    (hstream : ∃ pad : List Bool, pad.length < 8 ∧ stream = bodyBits code (c :: more) ++ pad)
    (hleaves : ∀ d ∈ c :: more, d ∈ t.leaves) (hcount : s.decoded.toNat + (c :: more).length = s.origSize.toNat) :
    ∃ bit bits, Unpacking freq a code t stream t c (bit :: bits) more s := by
  obtain ⟨pad, hpad, hstream⟩ := hstream
  obtain ⟨⟨d, path⟩, hmem, rfl, -, hbits⟩ := ht.paths.exists_path (hleaves c List.mem_cons_self)
  have hpos := (ht.paths.path_length hmem).1
  rw [bodyBits_cons, hbits, List.append_assoc] at hstream
  cases path with
  | nil => cases hpos
  | cons bit bits =>
    exact ⟨bit, bits, hh, harena, hcur.trans ht.root, ht.stands, hmem, ⟨pad, hpad, hstream⟩,
      fun d hd => hleaves d (List.mem_cons_of_mem _ hd), hcount⟩

/-- From the read of a body byte on, with the bytes `rest` to be read: they are all read, and the symbols are written. -/
def UnpacksFrom (freq : Vector Word 256) (a : Arena) (code : Vector CodeEntry 256) (t : HTree) (rest : List Byte) : Prop :=
  ∀ s sub sym bit bits more, unread s = rest →
    Unpacking freq a code t (rest.flatMap fun b => bitsBelow b 8) sub sym (bit :: bits) more s →
    LeadsWithin .dcmpHuf (Streamed statusFinished rest.length (sym :: more) s) (rest.length + (sym :: more).length)
      (issue (.hufBody .read) s)

/-- The same from the walk of the `k` low bits of `byte` on. -/
def WalksFrom (freq : Vector Word 256) (a : Arena) (code : Vector CodeEntry 256) (t : HTree) (byte : Byte) (k : Nat)
    (rest : List Byte) : Prop :=
  ∀ s sub sym bit bits more, unread s = rest →
    Unpacking freq a code t (bitsBelow byte k ++ rest.flatMap fun b => bitsBelow b 8) sub sym (bit :: bits) more s →
    LeadsWithin .dcmpHuf (Streamed statusFinished rest.length (sym :: more) s) (rest.length + (sym :: more).length)
      (walkBits byte k s)

/-- A symbol that is reached is written, and the walk goes on from the root unless it was the last (R471, R474). -/
theorem leadsWithin_bodyEmit (ht : CodeTree freq a code t)
    (ih : WalksFrom freq a code t byte k rest) (hu : unread s = rest)
    (h : Unpacking freq a code t (bitsBelow byte k ++ rest.flatMap fun b => bitsBelow b 8) sub sym [] more s) :
    LeadsWithin .dcmpHuf (Streamed statusFinished rest.length (sym :: more) s) (rest.length + (sym :: more).length)
      (issue (.hufBody (.emit byte k)) s) := by
  obtain ⟨hh, harena, hcur, hstands, hpath, hstream, hleaves, hcount⟩ := h
  have hsym : (s.arena.node[sub.rootId]).sym = sym := harena ▸ (hstands.leaf_of_path hpath).2
  rw [List.length_cons, ← Nat.add_assoc]
  refine .goesOn nofun ?_
  rw [exec_body_written rfl (takeAnswer_honest (by exact hh)) (by exact hcur)]
  simp only [hsym]
  refine LeadsWithin.imp (Q := Streamed statusFinished rest.length more (afterWrite sym s)) ?_ fun t ht => ht.of_afterWrite
  cases more with
  | nil =>
    have hlast : s.decoded + 1 = s.origSize := by
      rw [List.length_nil] at hcount
      bv_omega
    obtain ⟨pad, hpad, hstream⟩ := hstream
    have hrest : rest = [] := by
      have hlen := congrArg List.length hstream
      cases rest with
      | nil => rfl
      | cons b rest =>
        simp only [List.flatMap_cons, List.flatMap_nil, List.length_append, List.length_nil, bodyBits,
          bitsBelow_length] at hlen
        omega
    rw [bodyWritten_last (by exact hlast), hrest]
    exact .ended rfl (streamed_finish (by exact hh))
  | cons c more =>
    have hmore : s.decoded + 1 ≠ s.origSize := by
      rw [List.length_cons] at hcount
      bv_omega
    rw [bodyWritten_more (by exact hmore)]
    obtain ⟨bit, bits, hnext⟩ := ht.unpacking
      (s := { afterWrite sym { s with phase := .hufBody (.emit byte k) } with decoded := s.decoded + 1, cur := a.root })
      hh harena rfl hstream hleaves (by
        rw [List.length_cons] at hcount ⊢
        show (s.decoded + 1).toNat + _ = s.origSize.toNat
        bv_omega)
    subst harena
    exact ih _ t c bit bits more (by exact hu) hnext

/-- Each bit leads to an internal node, or to the leaf of the symbol (R470). -/
theorem walksFrom (ht : CodeTree freq a code t) (ih : UnpacksFrom freq a code t rest) (byte : Byte) (k : Nat) :
    WalksFrom freq a code t byte k rest := by
  induction k with
  | zero => exact ih
  | succ k ihk =>
    intro s sub sym bit bits more hu h
    rw [bitsBelow_succ, List.cons_append] at h
    obtain ⟨child, hbranch, hchild⟩ := h.descend
    cases bits with
    | nil =>
      have hleaf := (hchild.stands.leaf_of_path hchild.path).1
      rw [← h.arena] at hleaf
      rw [walkBits_leaf h.cur hbranch hleaf]
      exact leadsWithin_bodyEmit (s := { s with cur := some child.rootId }) ht ihk hu hchild
    | cons bit' bits =>
      have hinternal := hchild.stands.internal_of_path hchild.path
      rw [← h.arena] at hinternal
      rw [walkBits_internal h.cur hbranch hinternal]
      exact ihk { s with cur := some child.rootId } child sym bit' bits more hu hchild

theorem unpacksFrom (ht : CodeTree freq a code t) (rest : List Byte) : UnpacksFrom freq a code t rest := by
  induction rest with
  | nil =>
    intro s sub sym bit bits more hu h
    obtain ⟨pad, -, hstream⟩ := h.stream
    cases hstream
  | cons byte rest ih =>
    intro s sub sym bit bits more hu h
    rw [List.length_cons, Nat.add_right_comm]
    obtain ⟨hh, harena, hcur, hstands, hpath, hstream, hleaves, hcount⟩ := h
    refine .of_byte (e := .truncatedBody) (f := fun byte => walkBits byte 8) (fun hp => exec_hufBody hp) nofun hh hu ?_
    have hwalk := walksFrom ht ih byte 8 (afterByte { s with phase := .hufBody .read }) sub sym bit bits more
      (unread_eq_cons hu).2 ⟨hh, harena, hcur, hstands, hpath, hstream, hleaves, hcount⟩
    exact hwalk.imp fun t ht => ht.of_afterByte

end

end Sys2Proof.Machine

namespace Sys2Proof.Machine

/-! ## The table read back (R162, R411, R418) -/

/-- `FREQ` after the entries of the symbols `symbols` of the table `freq` are stored in `f`. -/
def storeEntries (freq : Vector Word 256) (symbols : List Byte) (f : Vector Word 256) : Vector Word 256 :=
  symbols.foldl (fun f c => entryPut f c (entryAt freq c)) f

theorem entryAt_storeEntries (freq : Vector Word 256) (symbols : List Byte) (f : Vector Word 256) (c : Byte) :
    entryAt (storeEntries freq symbols f) c = if c ∈ symbols then entryAt freq c else entryAt f c := by
  induction symbols generalizing f with
  | nil => rfl
  | cons d symbols ih =>
    rw [storeEntries, List.foldl_cons, ← storeEntries, ih, entryAt_entryPut]
    by_cases hc : c ∈ symbols
    · rw [if_pos hc, if_pos (List.mem_cons_of_mem d hc)]
    · rw [if_neg hc]
      by_cases hcd : c = d
      · rw [if_pos hcd, if_pos (hcd ▸ List.mem_cons_self), hcd]
      · rw [if_neg hcd, if_neg (by simp [hc, hcd])]

/-- The entries of the symbols present are the whole table. -/
theorem storeEntries_presentSymbols (freq : Vector Word 256) :
    storeEntries freq (presentSymbols freq) (Vector.replicate 256 0) = freq := by
  refine vector_ext_entryAt fun c => ?_
  rw [entryAt_storeEntries]
  split
  · rfl
  · rename_i hc
    rw [mem_presentSymbols, not_not] at hc
    rw [hc]
    exact Vector.getElem_replicate _

theorem loadEntry_entryBytes (freq : Vector Word 256) (c : Byte) (f : Vector Word 256) :
    loadEntry (entryBytes freq c) f = entryPut f c (entryAt freq c) := by
  rw [entryBytes, loadEntry, assembleLe_bytesLe (w := 32) rfl]

theorem entryBytes_concat (freq : Vector Word 256) (c : Byte) :
    ∃ first last, entryBytes freq c = first ++ [last] ∧ first.length = 4 := by
  have hne : entryBytes freq c ≠ [] := List.cons_ne_nil _ _
  exact ⟨_, _, (List.dropLast_concat_getLast hne).symm, by rw [List.length_dropLast, entryBytes_length]⟩

section
variable {st : Status} {n k left : Nat} {out entry got rest z : List Byte} {s : State} {ns : Byte}

/-- The first bytes of an entry are gathered, in a run that goes on to write (R418). -/
theorem leadsWithin_entryStart (hlen : got.length + entry.length ≤ 4) (hh : Honest s) (hu : unread s = entry ++ rest)
    (h : ∀ u, Honest u → unread u = rest → u.freq = s.freq → u.origSize = s.origSize →
      LeadsWithin .dcmpHuf (Streamed st n out u) k (issue (.hufTabR left (got ++ entry)) u)) :
    LeadsWithin .dcmpHuf (Streamed st (n + entry.length) out s) (k + entry.length) (issue (.hufTabR left got) s) := by
  induction entry generalizing s got with
  | nil => rw [List.append_nil] at h; exact h s hh hu rfl rfl
  | cons b entry ih =>
    rw [List.length_cons] at hlen
    refine .of_byte exec_hufTabR nofun hh hu ?_
    rw [tableByte_gathers (by omega)]
    refine (ih (s := afterByte s) (by simp; omega) hh (unread_eq_cons hu).2 ?_).imp fun t ht => ht.of_afterByte
    rwa [List.append_assoc]

/-- The entries of a table are stored one by one, and the table is read. -/
theorem leadsWithin_table {freq : Vector Word 256} {symbols : List Byte} (hne : symbols ≠ []) (hh : Honest s)
    (hu : unread s = symbols.flatMap (entryBytes freq) ++ rest)
    (h : ∀ u, Honest u → unread u = rest → u.freq = storeEntries freq symbols s.freq → u.origSize = s.origSize →
      LeadsWithin .dcmpHuf (Streamed st n out u) k (tableRead u)) :
    LeadsWithin .dcmpHuf (Streamed st (n + 5 * symbols.length) out s) (k + 5 * symbols.length)
      (issue (.hufTabR symbols.length []) s) := by
  induction symbols generalizing s with
  | nil => exact absurd rfl hne
  | cons c symbols ih =>
    obtain ⟨first, last, hentry, hfirst⟩ := entryBytes_concat freq c
    rw [List.flatMap_cons, List.append_assoc, hentry, List.append_assoc] at hu
    rw [List.length_cons, show n + 5 * (symbols.length + 1) = n + 5 * symbols.length + 1 + first.length by omega,
      show k + 5 * (symbols.length + 1) = k + 5 * symbols.length + 1 + first.length by omega]
    refine leadsWithin_entryStart (by simp [hfirst]) hh hu fun u hhu huu hfreq hsize => ?_
    refine .of_byte exec_hufTabR nofun hhu huu ?_
    have hload : loadEntry (first ++ [last]) u.freq = entryPut s.freq c (entryAt freq c) := by
      rw [← hentry, loadEntry_entryBytes, hfreq]
    rw [List.nil_append]
    cases symbols with
    | nil =>
      rw [tableByte_ends hfirst.ge (by exact Nat.le_refl 1)]
      refine LeadsWithin.imp (h _ ?_ ?_ hload ?_) fun t ht => Streamed.of_afterByte (s := u) ht
      exacts [hhu, (unread_eq_cons huu).2, hsize]
    | cons d symbols =>
      rw [tableByte_stores hfirst.ge (by simp)]
      refine (ih (s := { afterByte u with freq := loadEntry (first ++ [last]) u.freq }) (List.cons_ne_nil d symbols) hhu
        (unread_eq_cons huu).2 fun v hhv huv hfreqv hsizev => ?_).imp fun t ht => Streamed.of_afterByte ht
      refine h v hhv huv (hfreqv.trans ?_) (hsizev.trans hsize)
      exact congrArg (storeEntries freq (d :: symbols)) hload

end

/-! ## `DCMP.HUF` on a container (R414 to R417, R517) -/

/-- After a header with a size, `FREQ` is clear, `ORIG_SIZE` is the size, and the table is read, in a run that goes on to
write (R416, R417). -/
theorem leadsWithin_sizedHeader {st : Status} {n k left : Nat} {out rest z : List Byte} {s : State} {ns : Byte}
    (hz : z.length = 8) (hne : assembleLe 64 z ≠ 0) (hleft : (interpretedCount ns).toNat = left) (hh : Honest s)
    (hu : unread s = fullHeader ns z ++ rest)
    (h : ∀ u, Honest u → unread u = rest → u.freq = Vector.replicate 256 0 → u.origSize = assembleLe 64 z →
      LeadsWithin .dcmpHuf (Streamed st n out u) k (issue (.hufTabR left []) u)) :
    LeadsWithin .dcmpHuf (Streamed st (13 + n) out s) (13 + k) (issue (.hufHdrR []) s) := by
  refine leadsWithin_fullHeader hz hh hu fun p => ?_
  rw [headerRead_of_size_ne_zero (by exact hne), afterHeader_fullHeader_nsRaw, hleft,
    ← fullHeader_length (ns := ns) hz]
  refine LeadsWithin.imp (h _ ?_ ?_ rfl rfl) fun t ht => Streamed.of_afterHeader ht
  · exact hh
  · exact unread_afterHeader hu

theorem mem_presentSymbols_frequencies {bytes : List Byte} (hfit : CountsFit bytes) {b : Byte} (hb : b ∈ bytes) :
    b ∈ presentSymbols (frequencies bytes) :=
  mem_presentSymbols.mpr ((entryAt_frequencies_ne_zero hfit b).mpr (List.count_pos_iff.mpr hb))

theorem presentSymbols_frequencies_ne_nil {bytes : List Byte} (hfit : CountsFit bytes) (hne : bytes ≠ []) :
    presentSymbols (frequencies bytes) ≠ [] := by
  obtain ⟨b, hb⟩ := List.exists_mem_of_ne_nil bytes hne
  exact List.ne_nil_of_mem (mem_presentSymbols_frequencies hfit hb)

/-- The count byte of 1 to 256 symbols is interpreted as their number (R161, R417). -/
theorem interpretedCount_countByte {d : Nat} (h1 : 1 ≤ d) (h256 : d ≤ 256) :
    (interpretedCount ((BitVec.ofNat 9 d).setWidth 8)).toNat = d := by
  have hbyte : ((BitVec.ofNat 9 d).setWidth 8).toNat = d % 256 := by
    rw [BitVec.toNat_setWidth, BitVec.toNat_ofNat]
    omega
  have hzero : (BitVec.ofNat 9 d).setWidth 8 = 0 ↔ d % 256 = 0 := by
    rw [← BitVec.toNat_inj, hbyte]
    rfl
  simp only [interpretedCount_toNat, hzero, hbyte]
  split <;> omega

/-- The body of the container of an input (R163). -/
def containerBody (bytes : List Byte) : List Byte := packedBytes (bodyBits (codesOf (frequencies bytes)) bytes)

theorem container_eq_fields (magic : Vector Byte 4) {bytes : List Byte} (hne : bytes ≠ []) :
    container magic bytes =
      headerBytes magic (BitVec.ofNat 9 (distinctCount (frequencies bytes))) (BitVec.ofNat 64 bytes.length) ++
        ((presentSymbols (frequencies bytes)).flatMap (entryBytes (frequencies bytes)) ++ containerBody bytes) := by
  rw [container_of_ne_nil magic hne, tableBytes_eq, containerBody]

section
variable {bytes : List Byte} {s : State}

/-- The tree is rebuilt from the table, and the body gives back the bytes (R333, R470). -/
theorem leadsWithin_tableRead (hfit : CountsFit bytes) (hne : bytes ≠ []) (hh : Honest s)
    (hu : unread s = containerBody bytes) (hfreq : s.freq = frequencies bytes)
    (hsize : s.origSize = BitVec.ofNat 64 bytes.length) :
    LeadsWithin .dcmpHuf (Streamed statusFinished (containerBody bytes).length bytes s)
      ((containerBody bytes).length + bytes.length) (tableRead s) := by
  have hpresent := presentSymbols_frequencies_ne_nil hfit hne
  obtain ⟨a, ha, -⟩ := buildTree_spec (frequencies bytes) s.arena
  obtain ⟨t, ht, hleaves⟩ := buildTree_codeTree ha hpresent
  rw [genCodes_eq_codesOf ha] at ht
  have hcount : distinctCount s.freq ≠ 0 := by
    rw [hfreq, distinctCount_eq]
    exact fun hz => hpresent (List.length_eq_zero_iff.mp hz)
  have htable : tableRead s = bodyStart { s with arena := a } := by
    rw [tableRead, if_neg hcount, hfreq, ha]
  rw [htable, bodyStart]
  cases bytes with
  | nil => exact absurd rfl hne
  | cons c more =>
    have hsymbols : (0 : U64).toNat + (c :: more).length = s.origSize.toNat := by
      rw [hsize, BitVec.toNat_ofNat, Nat.mod_eq_of_lt hfit.length_lt]
      exact Nat.zero_add _
    obtain ⟨bit, bits, hstart⟩ := ht.unpacking (s := { s with arena := a, cur := a.root, decoded := 0 }) hh rfl rfl
      (packedBytes_bits _) (fun d hd => hleaves.mem_iff.mpr (mem_presentSymbols_frequencies hfit hd)) hsymbols
    exact unpacksFrom ht _ _ t c bit bits more (by exact hu) hstart

/-- From the first table entry on. -/
theorem leadsWithin_containerTable (hfit : CountsFit bytes) (hne : bytes ≠ []) (hh : Honest s)
    (hu : unread s = (presentSymbols (frequencies bytes)).flatMap (entryBytes (frequencies bytes)) ++ containerBody bytes)
    (hfreq : s.freq = Vector.replicate 256 0) (hsize : s.origSize = BitVec.ofNat 64 bytes.length) :
    LeadsWithin .dcmpHuf
      (Streamed statusFinished ((containerBody bytes).length + 5 * (presentSymbols (frequencies bytes)).length) bytes s)
      ((containerBody bytes).length + bytes.length + 5 * (presentSymbols (frequencies bytes)).length)
      (issue (.hufTabR (presentSymbols (frequencies bytes)).length []) s) := by
  refine leadsWithin_table (presentSymbols_frequencies_ne_nil hfit hne) hh hu fun u hhu huu hfu hsu => ?_
  rw [hfreq, storeEntries_presentSymbols] at hfu
  exact leadsWithin_tableRead hfit hne hhu huu hfu (hsu.trans hsize)

/-- `DCMP.HUF` on the container of an input that is not empty reads all of it and writes the input. -/
theorem dcmpHuf_endsIn (w : Word) (hp : s.phase = .idle) (hh : Honest s) (h0 : s.inPos = 0) (hne : bytes ≠ [])
    (hfit : CountsFit bytes) (hin : s.input = container Config.magic bytes) :
    ∃ k t, EndsIn .dcmpHuf k (startCommand w s) t ∧
      Streamed statusFinished (container Config.magic bytes).length bytes (startCommand w s) t := by
  have hz : (bytesLe 8 (BitVec.ofNat 64 bytes.length)).length = 8 := bytesLe_length 8 _
  have hsize : assembleLe 64 (bytesLe 8 (BitVec.ofNat 64 bytes.length)) = BitVec.ofNat 64 bytes.length :=
    assembleLe_bytesLe (w := 64) rfl _
  have hsize0 : BitVec.ofNat 64 bytes.length ≠ 0 := fun hzero => hne (hfit.ofNat_length_eq_zero_iff.mp hzero)
  have hcount : (interpretedCount ((BitVec.ofNat 9 (distinctCount (frequencies bytes))).setWidth 8)).toNat =
      (presentSymbols (frequencies bytes)).length := by
    rw [distinctCount_eq, interpretedCount_countByte
      (List.length_pos_iff.mpr (presentSymbols_frequencies_ne_nil hfit hne)) (presentSymbols_length_le _)]
  have hu : unread (startCommand w s) = container Config.magic bytes := (unread_of_inPos_zero h0).trans hin
  rw [container_eq_fields _ hne] at hu ⊢
  rw [List.length_append, List.length_append, headerBytes_length, flatMap_entryBytes_length, Nat.add_comm (5 * _)]
  have hrun := leadsWithin_sizedHeader hz (hsize.trans_ne hsize0) hcount (by exact hh) hu fun u hhu huu hfu hsu =>
    leadsWithin_containerTable hfit hne hhu huu hfu (hsu.trans hsize)
  obtain ⟨t, ht, hq⟩ := LeadsWithin.dcmpHuf_endsIn hp hrun
  exact ⟨_, t, ht, hq⟩

end

end Sys2Proof.Machine

namespace Sys2Proof.Machine

/-! ## The Huffman round trip (R519) -/

theorem container_nil_eq_fullHeader : container Config.magic [] = fullHeader 0 (List.replicate 8 0) := by
  rw [container_nil]
  exact congrArg (Config.magic.toList ++ [0] ++ ·) (by decide : bytesLe 8 (0 : U64) = List.replicate 8 0)

/-- `CMP.HUF` ends with success, having appended the container of the input (R514, R515). -/
theorem cmpHuf_appends_container {s : State} (w : Word) (hp : s.phase = .idle) (hh : Honest s) (h0 : s.inPos = 0)
    (hfit : CountsFit s.input) :
    ∃ k t, EndsIn .cmpHuf k (startCommand w s) t ∧ t.status = statusFinished ∧ Honest t ∧
      t.output = s.output ++ container Config.magic s.input := by
  by_cases hne : s.input = []
  · have hu : unread s = [] := (unread_of_inPos_zero h0).trans hne
    obtain ⟨t, ht, ⟨hst, hht, -, -, -, hout, -⟩, -⟩ := cmpHuf_nil_endsIn w hp hh hu
    exact ⟨15, t, ht, hst, hht, hne ▸ hout⟩
  · obtain ⟨k, t, a, ht, ⟨hst, hht, -, -, -, hout, -⟩, -⟩ := cmpHuf_endsIn w hp hh h0 hne hfit
    exact ⟨k, t, ht, hst, hht, hout⟩

/-- `DCMP.HUF` on the container of an input reads all of it and writes the input (R417, R517). -/
theorem dcmpHuf_reads_container {s : State} {bytes : List Byte} (w : Word) (hp : s.phase = .idle) (hh : Honest s)
    (h0 : s.inPos = 0) (hfit : CountsFit bytes) (hin : s.input = container Config.magic bytes) :
    ∃ k t, EndsIn .dcmpHuf k (startCommand w s) t ∧
      Streamed statusFinished (container Config.magic bytes).length bytes (startCommand w s) t := by
  by_cases hne : bytes = []
  · subst hne
    have hu : unread (startCommand w s) = fullHeader 0 (List.replicate 8 0) ++ [] := by
      rw [List.append_nil, ← container_nil_eq_fullHeader]
      exact (unread_of_inPos_zero h0).trans hin
    obtain ⟨t, ht, hs, -⟩ := LeadsWithin.dcmpHuf_endsIn hp (leadsWithin_sizeZero hh hu)
    rw [container_nil, headerBytes_length]
    exact ⟨_, t, ht, hs⟩
  · exact dcmpHuf_endsIn w hp hh h0 hne hfit hin

/-- Settles O52: what compression writes is the container of the input, and the container gives back the input. -/
theorem huffmanRoundTrip : Obligations.HuffmanRoundTrip := by
  intro s hp hh h0 hout hfit
  obtain ⟨k, t, hk, hst, hht, hto⟩ := cmpHuf_appends_container 0x00000100#32 hp hh h0 hfit
  rw [hout, List.nil_append] at hto
  have ⟨_, _, _, htp⟩ := hk
  obtain ⟨j, u, hj, hs⟩ := dcmpHuf_reads_container (s := { t with input := t.output, inPos := 0, output := [] })
    0x00000101#32 htp hht rfl hfit hto
  rw [← hto] at hs
  obtain ⟨hcnt, hocnt, hpos⟩ := hs.counts_from_start rfl
  obtain ⟨hust, -, -, -, -, huo, -⟩ := hs
  exact ⟨k, t, hk, hst, exec_idle_proceeds .dcmpHuf (by exact htp), j, u, hj, hust, huo, hpos, hcnt, hocnt⟩

end Sys2Proof.Machine

/-! The statements of 60_exceptions.md: what an `Err` and an `Eof` give, and the codes of each command; and of
70_reset_and_hazards.md, what the host does while a command runs and what the reset input leaves. -/

namespace Sys2Proof.Machine

/-! ## What the host and the reset input do (R617, R700, R703, R710) -/

/-- Settles O6: the write reaches `CMD`, which ignores it while `BUSY` is 1. -/
theorem busyCommandWriteIsIgnored : Obligations.BusyCommandWriteIsIgnored := by
  intro s v rest ha hp hb
  rw [step_memWrite ha (by decide) (by decide) hp, windowWrite, if_pos (by exact hb)]

/-- Settles O11: each of the four is a change of a stream. -/
theorem streamBindingsOnlyBetweenCommands : Obligations.StreamBindingsOnlyBetweenCommands := by
  intro s bytes rest ha
  refine ⟨fun hp => ?_, fun hp => ?_, fun hp => ?_, fun hp => ?_⟩ <;> rw [step_host ha hp] <;> rfl

/-- Settles O13: with no engine and no host to move, the turn falls to the engine, which does nothing in `IDLE`. -/
theorem idleEngineDoesNothing : Obligations.IdleEngineDoesNothing := by
  intro s hp hprog
  have hhost : hostReady s = false := by simp [hostReady, hprog]
  have hagent : nextAgent s = .engine := by
    unfold nextAgent
    rw [hhost]
    split <;> simp
  simp only [step, oneMove, hagent, engineMove, hp, phaseCommand]

/-- A withdrawn transaction adds at most the byte of a write to `OUT` (R700, S13). -/
theorem withdraw_output (pos : Nat) (kept : Bool) (s : State) :
    (withdraw pos kept s).output = s.output ∨
      ∃ b, kept = true ∧ inFlight s = .write b ∧ (withdraw pos kept s).output = s.output ++ [b] := by
  unfold withdraw
  cases hf : inFlight s with
  | nothing => exact .inl rfl
  | read => exact .inl rfl
  | rewind => exact .inl rfl
  | write b =>
    cases kept with
    | false => exact .inl rfl
    | true => exact .inr ⟨b, rfl, rfl, rfl⟩

theorem withdraw_input (pos : Nat) (kept : Bool) (s : State) : (withdraw pos kept s).input = s.input := by
  unfold withdraw
  split
  · rfl
  · rfl
  · rfl
  · cases kept <;> rfl

/-- Only a withdrawn read or rewind moves the position. -/
theorem withdraw_inPos {s : State} (hread : inFlight s ≠ .read) (hrewind : inFlight s ≠ .rewind) (pos : Nat)
    (kept : Bool) : (withdraw pos kept s).inPos = s.inPos := by
  unfold withdraw
  split
  · rfl
  · exact absurd ‹_› hread
  · exact absurd ‹_› hrewind
  · cases kept <;> rfl

/-- Settles O15: the registers are those of `State.reset`, and the streams are as the withdrawn transaction left them. -/
theorem resetInputAbandonsTheCommand : Obligations.ResetInputAbandonsTheCommand := by
  intro s pos kept rest ha hp
  exact ⟨_, step_host ha hp, rfl, resetValues.2.1, rfl, rfl, rfl, rfl, rfl, rfl, withdraw_input pos kept _,
    withdraw_output pos kept { s with program := rest, turns := s.turns.tail },
    fun hread hrewind =>
      withdraw_inPos (s := { s with program := rest, turns := s.turns.tail }) hread hrewind pos kept⟩

end Sys2Proof.Machine

namespace Sys2Proof.Machine

/-! ## An `Err` answer (R604, R606)

`withdraw pos kept` is what an `Err` leaves of the streams as well. -/

section
variable {s : State} {pos : Nat} {kept : Bool}

theorem rd_err_withdraw (h : inFlight s = .read) (e : State → Result) (f : Byte → State → Result) :
    rd (.err pos kept) e f s = .next (raise .ioFailure (withdraw pos kept s)) := by
  rw [rd_err, withdraw, h]

theorem rdOr_err_withdraw (h : inFlight s = .read) (e : Error) (f : Byte → State → Result) :
    rdOr (.err pos kept) e f s = .next (raise .ioFailure (withdraw pos kept s)) := rd_err_withdraw h _ f

theorem wr_err_withdraw {b : Byte} (h : inFlight s = .write b) (k : State → Result) :
    wr (.err pos kept) b k s = .next (raise .ioFailure (withdraw pos kept s)) := by
  rw [wr_err, withdraw, h]

theorem rewindStep_err_withdraw (h : inFlight s = .rewind) :
    rewindStep (.err pos kept) s = .next (raise .ioFailure (withdraw pos kept s)) := by
  rw [withdraw, h]
  rfl

/-- In every phase, an `Err` raises `IOFailure` (R11, R606). -/
theorem exec_err {i : Instr} {s1 : State} (hi : phaseCommand s.phase = some i)
    (ha : takeAnswer s = some (.err pos kept, s1)) :
    exec i s = .next (raise .ioFailure (withdraw pos kept s1)) := by
  have hf : ∀ {p : Phase} {x : InFlight}, s.phase = p → inFlight { s1 with phase := p } = x → inFlight s1 = x := by
    rintro p x rfl hx
    rw [takeAnswer_state ha] at hx ⊢
    exact hx
  have hk : ∀ {k : Answer → State → Result}, exec i s = transact k s →
      k (.err pos kept) s1 = .next (raise .ioFailure (withdraw pos kept s1)) →
      exec i s = .next (raise .ioFailure (withdraw pos kept s1)) := fun he h => by rw [he, transact_some ha, h]
  refine running_cases hi ?_ ?_ ?_ ?_ ?_ ?_ ?_ ?_ ?_ ?_ ?_
  · rintro p rfl hp
    refine hk (exec_rleEnc hp) ?_
    cases p <;> rw [encStep]
    · exact rd_err_withdraw (hf hp rfl) _ _
    · exact wr_err_withdraw (hf hp rfl) _
    · exact wr_err_withdraw (hf hp rfl) _
  · rintro p rfl hp
    refine hk (exec_rleDec hp) ?_
    cases p <;> rw [decStep]
    · exact rd_err_withdraw (hf hp rfl) _ _
    · exact rdOr_err_withdraw (hf hp rfl) .corruptFormat _
    · exact wr_err_withdraw (hf hp rfl) _
  · rintro rfl hp; exact hk (exec_hufPass1 hp) (rd_err_withdraw (hf hp rfl) pass1Eof pass1Byte)
  · rintro b rest rfl hp; exact hk (exec_hufHdrW hp) (wr_err_withdraw (hf hp rfl) (writeAll .hufHdrW headerWritten rest))
  · rintro b rest rfl hp
    exact hk (exec_hufTabW hp) (wr_err_withdraw (hf hp rfl) (writeAll .hufTabW (issue .hufRewind) rest))
  · rintro rfl hp; exact hk (exec_hufRewind hp) (rewindStep_err_withdraw (hf hp rfl))
  · rintro p rfl hp
    refine hk (exec_hufPass2 hp) ?_
    cases p <;> rw [pass2Step]
    · exact rdOr_err_withdraw (hf hp rfl) .inputMismatch _
    · exact wr_err_withdraw (hf hp rfl) _
  · rintro rfl hp; exact hk (exec_hufFlush hp) (wr_err_withdraw (hf hp rfl) fun s => .next (finish (packInit s)))
  · rintro got rfl hp; exact hk (exec_hufHdrR hp) (rdOr_err_withdraw (hf hp rfl) .corruptHeader (headerByte got))
  · rintro left got rfl hp
    exact hk (exec_hufTabR hp)
      (rdOr_err_withdraw (hf hp rfl) .corruptFrequencyTable (tableByte left got))
  · rintro p rfl hp
    refine hk (exec_hufBody hp) ?_
    cases p <;> rw [bodyStep]
    · exact rdOr_err_withdraw (hf hp rfl) .truncatedBody _
    · exact wr_err_withdraw (hf hp rfl) _

theorem takeAnswer_cons {a : Answer} {rest : List Answer} (h : s.answers = a :: rest) :
    takeAnswer s = some (a, { s with answers := rest }) := by
  simp only [takeAnswer, h]

/-- What is left of the streams does not depend on the answers still to come. -/
theorem withdraw_answers (pos : Nat) (kept : Bool) (rest : List Answer) (s : State) :
    withdraw pos kept { s with answers := rest } = { withdraw pos kept s with answers := rest } := by
  have hf : inFlight { s with answers := rest } = inFlight s := rfl
  unfold withdraw
  rw [hf]
  cases inFlight s with
  | nothing => rfl
  | read => rfl
  | rewind => rfl
  | write b => cases kept <;> rfl

end

/-- Settles O20: the error is raised with the streams as `withdraw` says. -/
theorem errAnswerAlwaysRaisesIoFailure : Obligations.ErrAnswerAlwaysRaisesIoFailure := by
  intro i s pos kept rest hi ha
  rw [exec_err hi (takeAnswer_cons ha), withdraw_answers]
  rfl

/-! ## The end of `IN` in each reading phase (R606) -/

/-- At the end of `IN` a phase that reads goes on as its `Eof` says. -/
theorem transact_eof {s s1 : State} {e : State → Result} {f : Byte → State → Result}
    (ha : takeAnswer s = some (.ok, s1)) (hend : s.input.length ≤ s.inPos) :
    transact (fun a => rd a e f) s = e s1 := by
  have hend1 : s1.input.length ≤ s1.inPos := by rw [takeAnswer_state ha]; exact hend
  rw [transact_some ha, rd_eof rfl hend1]

/-- The header is not empty, so its first byte is in flight (R410). -/
theorem writeHeader_first (s : State) :
    ∃ b bytes, writeHeader s = .next { s with phase := .hufHdrW b bytes } := by
  have hlen := headerBytes_length Config.magic s.n s.total
  unfold writeHeader
  cases hb : headerBytes Config.magic s.n s.total with
  | nil => rw [hb] at hlen; cases hlen
  | cons b bytes => exact ⟨b, bytes, rfl⟩

/-- The end of pass 1 begins the header, with `ORIG_SIZE` the number of bytes counted (R302, R304, R514). -/
theorem pass1Eof_first (s : State) :
    ∃ t b bytes, pass1Eof s = .next t ∧ t.phase = .hufHdrW b bytes ∧ t.status = s.status ∧ t.origSize = s.total := by
  by_cases h0 : s.total = 0
  · obtain ⟨b, bytes, hw⟩ := writeHeader_first (endOfPass1 s)
    exact ⟨_, b, bytes, (pass1Eof_empty h0).trans hw, rfl, rfl, rfl⟩
  · obtain ⟨a, ha, -⟩ := buildTree_spec s.freq s.arena
    obtain ⟨b, bytes, hw⟩ := writeHeader_first { endOfPass1 s with arena := a, code := genCodes a }
    exact ⟨_, b, bytes, (pass1Eof_coded h0 ha).trans hw, rfl, rfl, rfl⟩

/-- Settles O21: each reading phase is one `rd!`, whose `Eof` the phase's rule names. -/
theorem eofGivesTheErrorOfThePhase : Obligations.EofGivesTheErrorOfThePhase := by
  intro s s1 ha hend
  have hs := takeAnswer_state ha
  refine ⟨fun hp hv => ?_, fun hp hv => ?_, fun hp => ?_, fun c hp => ?_, fun hp => ?_, fun hp => ?_, fun got hp => ?_,
    fun left got hp => ?_, fun hp => ?_, by decide⟩
  · have hv1 : s1.runValid = false := by rw [hs]; exact hv
    refine (exec_rleEnc hp).trans ((transact_eof ha hend).trans ?_)
    rw [encEof, if_neg (by rw [hv1]; exact Bool.false_ne_true)]
    rfl
  · have hv1 : s1.runValid = true := by rw [hs]; exact hv
    refine (exec_rleEnc hp).trans ((transact_eof ha hend).trans ?_)
    rw [encEof, if_pos hv1]
    rfl
  · exact (exec_rleDec hp).trans (transact_eof ha hend)
  · exact (exec_rleDec hp).trans (transact_eof ha hend)
  · obtain ⟨t, b, bytes, ht, hphase, hstatus, hsize⟩ := pass1Eof_first s1
    refine ⟨t, b, bytes, (exec_hufPass1 hp).trans ((transact_eof ha hend).trans ht), hphase, ?_, ?_⟩
    · rw [hstatus, hs]
    · rw [hsize, hs]
  · exact (exec_hufPass2 hp).trans (transact_eof ha hend)
  · exact (exec_hufHdrR hp).trans (transact_eof ha hend)
  · exact (exec_hufTabR hp).trans (transact_eof ha hend)
  · exact (exec_hufBody hp).trans (transact_eof ha hend)

/-! ## The codes of each command (R601) -/

/-- The codes that R601 lists for a command. -/
def EndCode (i : Instr) (c : BitVec 8) : Prop :=
  match i with
  | .cmpRle => c ∈ ([0, 5] : List (BitVec 8))
  | .dcmpRle => c ∈ ([0, 5, 6] : List (BitVec 8))
  | .cmpHuf => c ∈ ([0, 5, 8, 9] : List (BitVec 8))
  | .dcmpHuf => c ∈ ([0, 2, 3, 4, 5, 7] : List (BitVec 8))
  | .invalid _ => c = 1

/-- A command that runs may end with success, with `IOFailure`, and with the errors of its own rules. -/
theorem endCode_of_running {p : Phase} {i : Instr} (hi : phaseCommand p = some i) :
    EndCode i 0 ∧ ∀ e ∈ Error.ioFailure :: ownErrors i, EndCode i (errorCode e) := by
  cases i with
  | cmpRle => simp only [EndCode]; decide
  | dcmpRle => simp only [EndCode]; decide
  | cmpHuf => simp only [EndCode]; decide
  | dcmpHuf => simp only [EndCode]; decide
  | invalid w => cases p <;> cases hi

/-- Settles O22: from `IDLE` only `INVALID` ends at once, and a running command ends by `finish`, `IOFailure` or an error of
its own. -/
theorem codesEachCommandCanEndWith : Obligations.CodesEachCommandCanEndWith := by
  intro i s t hs h ht
  show t.status.busy = false ∧ t.status.done = true ∧ EndCode i t.status.err
  rcases hs with hp | hi
  · rcases exec_idle_cases hp h with ⟨-, rfl⟩ | ⟨-, rfl⟩ | ⟨-, rfl⟩ | ⟨-, rfl⟩ | ⟨w, rfl, rfl⟩
    · cases ht
    · cases ht
    · cases ht
    · cases ht
    · exact ⟨rfl, rfl, rfl⟩
  · obtain ⟨hfinished, hraised⟩ := endCode_of_running hi
    rcases exec_continues hi h with ⟨hrun, -⟩ | ⟨-, hst | ⟨e, he, hst⟩⟩
    · exact absurd ht (phaseCommand_ne_idle hrun)
    · rw [hst]; exact ⟨rfl, rfl, hfinished⟩
    · rw [hst]; exact ⟨rfl, rfl, hraised e (List.mem_cons.mpr he)⟩

end Sys2Proof.Machine

namespace Sys2Proof.Machine

/-! ## How many transactions a command may still need (R721)

`transactionsLeft` bounds the transactions that a running command still makes, whatever the host answers, and each
transaction lowers it. Only the answer to the rewind may lengthen what is still to be read, and the answers that the host
holds ready say how long it can get. -/

/-- The length of the input that an answer puts in place of `IN` (R105), 0 if it puts none. -/
def Answer.inputLength : Answer → Nat
  | .ok => 0
  | .okChanged bytes => bytes.length
  | .err _ _ => 0

/-- The longest input that the host may deliver, now or after a rewind. -/
def longestInput (s : State) : Nat := s.answers.foldr (fun a k => max a.inputLength k) s.input.length

/-- `FREQ` once the bytes are counted (R302). -/
def countInto (freq : Vector Word 256) (bytes : List Byte) : Vector Word 256 :=
  bytes.foldl (fun f b => entryPut f b (entryAt f b + 1)) freq

/-- The transactions after which an RLE pair is written, `u` bytes being unread: three for each byte, for it and the pair of
the run that it opens, and the `Eof`. -/
def leftAfterPair (u : Nat) : RunClose → Nat
  | .differs _ => 3 * u + 3
  | .cap => 3 * u + 1
  | .atEof => 0

/-- `r` reads of pass 2, and the writes of `bits` bits and of the codes of these reads, each at most 255 bits (R340). -/
def packsLeft (r bits : Nat) : Nat := r + (bits + 255 * r + 7) / 8

/-- The rewind and pass 2, for `total` bytes (R516) from an input of length `len`. -/
def rewindsLeft (total : U64) (len : Nat) : Nat := 1 + packsLeft (min total.toNat (len + 1)) 0

/-- The reads of pass 2 at the head of its loop with `REMAIN` at `k`: the last of them may be the `Eof`. -/
def loopReads (k : U64) (s : State) : Nat := min k.toNat ((unread s).length + 1)

/-- A bound of the transactions of a command in the phase `p`. -/
def transactionsIn (p : Phase) (s : State) : Nat :=
  match p with
  | .idle => 0
  | .rleEnc .read => 3 * (unread s).length + 1 + 2 * s.runValid.toNat
  | .rleEnc (.count why) => 2 + leftAfterPair (unread s).length why
  | .rleEnc (.value why) => 1 + leftAfterPair (unread s).length why
  | .rleDec .count => (unread s).length + 1 + 255 * ((unread s).length / 2)
  | .rleDec (.value _) => (unread s).length + 1 + 255 * (((unread s).length + 1) / 2)
  | .rleDec (.emit _ left) => left + 1 + ((unread s).length + 1 + 255 * ((unread s).length / 2))
  | .hufPass1 =>
    (unread s).length + 1 + (13 + (5 * distinctCount (countInto s.freq (unread s)) +
      rewindsLeft (s.total + BitVec.ofNat 64 (unread s).length) (longestInput s)))
  | .hufHdrW _ rest => rest.length + 1 + (5 * distinctCount s.freq + rewindsLeft s.total (longestInput s))
  | .hufTabW _ rest => rest.length + 1 + rewindsLeft s.total (longestInput s)
  | .hufRewind => rewindsLeft s.total (longestInput s)
  | .hufPass2 .read => packsLeft (1 + min (s.remain - 1).toNat (unread s).length) s.bitCnt
  | .hufPass2 (.flush rest) => 1 + packsLeft (loopReads (s.remain - 1) s) rest.length
  | .hufFlush => 1
  | .hufHdrR _ => 9 * (unread s).length + 1
  | .hufTabR _ _ => 9 * (unread s).length + 1
  | .hufBody .read => 9 * (unread s).length + 1
  | .hufBody (.emit _ left) => left + 1 + (9 * (unread s).length + 1)

/-- A bound of the transactions that the running command still makes. -/
def transactionsLeft (s : State) : Nat := transactionsIn s.phase s

/-- If the result is a next state, fewer than `n` transactions are left there. -/
def LeavesFewer (n : Nat) : Result → Prop := Yields (transactionsLeft · < n)

section
variable {s : State} {n : Nat}

theorem LeavesFewer.mono {m : Nat} {r : Result} (h : LeavesFewer m r) (hmn : m ≤ n) : LeavesFewer n r :=
  Yields.imp h fun _ ht => lt_of_lt_of_le ht hmn

theorem issue_leavesFewer {p : Phase} (h : transactionsIn p s < n) : LeavesFewer n (issue p s) := by
  have hp : transactionsIn p { s with phase := p } = transactionsIn p s := by cases p <;> rfl
  exact hp.trans_lt h

/-- A command that ends has no transaction left. -/
theorem raise_leavesFewer (hn : 0 < n) (e : Error) : LeavesFewer n (.next (raise e s)) := hn

theorem finish_leavesFewer (hn : 0 < n) : LeavesFewer n (.next (finish s)) := hn

/-! ### The answers of the host -/

theorem input_length_le_longestInput (s : State) : s.input.length ≤ longestInput s := by
  unfold longestInput
  induction s.answers with
  | nil => exact le_rfl
  | cons a rest ih => exact ih.trans (le_max_right _ _)

/-- An answer that is taken is one of those ready, or the honest one. -/
theorem takeAnswer_longestInput {s1 : State} {a : Answer} (ha : takeAnswer s = some (a, s1)) :
    a.inputLength ≤ longestInput s ∧ longestInput s1 ≤ longestInput s := by
  unfold takeAnswer at ha
  split at ha
  · rename_i b rest hb
    cases ha
    have hl : longestInput s = max a.inputLength (longestInput { s with answers := rest }) := by
      rw [longestInput, hb]; rfl
    rw [hl]
    exact ⟨le_max_left _ _, le_max_right _ _⟩
  · split at ha
    · cases ha; exact ⟨Nat.zero_le _, le_rfl⟩
    · cases ha

theorem packsLeft_mono {r r' bits bits' : Nat} (hr : r ≤ r') (hb : bits ≤ bits') :
    packsLeft r bits ≤ packsLeft r' bits' := by
  unfold packsLeft; omega

theorem rewindsLeft_mono (total : U64) {len len' : Nat} (h : len ≤ len') :
    rewindsLeft total len ≤ rewindsLeft total len' :=
  Nat.add_le_add_left (packsLeft_mono (by omega) le_rfl) 1

/-- Pass 2 over an input whose bytes are all counted. -/
theorem rewindsLeft_le {total : U64} {len : Nat} (h : total.toNat ≤ len) :
    rewindsLeft total len ≤ 1 + len + (255 * len + 7) / 8 := by
  have hpack := packsLeft_mono (show min total.toNat (len + 1) ≤ len by omega) (le_refl 0)
  rw [rewindsLeft, Nat.add_assoc]
  refine Nat.add_le_add_left (hpack.trans_eq ?_) 1
  rw [packsLeft, Nat.zero_add]

/-- Taking an answer does not raise the bound. -/
theorem takeAnswer_transactionsIn {s1 : State} {a : Answer} (ha : takeAnswer s = some (a, s1)) (p : Phase) :
    transactionsIn p s1 ≤ transactionsIn p s := by
  obtain ⟨-, hlen⟩ := takeAnswer_longestInput ha
  have hs := takeAnswer_state ha
  generalize s1.answers = rest at hs
  subst hs
  cases p with
  | hufPass1 => exact Nat.add_le_add_left (Nat.add_le_add_left (Nat.add_le_add_left (rewindsLeft_mono _ hlen) _) _) _
  | hufHdrW b bytes => exact Nat.add_le_add_left (Nat.add_le_add_left (rewindsLeft_mono _ hlen) _) _
  | hufTabW b bytes => exact Nat.add_le_add_left (rewindsLeft_mono _ hlen) _
  | hufRewind => exact rewindsLeft_mono _ hlen
  | rleEnc p | rleDec p | hufPass2 p | hufBody p => cases p <;> exact le_rfl
  | idle | hufFlush | hufHdrR got | hufTabR left got => exact le_rfl

/-! ### The stream transactions -/

theorem rd_leavesFewer {a : Answer} {e : State → Result} {f : Byte → State → Result} (hn : 0 < n)
    (heof : unread s = [] → LeavesFewer n (e s))
    (hbyte : ∀ b, unread s = b :: unread (afterByte s) → LeavesFewer n (f b (afterByte s))) :
    LeavesFewer n (rd a e f s) := by
  rcases rd_cases a e f s with ⟨pos, kept, -, hr⟩ | ⟨-, hend, hr⟩ | ⟨b, -, hb, hr⟩ <;> rw [hr]
  · exact raise_leavesFewer hn _
  · exact heof (unread_eq_nil_iff.mpr hend)
  · exact hbyte b (List.drop_eq_getElem?_toList_append.trans (by rw [hb]; rfl))

/-- The same where only the number of unread bytes matters, and `Eof` is an error. -/
theorem rdOr_leavesFewer {a : Answer} {e : Error} {f : Byte → State → Result} (hn : 0 < n)
    (hbyte : ∀ b, (unread s).length = (unread (afterByte s)).length + 1 → LeavesFewer n (f b (afterByte s))) :
    LeavesFewer n (rdOr a e f s) :=
  rd_leavesFewer hn (fun _ => raise_leavesFewer hn e) fun b hu => hbyte b (congrArg List.length hu)

theorem wr_leavesFewer {a : Answer} {b : Byte} {k : State → Result} (hn : 0 < n)
    (hok : LeavesFewer n (k (afterWrite b s))) : LeavesFewer n (wr a b k s) :=
  yields_wr (fun _ => hn) hok

/-! ### The RLE commands -/

theorem encLoopEnd_leavesFewer (h : 3 * (unread s).length + 3 < n) : LeavesFewer n (encLoopEnd s) := by
  unfold encLoopEnd
  split
  · exact issue_leavesFewer (by simp only [transactionsIn, leftAfterPair]; omega)
  · have hv := s.runValid.toNat_le
    exact issue_leavesFewer (by simp only [transactionsIn]; omega)

theorem encByte_leavesFewer (b : Byte) (h : 3 * (unread s).length + 4 + 2 * s.runValid.toNat ≤ n) :
    LeavesFewer n (encByte b s) := by
  unfold encByte
  split
  · exact encLoopEnd_leavesFewer (s := openRun b s) (show 3 * (unread s).length + 3 < n by omega)
  · rename_i hv
    rw [Bool.eq_true_of_not_eq_false hv, Bool.toNat_true] at h
    split
    · exact encLoopEnd_leavesFewer (show 3 * (unread s).length + 3 < n by omega)
    · exact issue_leavesFewer (by simp only [transactionsIn, leftAfterPair]; omega)

theorem encEof_leavesFewer (h : 1 + 2 * s.runValid.toNat ≤ n) : LeavesFewer n (encEof s) := by
  unfold encEof
  split
  · rename_i hv
    rw [hv, Bool.toNat_true] at h
    exact issue_leavesFewer (by simp only [transactionsIn, leftAfterPair]; omega)
  · exact finish_leavesFewer (by omega)

theorem encClosed_leavesFewer (why : RunClose) (s : State) :
    LeavesFewer (1 + leftAfterPair (unread s).length why) (encClosed why s) := by
  cases why with
  | differs b =>
    exact encLoopEnd_leavesFewer (s := { s with runVal := b, runCnt := 1 })
      (show 3 * (unread s).length + 3 < 1 + (3 * (unread s).length + 3) by omega)
  | cap => exact issue_leavesFewer (show 3 * (unread s).length + 1 < 1 + (3 * (unread s).length + 1) by omega)
  | atEof => exact finish_leavesFewer Nat.one_pos

theorem encStep_leavesFewer (p : EncAt) (a : Answer) (s : State) :
    LeavesFewer (transactionsIn (.rleEnc p) s) (encStep p a s) := by
  cases p with
  | read =>
    have hn : 0 < transactionsIn (.rleEnc .read) s := by simp only [transactionsIn]; omega
    refine rd_leavesFewer hn (fun hu => encEof_leavesFewer ?_) fun b hu => encByte_leavesFewer b ?_
    · simp only [transactionsIn, hu, List.length_nil]; omega
    · have hlen : (unread s).length = (unread (afterByte s)).length + 1 := congrArg List.length hu
      have hv : (afterByte s).runValid = s.runValid := rfl
      simp only [transactionsIn, hlen, hv]; omega
  | count why =>
    refine wr_leavesFewer (by simp only [transactionsIn]; omega) (issue_leavesFewer ?_)
    show 1 + leftAfterPair (unread s).length why < 2 + leftAfterPair (unread s).length why
    omega
  | value why =>
    exact wr_leavesFewer (by simp only [transactionsIn]; omega) (encClosed_leavesFewer why (afterWrite s.runVal s))

theorem decEmit_leavesFewer (v : Byte) (left : Nat) (s : State) :
    LeavesFewer (left + 1 + ((unread s).length + 1 + 255 * ((unread s).length / 2))) (decEmit v left s) := by
  cases left with
  | zero => exact issue_leavesFewer (by simp only [transactionsIn]; omega)
  | succ k => exact issue_leavesFewer (by simp only [transactionsIn]; omega)

theorem decStep_leavesFewer (p : DecAt) (a : Answer) (s : State) :
    LeavesFewer (transactionsIn (.rleDec p) s) (decStep p a s) := by
  have hn : 0 < transactionsIn (.rleDec p) s := by cases p <;> simp only [transactionsIn] <;> omega
  cases p with
  | count =>
    refine rd_leavesFewer hn (fun _ => finish_leavesFewer hn) fun c hu => issue_leavesFewer ?_
    have hlen : (unread s).length = (unread (afterByte s)).length + 1 := congrArg List.length hu
    simp only [transactionsIn, hlen]; omega
  | value c =>
    refine rdOr_leavesFewer hn fun v hlen => (decEmit_leavesFewer v c.toNat _).mono ?_
    have hc := c.isLt
    simp only [transactionsIn, hlen]; omega
  | emit v left => exact wr_leavesFewer hn (decEmit_leavesFewer v left (afterWrite v s))

/-! ### `CMP.HUF` -/

/-- Bytes to be written come before the `m` transactions of what follows them. -/
theorem writeAll_leavesFewer {mk : Byte → List Byte → Phase} {done : State → Result} {m : Nat}
    (hmk : ∀ b rest, transactionsIn (mk b rest) s = rest.length + 1 + m) (hd : LeavesFewer (m + 1) (done s))
    (bytes : List Byte) : LeavesFewer (bytes.length + 1 + m) (writeAll mk done bytes s) := by
  cases bytes with
  | nil => exact hd.mono (by simp only [List.length_nil]; omega)
  | cons b rest => exact issue_leavesFewer (by rw [hmk, List.length_cons]; omega)

theorem tableWrites_leavesFewer (bytes : List Byte) (s : State) :
    LeavesFewer (bytes.length + 1 + rewindsLeft s.total (longestInput s))
      (writeAll .hufTabW (issue .hufRewind) bytes s) :=
  writeAll_leavesFewer (fun _ _ => rfl) (issue_leavesFewer (Nat.lt_succ_self _)) bytes

theorem headerWritten_leavesFewer (s : State) :
    LeavesFewer (5 * distinctCount s.freq + rewindsLeft s.total (longestInput s) + 1) (headerWritten s) := by
  unfold headerWritten
  split
  · exact finish_leavesFewer (Nat.succ_pos _)
  · exact (tableWrites_leavesFewer (tableBytes s.freq) s).mono (by rw [tableBytes_length]; omega)

theorem headerWrites_leavesFewer (bytes : List Byte) (s : State) :
    LeavesFewer (bytes.length + 1 + (5 * distinctCount s.freq + rewindsLeft s.total (longestInput s)))
      (writeAll .hufHdrW headerWritten bytes s) :=
  writeAll_leavesFewer (fun _ _ => rfl) (headerWritten_leavesFewer s) bytes

theorem writeHeader_leavesFewer (s : State) :
    LeavesFewer (1 + (13 + (5 * distinctCount s.freq + rewindsLeft s.total (longestInput s)))) (writeHeader s) :=
  (headerWrites_leavesFewer (headerBytes Config.magic s.n s.total) s).mono (by rw [headerBytes_length]; omega)

/-- What is still to be counted is, at the end of the input, in `FREQ` and `TOTAL`. -/
theorem pass1Eof_leavesFewer (hu : unread s = []) : LeavesFewer (transactionsIn .hufPass1 s) (pass1Eof s) := by
  have htotal : s.total + BitVec.ofNat 64 0 = s.total := BitVec.add_zero _
  simp only [transactionsIn, hu, List.length_nil, htotal]
  rw [Nat.zero_add]
  unfold pass1Eof
  split
  · exact writeHeader_leavesFewer (endOfPass1 s)
  · split
    · trivial
    · exact writeHeader_leavesFewer { endOfPass1 s with arena := _, code := _ }

theorem pass1Byte_leavesFewer {b : Byte} (hu : unread s = b :: unread (afterByte s)) :
    LeavesFewer (transactionsIn .hufPass1 s) (pass1Byte b (afterByte s)) := by
  unfold pass1Byte
  split
  · exact raise_leavesFewer (by simp only [transactionsIn]; omega) _
  · refine issue_leavesFewer ?_
    simp only [transactionsIn, hu, List.length_cons, ← bitVec64_add_one_add]
    show _ + 1 + (13 + (5 * distinctCount (countInto s.freq (b :: unread (afterByte s))) + _)) < _
    exact Nat.add_lt_add_right (Nat.lt_succ_self _) _

/-- The head of pass 2's loop reads on, or flushes the bits that are left. -/
theorem pass2Loop_leavesFewer (s : State) :
    LeavesFewer (packsLeft (loopReads s.remain s) s.bitCnt + 1) (pass2Loop s) := by
  unfold pass2Loop
  split
  · unfold packFlush
    split
    · exact issue_leavesFewer (by simp only [transactionsIn, packsLeft]; omega)
    · exact finish_leavesFewer (Nat.succ_pos _)
  · rename_i hr
    have hreads : 1 + min (s.remain - 1).toNat (unread s).length = loopReads s.remain s := by
      unfold loopReads
      bv_omega
    exact issue_leavesFewer (by simp only [transactionsIn, hreads]; omega)

/-- Each eight of the bits at hand make one write. -/
theorem packBits_leavesFewer (bits : List Bool) (s : State) :
    LeavesFewer (packsLeft (loopReads (s.remain - 1) s) (s.bitCnt + bits.length) + 1) (packBits pass2Packed bits s) := by
  induction bits generalizing s with
  | nil => exact pass2Loop_leavesFewer { s with remain := s.remain - 1 }
  | cons b rest ih =>
    unfold packBits
    split
    · rename_i hfull
      refine issue_leavesFewer ?_
      show 1 + packsLeft (loopReads (s.remain - 1) s) rest.length < _
      simp only [packsLeft, List.length_cons]; omega
    · refine (ih (packShift b s)).mono ?_
      show packsLeft (loopReads (s.remain - 1) s) (s.bitCnt + 1 + rest.length) + 1 ≤ _
      rw [List.length_cons, Nat.add_assoc, Nat.add_comm 1]

theorem codeBits_length_le (c : CodeEntry) : (codeBits c).length ≤ 255 := by
  have hlen := c.len.isLt
  rw [codeBits, List.length_map, List.length_range]
  omega

theorem pass2Step_leavesFewer (p : PackAt) (a : Answer) (s : State) :
    LeavesFewer (transactionsIn (.hufPass2 p) s) (pass2Step p a s) := by
  cases p with
  | read =>
    have hn : 0 < transactionsIn (.hufPass2 .read) s := by simp only [transactionsIn, packsLeft]; omega
    refine rdOr_leavesFewer hn fun b hlen => ?_
    unfold pass2Byte
    split
    · exact raise_leavesFewer hn _
    · refine (packBits_leavesFewer _ (afterByte s)).mono ?_
      have hcode := codeBits_length_le (entryAt (afterByte s).code b)
      have hreads : loopReads ((afterByte s).remain - 1) (afterByte s) = min (s.remain - 1).toNat (unread s).length := by
        rw [hlen]; rfl
      have hcnt : (afterByte s).bitCnt = s.bitCnt := rfl
      simp only [transactionsIn, packsLeft, hreads, hcnt]; omega
  | flush rest =>
    refine wr_leavesFewer (by simp only [transactionsIn]; omega) ?_
    refine (packBits_leavesFewer rest (packInit (afterWrite s.acc s))).mono ?_
    show packsLeft (loopReads (s.remain - 1) s) (0 + rest.length) + 1 ≤ 1 + packsLeft _ rest.length
    rw [Nat.zero_add, Nat.add_comm]

theorem pass2Start_leavesFewer {len : Nat} (h : (unread s).length ≤ len) :
    LeavesFewer (rewindsLeft s.total len) (pass2Start s) := by
  refine (pass2Loop_leavesFewer { packInit s with remain := s.total }).mono ?_
  rw [rewindsLeft, Nat.add_comm]
  refine Nat.add_le_add_left (packsLeft_mono ?_ le_rfl) 1
  show min s.total.toNat ((unread s).length + 1) ≤ _
  omega

/-- The rewound input is the present one, or the one that the answer delivers (R102, R105). -/
theorem rewindStep_leavesFewer {a : Answer} {len : Nat} (hs : s.input.length ≤ len) (ha : a.inputLength ≤ len) :
    LeavesFewer (rewindsLeft s.total len) (rewindStep a s) := by
  cases a with
  | ok => exact pass2Start_leavesFewer (s := { s with inPos := 0 }) hs
  | okChanged bytes => exact pass2Start_leavesFewer (s := { s with input := bytes, inPos := 0 }) ha
  | err pos kept => exact raise_leavesFewer (by unfold rewindsLeft; omega) _

/-! ### `DCMP.HUF`

A byte of the body leads to at most eight writes, and a byte of the header or the table to none. -/

theorem headerByte_leavesFewer (got : List Byte) (b : Byte) (h : 9 * (unread s).length + 1 < n) :
    LeavesFewer n (headerByte got b s) := by
  have hn : 0 < n := by omega
  unfold headerByte
  split
  · split
    · exact issue_leavesFewer h
    · exact raise_leavesFewer hn _
  · split
    · exact issue_leavesFewer h
    · split
      · obtain ⟨k, hk⟩ := interpretCount_eq { s with origSize := assembleLe 64 ((got ++ [b]).drop 5) }
        rw [hk, headerRead]
        split
        · exact finish_leavesFewer hn
        · exact issue_leavesFewer h
      · exact issue_leavesFewer h

theorem tableRead_leavesFewer (h : 9 * (unread s).length + 1 < n) : LeavesFewer n (tableRead s) := by
  unfold tableRead
  split
  · exact raise_leavesFewer (by omega) _
  · split
    · trivial
    · exact issue_leavesFewer h

theorem tableByte_leavesFewer (left : Nat) (got : List Byte) (b : Byte) (h : 9 * (unread s).length + 1 < n) :
    LeavesFewer n (tableByte left got b s) := by
  unfold tableByte
  split
  · exact issue_leavesFewer h
  · split
    · exact tableRead_leavesFewer h
    · exact issue_leavesFewer h

/-- Each bit leads to at most one write. -/
theorem walkBits_leavesFewer (byte : Byte) (k : Nat) (s : State) :
    LeavesFewer (k + 1 + (9 * (unread s).length + 1)) (walkBits byte k s) := by
  induction k generalizing s with
  | zero => exact issue_leavesFewer (by simp only [transactionsIn]; omega)
  | succ k ih =>
    unfold walkBits
    split
    · exact raise_leavesFewer (by omega) _
    · split
      · refine issue_leavesFewer ?_
        show k + 1 + (9 * (unread s).length + 1) < _
        omega
      · exact (ih { s with cur := some _ }).mono (Nat.add_le_add_right (Nat.le_succ _) _)

theorem bodyWritten_leavesFewer (byte : Byte) (left : Nat) (s : State) :
    LeavesFewer (left + 1 + (9 * (unread s).length + 1)) (bodyWritten byte left s) := by
  unfold bodyWritten
  split
  · exact finish_leavesFewer (by omega)
  · exact walkBits_leavesFewer byte left { s with decoded := s.decoded + 1, cur := s.arena.root }

theorem bodyStep_leavesFewer (p : BodyAt) (a : Answer) (s : State) :
    LeavesFewer (transactionsIn (.hufBody p) s) (bodyStep p a s) := by
  cases p with
  | read =>
    refine rdOr_leavesFewer (Nat.succ_pos _) fun byte hlen => (walkBits_leavesFewer byte 8 _).mono ?_
    simp only [transactionsIn, hlen]; omega
  | emit byte left =>
    exact wr_leavesFewer (by simp only [transactionsIn]; omega) (bodyWritten_leavesFewer byte left (afterWrite (curSym s) s))

/-! ### The step -/

/-- Each transaction of a running command leaves fewer. -/
theorem exec_leavesFewer {i : Instr} (hi : phaseCommand s.phase = some i) :
    LeavesFewer (transactionsLeft s) (exec i s) := by
  have hk : ∀ {p : Phase} {k : Answer → State → Result}, s.phase = p → exec i s = transact k s →
      (∀ a u, LeavesFewer (transactionsIn p u) (k a u)) → LeavesFewer (transactionsLeft s) (exec i s) := by
    rintro p k rfl he hk
    rw [he]
    cases ha : takeAnswer s with
    | none => rw [transact_none ha]; trivial
    | some r => rw [transact_some ha]; exact (hk _ _).mono (takeAnswer_transactionsIn ha _)
  refine running_cases hi ?_ ?_ ?_ ?_ ?_ ?_ ?_ ?_ ?_ ?_ ?_
  · rintro p rfl hp; exact hk hp (exec_rleEnc hp) (encStep_leavesFewer p)
  · rintro p rfl hp; exact hk hp (exec_rleDec hp) (decStep_leavesFewer p)
  · rintro rfl hp
    refine hk hp (exec_hufPass1 hp) fun a u => ?_
    exact rd_leavesFewer (by simp only [transactionsIn]; omega) pass1Eof_leavesFewer fun b => pass1Byte_leavesFewer
  · rintro b rest rfl hp
    exact hk hp (exec_hufHdrW hp) fun a u =>
      wr_leavesFewer (by simp only [transactionsIn]; omega) (headerWrites_leavesFewer rest (afterWrite b u))
  · rintro b rest rfl hp
    exact hk hp (exec_hufTabW hp) fun a u =>
      wr_leavesFewer (by simp only [transactionsIn]; omega) (tableWrites_leavesFewer rest (afterWrite b u))
  · rintro rfl hp
    rw [exec_hufRewind hp, transactionsLeft, hp]
    cases ha : takeAnswer s with
    | none => rw [transact_none ha]; trivial
    | some r =>
      rw [transact_some ha, takeAnswer_state ha]
      exact rewindStep_leavesFewer (input_length_le_longestInput s) (takeAnswer_longestInput ha).1
  · rintro p rfl hp; exact hk hp (exec_hufPass2 hp) (pass2Step_leavesFewer p)
  · rintro rfl hp
    exact hk hp (exec_hufFlush hp) fun a u => wr_leavesFewer Nat.one_pos (finish_leavesFewer Nat.one_pos)
  · rintro got rfl hp
    refine hk hp (exec_hufHdrR hp) fun a u => rdOr_leavesFewer (Nat.succ_pos _) fun b hlen => ?_
    exact headerByte_leavesFewer got b (by simp only [transactionsIn, hlen]; omega)
  · rintro left got rfl hp
    refine hk hp (exec_hufTabR hp) fun a u => rdOr_leavesFewer (Nat.succ_pos _) fun b hlen => ?_
    exact tableByte_leavesFewer left got b (by simp only [transactionsIn, hlen]; omega)
  · rintro p rfl hp; exact hk hp (exec_hufBody hp) (bodyStep_leavesFewer p)

end

end Sys2Proof.Machine

namespace Sys2Proof.Machine

/-! ## Every answered command ends, within the bound (R721) -/

/-- The status of a command that has ended (R604, R605). -/
def HasEnded (t : State) : Prop := t.status.busy = false ∧ t.status.done = true

section
variable {i : Instr} {s t : State} {n : Nat}

theorem hasEnded_of_status {P : Error → Prop}
    (h : t.status = statusFinished ∨ ∃ e, P e ∧ t.status = statusRaised e) : HasEnded t := by
  rcases h with hst | ⟨e, -, hst⟩ <;> rw [HasEnded, hst] <;> exact ⟨rfl, rfl⟩

/-- An answered transaction goes on to a state in which fewer are left, with the host still answering. -/
theorem exec_answered_next (hi : phaseCommand s.phase = some i) (hs : Answering s) :
    ∃ t, exec i s = .next t ∧ transactionsLeft t < transactionsLeft s ∧ Answering t := by
  obtain ⟨a, s1, ha, -⟩ := takeAnswer_answering hs
  obtain ⟨t, ht⟩ := exec_running_proceeds hi (Option.isSome_iff_exists.mpr ⟨_, ha⟩)
  exact ⟨t, ht, (exec_leavesFewer hi).of_next ht, (exec_running_hostSide hi ht).serves.trans hs⟩

/-- A running command whose transactions are all answered ends, after at most as many as are left. -/
theorem leadsWithin_transactionsLeft (hi : phaseCommand s.phase = some i) (hs : Answering s)
    (hn : transactionsLeft s ≤ n) : LeadsWithin i HasEnded n (.next s) := by
  induction n generalizing s with
  | zero =>
    obtain ⟨t, -, hlt, -⟩ := exec_answered_next hi hs
    omega
  | succ n ih =>
    obtain ⟨t, ht, hlt, hans⟩ := exec_answered_next hi hs
    refine .goesOn (phaseCommand_ne_idle hi) ?_
    rw [ht]
    rcases exec_continues hi ht with ⟨hrun, -⟩ | ⟨hidle, hst⟩
    · exact ih hrun hans (by omega)
    · exact .ended hidle (hasEnded_of_status hst)

/-- From `IDLE`, a command whose transactions are all answered ends within the bound that holds after its start step. -/
theorem endsIn_of_transactionsLeft (hp : s.phase = .idle) (hs : Answering s) (h : exec i s = .next t)
    (hn : transactionsLeft t ≤ n) : ∃ u, EndsIn i (n + 1) s u ∧ HasEnded u := by
  refine LeadsWithin.endsIn hp ?_
  have hrun : phaseCommand t.phase = some i → LeadsWithin i HasEnded n (exec i s) := fun hi => by
    rw [h]
    exact leadsWithin_transactionsLeft hi ((exec_idle_hostSide hp h).serves.trans hs) hn
  rcases exec_idle_cases hp h with ⟨rfl, rfl⟩ | ⟨rfl, rfl⟩ | ⟨rfl, rfl⟩ | ⟨rfl, rfl⟩ | ⟨w, rfl, rfl⟩
  · exact hrun rfl
  · exact hrun rfl
  · exact hrun rfl
  · exact hrun rfl
  · rw [h]; exact .ended rfl ⟨rfl, rfl⟩

end

/-- Settles O58: what is left after the start step bounds the transactions, whatever the host answers. -/
theorem everyAnsweredCommandEnds : Obligations.EveryAnsweredCommandEnds := by
  intro i v s hp hs
  obtain ⟨t, ht⟩ := exec_idle_proceeds i (s := startCommand v s) hp
  obtain ⟨u, hu, hended⟩ := endsIn_of_transactionsLeft (s := startCommand v s) hp hs ht le_rfl
  exact ⟨_, u, hu, hended⟩

/-- Counting an input from a cleared `FREQ` gives its frequencies (R301, R302). -/
theorem countInto_clear (bytes : List Byte) : countInto (Vector.replicate 256 0) bytes = frequencies bytes := by
  induction bytes using List.reverseRecOn with
  | nil => exact frequencies_nil.symm
  | append_singleton bytes b ih => rw [frequencies_concat, ← ih, countInto, List.foldl_append]; rfl

/-- An honest host delivers `IN` as it is. -/
theorem longestInput_honest {s : State} (hh : Honest s) : longestInput s = s.input.length := by
  rw [longestInput, hh.1]; rfl

/-- Settles O59: the bound after the start step of each command. -/
theorem transactionBounds : Obligations.TransactionBounds := by
  intro v s hp hh h0
  obtain ⟨hcmpRle, hdcmpRle, hcmpHuf, hdcmpHuf, -⟩ := startStepOfEachCommand s v hp
  have hu : unread s = s.input := unread_of_inPos_zero h0
  have hend : ∀ {i : Instr} {t : State} {n : Nat}, exec i (startCommand v s) = .next t → transactionsLeft t ≤ n →
      ∃ k u, EndsIn i (k + 1) (startCommand v s) u ∧ k ≤ n := fun h hn => by
    obtain ⟨u, hu, -⟩ := endsIn_of_transactionsLeft (s := startCommand v s) hp hh.2 h hn
    exact ⟨_, u, hu, le_rfl⟩
  refine ⟨hend hcmpRle ?_, hend hdcmpRle ?_, hend hcmpHuf ?_, hend hdcmpHuf ?_⟩
  · show 3 * (unread s).length + 1 + 0 ≤ _
    rw [hu]; omega
  · show (unread s).length + 1 + 255 * ((unread s).length / 2) ≤ _
    rw [hu]
  · show (unread s).length + 1 + (13 + (5 * distinctCount (countInto (Vector.replicate 256 0) (unread s)) +
      rewindsLeft (0 + BitVec.ofNat 64 (unread s).length) (longestInput s))) ≤ _
    have htotal : (0 + BitVec.ofNat 64 s.input.length : U64).toNat ≤ s.input.length := by
      rw [BitVec.ofNat_eq_ofNat, BitVec.zero_add, BitVec.toNat_ofNat]
      exact Nat.mod_le _ _
    have hrewind := rewindsLeft_le htotal
    rw [hu, countInto_clear, longestInput_honest hh]
    omega
  · show 9 * (unread s).length + 1 ≤ _
    rw [hu]; omega

end Sys2Proof.Machine
